-- ==== Sys2Proof/Word.lean ====
section
/-! DEFINITION. The word types of the paper-vendor command framing engine (CFE): every value of the
spec is an unsigned bit vector (00_scope.md R9, R10). -/

namespace Sys2Proof

/-- A byte: 8 bits (R9). An argument field, a wire byte, a command code, a pin index. -/
abbrev Byte := BitVec 8

/-- A 32-bit word: a command word, a payload word, the value of a register (R8 `CMD_WIDTH`, R61). -/
abbrev Word := BitVec 32

/-- A string length: `STR_LEN_WIDTH` = 24 bits (R8, R94). -/
abbrev StrLen := BitVec 24

end Sys2Proof
end

