-- ==== Sys2Proof/Syntax.lean ====
section
/-! DEFINITION. The syntax: the instructions (one constructor per row of spec/opcode_table.json), the
ports a word can be written to, the fields of an opcode ROM entry (10_state.md R33), and the
statements of a host program (30_encoding.md R100 to R103). -/

namespace Sys2Proof

/-- The instructions: the 36 command words (R90, R97), the payload word DATA (R93) and the INIT form of
a CTRL write (R95). A constructor holds exactly the fields the instruction uses; the fields it ignores
(R91, R93, R95) are not part of it. -/
inductive Instr where
  /-- 0x01 LF (43_feed_layout.md R200). -/
  | lf
  /-- 0x02 TAB (R201). -/
  | tab
  /-- 0x03 FEED_DOTS n (R202). -/
  | feedDots (n : Byte)
  /-- 0x04 FEED_LINES n (R203). -/
  | feedLines (n : Byte)
  /-- 0x05 ONLINE (45_device_control.md R290). -/
  | online
  /-- 0x06 OFFLINE (R291). -/
  | offline
  /-- 0x07 LINE_SPACING_DEFAULT (R204). -/
  | lineSpacingDefault
  /-- 0x08 LINE_SPACING n (R205). -/
  | lineSpacing (n : Byte)
  /-- 0x09 ALIGN mode (R206). -/
  | align (mode : Byte)
  /-- 0x0A INDENT n (R207). -/
  | indent (n : Byte)
  /-- 0x0B PRINT_MODE bits (44_character_format.md R240). -/
  | printMode (bits : Byte)
  /-- 0x0C ENLARGE bits (R241). -/
  | enlarge (bits : Byte)
  /-- 0x0D BOLD_ON (R242). -/
  | boldOn
  /-- 0x0E BOLD_OFF (R243). -/
  | boldOff
  /-- 0x0F DOUBLE_WIDTH_ON (R244). -/
  | doubleWidthOn
  /-- 0x10 DOUBLE_WIDTH_OFF (R245). -/
  | doubleWidthOff
  /-- 0x11 UPDOWN_ON (R246). -/
  | updownOn
  /-- 0x12 UPDOWN_OFF (R247). -/
  | updownOff
  /-- 0x13 REVERSE_ON (R248). -/
  | reverseOn
  /-- 0x14 REVERSE_OFF (R249). -/
  | reverseOff
  /-- 0x15 UNDERLINE mode (R250). -/
  | underline (mode : Byte)
  /-- 0x16 USER_CHARS_ON (R251). -/
  | userCharsOn
  /-- 0x17 USER_CHARS_OFF (R252). -/
  | userCharsOff
  /-- 0x18 CHARSET cs (R253). -/
  | charset (cs : Byte)
  /-- 0x19 CODE_TABLE ct (R254). -/
  | codeTable (ct : Byte)
  /-- 0x1A PANEL_KEY_ENABLE (R292). -/
  | panelKeyEnable
  /-- 0x1B PANEL_KEY_DISABLE (R293). -/
  | panelKeyDisable
  /-- 0x1C RESET, the printer's reset (R294). -/
  | reset
  /-- 0x1D TRANSMIT_STATUS (R295). -/
  | transmitStatus
  /-- 0x1E AUTO_STATUS_BACK mode (R296). -/
  | autoStatusBack (mode : Byte)
  /-- 0x1F PRINT_SETTINGS dots, heat, interval (R297). -/
  | printSettings (dots heat interval : Byte)
  /-- 0x20 SLEEP n (R298). -/
  | sleep (n : Byte)
  /-- 0x21 DENSITY byte (R299). -/
  | density (level : Byte)
  /-- 0x22 TEST_PAGE (R300). -/
  | testPage
  /-- 0x23 WAKE (R301). -/
  | wake
  /-- 0x24 WRITE_STRING L, the string header (46_string.md R340). -/
  | writeString (len : StrLen)
  /-- DATA b, a string payload word (R341). -/
  | data (b : Byte)
  /-- INIT pin, the CTRL write with bit 8 set (41_init.md R160). -/
  | init (pin : Byte)
deriving DecidableEq, Repr

/-- Where a word is written and how it is read there (R96): a CMD write is a command word while
`phase = IDLE` and a payload word while `phase = STR_WAIT`; a CTRL write is the third format. -/
inductive Port where
  | command
  | payload
  | ctrl
deriving DecidableEq, Repr

/-- Why the decoder gives no instruction for a word. -/
inductive DecodeError where
  /-- A command word with a reserved command code: 0x00 or 0x25 to 0xFF (R98). -/
  | reservedCode (op : Byte)
  /-- A CTRL write with INIT = 0: it sets RX_PIN and is no INIT operation (R165). -/
  | initClear
  /-- The bytes are not the four lanes of one 32-bit access (20_memory.md R62, R63). -/
  | notOneWord
deriving DecidableEq, Repr

/-- The ROM field `vclass` (R33): which validator check gates emission. -/
inductive VClass where
  | none
  | align
  | underline
  | indent
  | heat
deriving DecidableEq, Repr

/-- The ROM field `kind` (R33). -/
inductive Kind where
  | seq
  | wake
  | string
deriving DecidableEq, Repr

/-- One entry of the opcode ROM (R33). `lead` is the spec's field `prefix`. -/
structure RomEntry where
  valid  : Bool
  lead   : List Byte
  nargs  : Nat
  vclass : VClass
  kind   : Kind
deriving DecidableEq, Repr

/-- The five registers of the host window (20_memory.md R61). -/
inductive RegName where
  | cmd
  | ctrl
  | status
  | linecfg
  | strcnt
deriving DecidableEq, Repr

/-- One item of the string operand of `WRITE_STRING "s"` (47_facade.md R362). -/
inductive StrItem where
  /-- A character, sent as its ASCII code if it is printable and refused otherwise. -/
  | char (c : Char)
  /-- `\xNN`, the byte 0xNN. -/
  | escape (b : Byte)
deriving DecidableEq, Repr

/-- The boolean pseudo-instructions of R363. -/
inductive Toggle where
  | bold
  | doubleWidth
  | updown
  | reverse
  | userChars
  | panelKey
  | onlineState
deriving DecidableEq, Repr

/-- The PrintMode flags (R102). -/
inductive PmFlag where
  | reverse
  | updown
  | emphasized
  | doubleHeight
  | doubleWidth
  | deleteLine
deriving DecidableEq, Repr

/-- One statement of a host program: the statements of R100 and the pseudo-instructions of R360 to
R366. Operands are integers as written, since the assembler refuses those that do not fit (R101). -/
inductive Statement where
  /-- `<MNEMONIC>`, `<MNEMONIC> a0` or `PRINT_SETTINGS a0, a1, a2`: the command code and its operands. -/
  | command (op : Byte) (args : List Int)
  /-- `WRITE_STRING_HDR L`. -/
  | writeStringHdr (len : Int)
  /-- `DATA b`. -/
  | data (b : Int)
  /-- `INIT pin`. -/
  | init (pin : Int)
  /-- `SETPIN pin`. -/
  | setPin (pin : Int)
  /-- `CLEAR_FLAGS`. -/
  | clearFlags
  /-- `RAW_CMD w`. -/
  | rawCmd (w : Int)
  /-- `READ <reg>`. -/
  | read (r : RegName)
  /-- `DEFAULT_PRINT_SETTINGS` (R360). -/
  | defaultPrintSettings
  /-- `PREVENT_SLEEP` (R361). -/
  | preventSleep
  /-- `WRITE_STRING "s"` (R362). -/
  | writeString (s : List StrItem)
  /-- `BOLD x` and the other boolean forms (R363). -/
  | toggle (t : Toggle) (x : Int)
  /-- `SET_DENSITY level, breakTime` (R364). -/
  | setDensity (level breakTime : Int)
  /-- `ENLARGE_HW h, w` (R365). -/
  | enlargeHw (h w : Int)
  /-- `PRINT_MODE_FLAGS f1 | f2 | …` (R366). -/
  | printModeFlags (flags : List PmFlag)
deriving DecidableEq, Repr

/-- Why the assembler refuses a line. -/
inductive AsmError where
  /-- An operand does not fit its field (R101, R362 to R365). -/
  | operandRefused
  /-- The mnemonic takes another number of operands. -/
  | operandCount
  /-- No statement of R100 or R103 begins with this word. -/
  | unknownMnemonic
  /-- The line is not of the form of R100. -/
  | badLine
deriving DecidableEq, Repr

end Sys2Proof
end

