-- ==== Sys2Proof/Decode.lean ====
section
/-! DEFINITION. The decoder and the encoder (30_encoding.md). A word's meaning depends on the port it is
written to (R96): the decoder takes the port, answers an instruction, and rejects by name. -/

namespace Sys2Proof

/-- OP, bits [7:0] of a command word (R90). -/
def opField (w : Word) : Byte := w.extractLsb' 0 8

/-- A0, bits [15:8] (R90). -/
def a0 (w : Word) : Byte := w.extractLsb' 8 8

/-- A1, bits [23:16] (R90). -/
def a1 (w : Word) : Byte := w.extractLsb' 16 8

/-- A2, bits [31:24] (R90). -/
def a2 (w : Word) : Byte := w.extractLsb' 24 8

/-- L, bits [31:8] of a WRITE_STRING word (R94). -/
def lenField (w : Word) : StrLen := w.extractLsb' 8 24

/-- DATA, bits [7:0] of a payload word (R93). -/
def dataField (w : Word) : Byte := w.extractLsb' 0 8

/-- RX_PIN, bits [7:0] of a CTRL value (10_state.md R24). -/
def pinField (w : Word) : Byte := w.extractLsb' 0 8

/-- INIT, bit [8] of a CTRL value (R24). -/
def initField (w : Word) : Bool := w.getLsbD 8

/-- `zext_32(v)` (00_scope.md R10). -/
def zext {n : Nat} (v : BitVec n) : Word := v.setWidth 32

/-- The command word with the four fields of R90: `OP | (a0 << 8) | (a1 << 16) | (a2 << 24)` (R100). -/
def mkWord (op x y z : Byte) : Word := zext op ||| zext x <<< 8 ||| zext y <<< 16 ||| zext z <<< 24

/-- A command word (R90, R97). The fields a command does not use are not read (R91); a reserved code
is rejected by name (R98). -/
def decodeCommand (w : Word) : Except DecodeError Instr :=
  match (opField w).toNat with
  | 0x01 => .ok .lf
  | 0x02 => .ok .tab
  | 0x03 => .ok (.feedDots (a0 w))
  | 0x04 => .ok (.feedLines (a0 w))
  | 0x05 => .ok .online
  | 0x06 => .ok .offline
  | 0x07 => .ok .lineSpacingDefault
  | 0x08 => .ok (.lineSpacing (a0 w))
  | 0x09 => .ok (.align (a0 w))
  | 0x0A => .ok (.indent (a0 w))
  | 0x0B => .ok (.printMode (a0 w))
  | 0x0C => .ok (.enlarge (a0 w))
  | 0x0D => .ok .boldOn
  | 0x0E => .ok .boldOff
  | 0x0F => .ok .doubleWidthOn
  | 0x10 => .ok .doubleWidthOff
  | 0x11 => .ok .updownOn
  | 0x12 => .ok .updownOff
  | 0x13 => .ok .reverseOn
  | 0x14 => .ok .reverseOff
  | 0x15 => .ok (.underline (a0 w))
  | 0x16 => .ok .userCharsOn
  | 0x17 => .ok .userCharsOff
  | 0x18 => .ok (.charset (a0 w))
  | 0x19 => .ok (.codeTable (a0 w))
  | 0x1A => .ok .panelKeyEnable
  | 0x1B => .ok .panelKeyDisable
  | 0x1C => .ok .reset
  | 0x1D => .ok .transmitStatus
  | 0x1E => .ok (.autoStatusBack (a0 w))
  | 0x1F => .ok (.printSettings (a0 w) (a1 w) (a2 w))
  | 0x20 => .ok (.sleep (a0 w))
  | 0x21 => .ok (.density (a0 w))
  | 0x22 => .ok .testPage
  | 0x23 => .ok .wake
  | 0x24 => .ok (.writeString (lenField w))
  | _ => .error (.reservedCode (opField w))

/-- A payload word (R93): any word is one. -/
def decodePayload (w : Word) : Except DecodeError Instr := .ok (.data (dataField w))

/-- A CTRL write (R95): the INIT operation if bit [8] is 1. -/
def decodeCtrl (w : Word) : Except DecodeError Instr :=
  if initField w then .ok (.init (pinField w)) else .error .initClear

/-- The decoder: the instruction that the word `w` is on the port `p` (R96). -/
def decode (p : Port) (w : Word) : Except DecodeError Instr :=
  match p with
  | .command => decodeCommand w
  | .payload => decodePayload w
  | .ctrl => decodeCtrl w

/-- The word on four byte lanes, lane k carrying bits [8k+7:8k] (20_memory.md R63). -/
def wordOfLanes : List Byte → Option Word
  | [b0, b1, b2, b3] => some (mkWord b0 b1 b2 b3)
  | _ => none

/-- The four byte lanes of a word, lane 0 first (R63). -/
def lanesOfWord (w : Word) : List Byte :=
  [w.extractLsb' 0 8, w.extractLsb' 8 8, w.extractLsb' 16 8, w.extractLsb' 24 8]

/-- The decoder on any list of bytes: only the four lanes of one 32-bit access are a word (R62). -/
def decodeLanes (p : Port) (bs : List Byte) : Except DecodeError Instr :=
  match wordOfLanes bs with
  | some w => decode p w
  | none => .error .notOneWord

/-- The encoder (R90 to R95, R97). The fields an instruction ignores are written as 0 (R100). -/
def encode : Instr → Word
  | .lf => mkWord 0x01 0 0 0
  | .tab => mkWord 0x02 0 0 0
  | .feedDots x => mkWord 0x03 x 0 0
  | .feedLines x => mkWord 0x04 x 0 0
  | .online => mkWord 0x05 0 0 0
  | .offline => mkWord 0x06 0 0 0
  | .lineSpacingDefault => mkWord 0x07 0 0 0
  | .lineSpacing x => mkWord 0x08 x 0 0
  | .align x => mkWord 0x09 x 0 0
  | .indent x => mkWord 0x0A x 0 0
  | .printMode x => mkWord 0x0B x 0 0
  | .enlarge x => mkWord 0x0C x 0 0
  | .boldOn => mkWord 0x0D 0 0 0
  | .boldOff => mkWord 0x0E 0 0 0
  | .doubleWidthOn => mkWord 0x0F 0 0 0
  | .doubleWidthOff => mkWord 0x10 0 0 0
  | .updownOn => mkWord 0x11 0 0 0
  | .updownOff => mkWord 0x12 0 0 0
  | .reverseOn => mkWord 0x13 0 0 0
  | .reverseOff => mkWord 0x14 0 0 0
  | .underline x => mkWord 0x15 x 0 0
  | .userCharsOn => mkWord 0x16 0 0 0
  | .userCharsOff => mkWord 0x17 0 0 0
  | .charset x => mkWord 0x18 x 0 0
  | .codeTable x => mkWord 0x19 x 0 0
  | .panelKeyEnable => mkWord 0x1A 0 0 0
  | .panelKeyDisable => mkWord 0x1B 0 0 0
  | .reset => mkWord 0x1C 0 0 0
  | .transmitStatus => mkWord 0x1D 0 0 0
  | .autoStatusBack x => mkWord 0x1E x 0 0
  | .printSettings x y z => mkWord 0x1F x y z
  | .sleep x => mkWord 0x20 x 0 0
  | .density x => mkWord 0x21 x 0 0
  | .testPage => mkWord 0x22 0 0 0
  | .wake => mkWord 0x23 0 0 0
  | .writeString len => zext len <<< 8 ||| 0x24
  | .data b => zext b
  | .init pin => 0x100 ||| zext pin

/-- The port an instruction's word is written to: R95 for INIT, R93 for DATA, R90 for the rest. -/
def portOf : Instr → Port
  | .init _ => .ctrl
  | .data _ => .payload
  | _ => .command

/-- The port on which a row of spec/opcode_table.json is meant, from the word alone: a table word carries
no port. DESIGN CHOICE (log entry 12): a word with a valid command code is a command word; any other
word of the form `0x100 | pin` is a CTRL write; any other word is a payload word. -/
def tablePort (w : Word) : Port :=
  match decodeCommand w with
  | .ok _ => .command
  | .error _ => if lenField w = 1 then .ctrl else .payload

/-- The 32-bit word of a table row: its low `nbits` bits, the bits above them 0. -/
def tableWord (nbits w : Nat) : Word := BitVec.ofNat 32 (w % 2 ^ nbits)

/-- The instruction the decoder reads from the bits of a table row, laid out on the byte lanes (R63). No
instruction is longer than one 32-bit word (R99). -/
def decodeTableWord (nbits w : Nat) : Option Instr :=
  if 32 < nbits then none
  else match decodeLanes (tablePort (tableWord nbits w)) (lanesOfWord (tableWord nbits w)) with
  | .ok i => some i
  | .error _ => none

end Sys2Proof
end

