-- ==== Sys2Proof/Config.lean ====
section
/-! DEFINITION. The implementation parameters of 00_scope.md R8: the fixed ones as values, the OPEN
ones as opaque constants (no body, so that nothing can be proved about the value chosen). -/

namespace Sys2Proof.Config

/-- `BAUD` = 19200 (R8), as LINECFG's 20-bit field holds it (R27). -/
def baud : BitVec 20 := 19200

/-- `DATA_BITS` = 8 (R8), as LINECFG's 4-bit field. -/
def dataBits : BitVec 4 := 8

/-- `PARITY` = none, encoded 0 (R8), as LINECFG's 2-bit field. -/
def parity : BitVec 2 := 0

/-- `STOP_BITS` = 1 (R8), as LINECFG's 2-bit field. -/
def stopBits : BitVec 2 := 1

/-- `SETTLE_MS` = 50, a lower bound (R8). -/
def settleMs : Nat := 50

/-- `MAX_SEQ_LEN` = 5 bytes (R8). -/
def maxSeqLen : Nat := 5

/-- `REQUIRED_RX_PIN`: OPEN, an 8-bit pin index (R8; 92 D34). Log entry 6. -/
opaque requiredRxPin : Byte

/-- `RX_ALT_FUNC`: OPEN, an opaque identifier of the pin's alternate function (R8; 92 D45). Log entry 6. -/
opaque rxAltFunc : Nat

/-- The clock frequency less one hertz; OPEN (R8; 92 D15). DEDUCED: a clock's frequency is not 0. DESIGN
CHOICE: it is a whole number of hertz, which R8 does not say. Log entry 6. -/
opaque clkHzLessOne : Nat

/-- `CLK_HZ`, the CFE's clock frequency in Hz: OPEN (R8). That it is at least 1 (DEDUCED) and a whole number
of hertz (DESIGN CHOICE: R8 calls only `SETTLE_CYCLES` an integer) is the model's: log entry 6. -/
def clkHz : Nat := clkHzLessOne + 1

/-- The least value R8 allows `SETTLE_CYCLES`: `ceil(SETTLE_MS * CLK_HZ / 1000)`. -/
def minSettleCycles : Nat := (settleMs * clkHz + 999) / 1000

/-- How far the implementation's `SETTLE_CYCLES` lies above its least value; OPEN (R8; 92 D15). Log entry 6. -/
opaque settleMargin : Nat

/-- `SETTLE_CYCLES`: OPEN, constrained to `>= ceil(SETTLE_MS * CLK_HZ / 1000)` (R8). -/
def settleCycles : Nat := minSettleCycles + settleMargin

/-- The bit of `PM_REVERSE`: OPEN (R8; 92 D29). The PM parameters are used only by the assembler. Log entry 6. -/
opaque pmReverseBit : Fin 8
/-- The bit of `PM_UPDOWN`: OPEN (R8). -/
opaque pmUpdownBit : Fin 8
/-- The bit of `PM_EMPHASIZED`: OPEN (R8). -/
opaque pmEmphasizedBit : Fin 8
/-- The bit of `PM_DOUBLE_HEIGHT`: OPEN (R8). -/
opaque pmDoubleHeightBit : Fin 8
/-- The bit of `PM_DOUBLE_WIDTH`: OPEN (R8). -/
opaque pmDoubleWidthBit : Fin 8
/-- The bit of `PM_DELETE_LINE`: OPEN (R8). -/
opaque pmDeleteLineBit : Fin 8

end Sys2Proof.Config
end

