-- ==== Sys2Proof/Machine/State.lean ====
section
/-! DEFINITION. The state of the CFE and of the agents around it (10_state.md; 00_scope.md R6), as plain
data. The first group of fields is the CFE's own state (R22 to R38, reset values R42); the second is
what drives its inputs; the third is what is observed of it (R7). The CFE has no general registers, no
program counter and no memory (R20, R21, R60). -/

namespace Sys2Proof.Machine

/-- `init_state` (R22): UNINIT (0), READY (1), WIRING_ERROR (2); encoding 3 is not representable. -/
inductive InitState where
  | uninit
  | ready
  | wiringError
deriving DecidableEq, Repr

/-- `phase` (R23). -/
inductive Phase where
  | idle
  | emit
  | settle
  | strWait
deriving DecidableEq, Repr

/-- `post` (R30): what follows the last byte of a sequence. -/
inductive Post where
  | none
  | settle
deriving DecidableEq, Repr

/-- One move of the host (R11, R414): an access to the register window, or a cycle without one. -/
inductive HostAction where
  /-- The host issues no access in this cycle. -/
  | wait
  /-- `MemRead(offset, bytes)`. -/
  | read (offset bytes : Nat)
  /-- `MemWrite(offset, bytes, value)`. -/
  | write (offset bytes : Nat) (value : Word)
deriving DecidableEq, Repr

/-- What the host gets back for an access. -/
inductive Response where
  /-- The OKAY response to a write (R129). -/
  | okay
  /-- The value of a read register. -/
  | value (v : Word)
  /-- The bus error response (R62). -/
  | busError
  /-- The access lies beyond offset 0x13: the platform's bus answers it, with no value of the CFE's (R61). -/
  | platform
deriving DecidableEq, Repr

/-- The events of 60_exceptions.md R400. `notReady` carries no word: R403 says it is not recorded (log
entry 7). -/
inductive Event where
  | wiringMismatch (pin : Byte)
  | paramRejected (op : Byte)
  | illegalOp (op : Byte)
  | notReady
  | busError
deriving DecidableEq, Repr

/-- A byte of the wire trace with the clock cycle of its acceptance (R7). -/
structure WireByte where
  byte  : Byte
  cycle : Nat
deriving DecidableEq, Repr

/-- One event received by the Diagnostic sink (R38). -/
structure Diag where
  sev  : BitVec 2
  code : Byte
deriving DecidableEq, Repr

/-- The levels of the CFE's two input pins in one clock cycle: the reset input (R450) and the
Transport's `tx_ready` (R36). -/
structure Pins where
  reset   : Bool
  txReady : Bool
deriving DecidableEq, Repr

structure State where
  /-- `init_state` (R22). -/
  initState : InitState
  /-- `phase` (R23). -/
  phase : Phase
  /-- CTRL.RX_PIN (R24). -/
  rxPin : Byte
  /-- STATUS.ILLEGAL_OP, sticky (R25). -/
  illegalOp : Bool
  /-- STATUS.NOT_READY, sticky (R25). -/
  notReady : Bool
  /-- `seq_buf[0..4]` (R30). -/
  seqBuf : Vector Byte 5
  /-- `seq_len`, 0 to 5 (R30). -/
  seqLen : Fin 6
  /-- `seq_idx`, 0 to 5 (R30). -/
  seqIdx : Fin 6
  /-- `post` (R30). -/
  post : Post
  /-- `str_mode` (R31), STATUS.STR_ACTIVE. -/
  strMode : Bool
  /-- `str_remaining` (R31), STRCNT. -/
  strRemaining : StrLen
  /-- `settle_cnt` (R32), wide enough for any `SETTLE_CYCLES`. -/
  settleCnt : Nat
  /-- `pending` (R34). -/
  pending : Bool
  /-- `line_configured` (R35), LINECFG.CONFIGURED. -/
  lineConfigured : Bool
  /-- `pin_bound` (R35), LINECFG.PIN_BOUND, the output `pin_bind_en` (R37). -/
  pinBound : Bool
  /-- The output `pin_bind_pin` (R37). -/
  pinBindPin : Byte
  /-- The output `pin_bind_func` (R37). -/
  pinBindFunc : Nat
  /-- The one-cycle output `diag_valid` (R38). -/
  diagValid : Bool
  /-- The output `diag_sev` (R38). -/
  diagSev : BitVec 2
  /-- The output `diag_code` (R38). -/
  diagCode : Byte
  /-- The level of the reset input in this cycle (R450). -/
  resetIn : Bool
  /-- The level of the Transport's `tx_ready` in this cycle (R36). -/
  txReady : Bool
  /-- The pins' levels in the cycles to come; when the list has run out they keep their level. -/
  inputs : List Pins
  /-- The host's moves to come, the next one first (R414). -/
  host : List HostAction
  /-- The number of the current clock cycle (R7). -/
  cycle : Nat
  /-- The wire trace, oldest byte first (R7). -/
  wire : List WireByte
  /-- The diagnostic events, oldest first (R7). -/
  diagLog : List Diag
  /-- The responses the host has received, oldest first (R7). -/
  responses : List Response
  /-- The event history, oldest first (R400; the ghost ParamRejected of R133 among them). -/
  events : List Event
deriving DecidableEq, Repr

/-- Why the machine stops with a fault. -/
inductive Fault where
  /-- Raised by a step in EMIT with `seq_idx >= seq_len`: there is no byte to offer. R41 (3) says no run
  reaches such a state and the spec gives it no effect. SAFE: the model stops. Log entry 10. -/
  | sequenceOverrun
deriving DecidableEq, Repr

/-- Why the model gives no meaning. -/
inductive Refusal where
  /-- Raised by `exec` for an instruction that has no meaning yet. SAFE: the model stops. -/
  | notModelled (mnemonic : String)
  /-- Raised by a meaning run while `pending = 1`: the single host issues no access then
  (93_implementation_defined.md item 23: refuse). SAFE: the model stops, and `step` never does it. Log
  entry 9. -/
  | accessWhilePending
deriving DecidableEq, Repr

/-- The machine right after reset (R42, R450), with nothing observed, no host move and no scheduled
input. `seqBuf`, `pinBindPin`, `pinBindFunc`, `diagSev` and `diagCode` are unspecified at reset: 0 is a
DESIGN CHOICE (log entry 3). `txReady` is the Transport's: true is a DESIGN CHOICE (log entry 4). -/
def State.reset : State where
  initState := .uninit
  phase := .idle
  rxPin := 0
  illegalOp := false
  notReady := false
  seqBuf := #v[0, 0, 0, 0, 0]
  seqLen := 0
  seqIdx := 0
  post := .none
  strMode := false
  strRemaining := 0
  settleCnt := 0
  pending := false
  lineConfigured := false
  pinBound := false
  pinBindPin := 0
  pinBindFunc := 0
  diagValid := false
  diagSev := 0
  diagCode := 0
  resetIn := false
  txReady := true
  inputs := []
  host := []
  cycle := 0
  wire := []
  diagLog := []
  responses := []
  events := []

end Sys2Proof.Machine
end

