-- ==== Sys2Proof/Machine/Operands.lean ====
section
/-! DEFINITION. The operands: the parameter-validation bit-checker (42_validator.md) and the loading of a
sequence's bytes (40_sequencer.md R125). -/

namespace Sys2Proof.Machine

/-- `validAlignment(v)`, bit form (R180): true for 0x30, 0x31, 0x32. -/
def validAlignment (v : Byte) : Bool :=
  v.extractLsb' 2 6 == 0b001100#6 && !(v.getLsbD 1 && v.getLsbD 0)

/-- `validUnderline(v)`, bit form (R181): true for 0x00, 0x01, 0x02. -/
def validUnderline (v : Byte) : Bool :=
  v.extractLsb' 2 6 == 0b000000#6 && !(v.getLsbD 1 && v.getLsbD 0)

/-- `validIndent(n)`, bit form (R182): true for 0 to 47. -/
def validIndent (n : Byte) : Bool :=
  n.extractLsb' 6 2 == 0b00#2 && !(n.getLsbD 5 && n.getLsbD 4)

/-- `validHeatingTime(t)`, bit form (R183): true for 3 to 255. -/
def validHeatingTime (t : Byte) : Bool :=
  t.extractLsb' 2 6 != 0b000000#6 || (t.getLsbD 1 && t.getLsbD 0)

/-- `Check(vclass, a0, a1)` (R184). -/
def check (c : VClass) (x y : Byte) : Bool :=
  match c with
  | .none => true
  | .align => validAlignment x
  | .indent => validIndent x
  | .underline => validUnderline x
  | .heat => validHeatingTime y

/-- `seq_buf` after the load of `seq`: the entries above the sequence keep their stale values (R30). -/
def loadBuf (seq : List Byte) (old : Vector Byte 5) : Vector Byte 5 :=
  #v[seq.getD 0 old[0], seq.getD 1 old[1], seq.getD 2 old[2], seq.getD 3 old[3], seq.getD 4 old[4]]

/-- `seq_len` after the load of `seq` (R125): every sequence has 1 to 5 bytes. -/
def seqLength (seq : List Byte) : Fin 6 := Fin.ofNat 6 seq.length

end Sys2Proof.Machine
end

