-- ==== Sys2Proof/Machine/Flags.lean ====
section
/-! DEFINITION. The host-visible registers and the output pins as views of the state (10_state.md R22 to
R29, R36 to R38), and the sticky flags of STATUS (R26). -/

namespace Sys2Proof.Machine

/-- STATUS.STATE: the encoding of `init_state` (R22, R25). -/
def InitState.code : InitState → BitVec 2
  | .uninit => 0
  | .ready => 1
  | .wiringError => 2

/-- STATUS.BUSY: `phase` is EMIT or SETTLE (R25). -/
def busy (s : State) : Bool := s.phase == .emit || s.phase == .settle

/-- STATUS.SETTLE: `phase` is SETTLE (R25). -/
def settling (s : State) : Bool := s.phase == .settle

/-- A one-bit field at bit `k` of a register. -/
def flagBit (k : Nat) (b : Bool) : Word := zext (BitVec.ofBool b) <<< k

/-- The value a read of STATUS gives (R25): the reserved bits read 0. -/
def statusWord (s : State) : Word :=
  zext s.initState.code ||| flagBit 2 (busy s) ||| flagBit 3 (settling s) ||| flagBit 4 s.strMode
    ||| flagBit 8 s.illegalOp ||| flagBit 9 s.notReady

/-- The value a read of CTRL gives (R24): INIT and the reserved bits read 0. -/
def ctrlWord (s : State) : Word := zext s.rxPin

/-- The framing fields BAUD, DATA_BITS, PARITY and STOP_BITS of LINECFG (R27). -/
def framingBits : Word :=
  zext Config.baud <<< 12 ||| zext Config.dataBits <<< 8 ||| zext Config.parity <<< 4 ||| zext Config.stopBits <<< 2

/-- The value a read of LINECFG gives (R27, R35). -/
def linecfgWord (s : State) : Word :=
  (if s.lineConfigured then framingBits else 0) ||| flagBit 1 s.pinBound ||| flagBit 0 s.lineConfigured

/-- The value a read of STRCNT gives (R28). -/
def strcntWord (s : State) : Word := zext s.strRemaining

/-- The value a read of a register gives: CMD reads 0 (R29), the others their fields. -/
def regValue (r : RegName) (s : State) : Word :=
  match r with
  | .cmd => 0
  | .ctrl => ctrlWord s
  | .status => statusWord s
  | .linecfg => linecfgWord s
  | .strcnt => strcntWord s

/-- A write of `v` to STATUS (R26): each sticky bit whose bit in `v` is 1 is cleared. -/
def clearSticky (v : Word) (s : State) : State :=
  { s with
    illegalOp := s.illegalOp && !v.getLsbD 8
    notReady := s.notReady && !v.getLsbD 9 }

/-- STATUS.ILLEGAL_OP <- 1 (R402). -/
def setIllegalOp (s : State) : State := { s with illegalOp := true }

/-- STATUS.NOT_READY <- 1 (R403). -/
def setNotReady (s : State) : State := { s with notReady := true }

/-- The output `tx_valid` (R36): 1 exactly when `phase = EMIT`. -/
def txValid (s : State) : Bool := s.phase == .emit

/-- The byte offered to the Transport, `seq_buf[seq_idx]` (R36); none where no byte is offered: the
level of `tx_data` is then unspecified (93 item 13). -/
def txData (s : State) : Option Byte :=
  if txValid s && s.seqIdx.val < s.seqLen.val then s.seqBuf[s.seqIdx.val]? else none

/-- The output `pin_bind_en` (R37). -/
def pinBindEn (s : State) : Bool := s.pinBound

/-- The outputs `pin_bind_pin` and `pin_bind_func` while `pin_bind_en = 1` (R37); none otherwise. -/
def pinBinding (s : State) : Option (Byte × Nat) :=
  if pinBindEn s then some (s.pinBindPin, s.pinBindFunc) else none

/-- The output `uart_cfg`: baud, data bits, parity and stop bits, valid while `line_configured = 1` (R37). -/
def uartCfg (s : State) : Option (BitVec 20 × BitVec 4 × BitVec 2 × BitVec 2) :=
  if s.lineConfigured then some (Config.baud, Config.dataBits, Config.parity, Config.stopBits) else none

/-- The diagnostic outputs while `diag_valid = 1` (R38); none otherwise. -/
def diagOut (s : State) : Option Diag :=
  if s.diagValid then some { sev := s.diagSev, code := s.diagCode } else none

end Sys2Proof.Machine
end

