-- ==== Sys2Proof/Machine/Ops.lean ====
section
/-! DEFINITION. The shared operations of the Engine (40_sequencer.md, 41_init.md, 46_string.md) and the
raising of an event (60_exceptions.md), the one operation that takes the place of an exception's entry:
an event saves no context and goes nowhere (R408), and there is no return from one (R409). -/

namespace Sys2Proof.Machine

/-- The outcomes of a step of this machine. -/
abbrev Result := Host.Outcome State Fault Refusal

/-- What follows a step's own effect, applied to its next state only. -/
def andThen (r : Result) (f : State → State) : Result :=
  match r with
  | .next s => .next (f s)
  | .fault e => .fault e
  | .refused e => .refused e

/-- Send the host the response `r` to its access. -/
def respond (r : Response) (s : State) : State := { s with responses := s.responses ++ [r] }

/-- `Complete()` (R129): `pending <- 0` and the OKAY response to the outstanding CMD write. -/
def complete (s : State) : State := respond .okay { s with pending := false }

/-- `Report(sev, code)` (R11, R38): one event on the diagnostic outputs and to the Diagnostic sink. -/
def report (sev : BitVec 2) (code : Byte) (s : State) : State :=
  { s with
    diagValid := true
    diagSev := sev
    diagCode := code
    diagLog := s.diagLog ++ [{ sev := sev, code := code }] }

/-- The effect of an event on the CFE (R400 to R405): severity 2 (ERROR) and code 0x01 for the wiring
mismatch (R164), a sticky flag for a reserved code and for a command before READY, nothing else. -/
def eventEffect (e : Event) (s : State) : State :=
  match e with
  | .wiringMismatch _ => report 2 0x01 { s with initState := .wiringError }
  | .paramRejected _ => s
  | .illegalOp _ => setIllegalOp s
  | .notReady => setNotReady s
  | .busError => s

/-- `raise <Event>(info)` (R11): the event's effect, and its entry in the event history. -/
def raise (e : Event) (s : State) : State :=
  eventEffect e { s with events := s.events ++ [e] }

/-- A CMD write dropped with the event `e`: it emits no byte and completes at once (R122 to R124). -/
def drop (e : Event) (s : State) : State := complete (raise e s)

/-- `LoadSequence` (R125) of the bytes `seq`. -/
def loadSequence (seq : List Byte) (post : Post) (s : State) : State :=
  { s with
    seqBuf := loadBuf seq s.seqBuf
    seqLen := seqLength seq
    seqIdx := 0
    post := post
    pending := true
    phase := .emit }

/-- `StringStart(L)` (R340). -/
def stringStart (len : StrLen) (s : State) : State :=
  if len = 0 then loadSequence [0x0A] .none s
  else complete { s with strMode := true, strRemaining := len, phase := .strWait }

/-- `StringPayload(b)` (R341). The counter's arithmetic is modulo 2^24 (R10). -/
def stringPayload (b : Byte) (s : State) : State :=
  let r := s.strRemaining - 1
  loadSequence (if r = 0 then [b, 0x0A] else [b]) .none { s with strRemaining := r }

/-- `AcceptCmd` (R120, R121) for a CMD write whose low byte is `op`: the tests that stand before the
command's own effect `go`, in the order of R121. It is enabled only while `pending = 0`; `pass` is the
outcome of the command's check (R124). -/
def acceptCommand (op : Byte) (pass : Bool) (go : State → State) (s : State) : Result :=
  if s.pending then .refused .accessWhilePending
  else .next (
    if s.initState ≠ .ready then drop .notReady s
    else if s.phase = .strWait then stringPayload op s
    else if pass then go s
    else drop (.paramRejected op) s)

/-- `Emit(b)` (R11): the Transport accepts the byte in this cycle. -/
def emit (b : Byte) (s : State) : State :=
  { s with wire := s.wire ++ [{ byte := b, cycle := s.cycle }] }

/-- `Finish()` (R127). -/
def finish (s : State) : State :=
  if s.post = .settle then { s with settleCnt := Config.settleCycles, phase := .settle }
  else if s.strMode = true ∧ s.strRemaining ≠ 0 then complete { s with phase := .strWait }
  else complete { s with strMode := false, phase := .idle }

/-- `EmitStep` (R126) of the offered byte `b`. -/
def emitStep (b : Byte) (s : State) : State :=
  let i := s.seqIdx + 1
  let t := { emit b s with seqIdx := i }
  if i = s.seqLen then finish t else t

/-- A cycle in EMIT: `EmitStep` if the Transport accepts the offered byte; if it does not, the offer is
held and no Engine step is enabled (R36, R126, R410). -/
def emitCycle (s : State) : Result :=
  match txData s with
  | some b => .next (if s.txReady then emitStep b s else s)
  | none => .fault .sequenceOverrun

/-- A cycle in SETTLE (R128): the timer counts down, and when it reaches 0 the WAKE completes. -/
def settleCycle (s : State) : State :=
  let n := s.settleCnt - 1
  if n = 0 then complete { s with settleCnt := 0, post := .none, phase := .idle }
  else { s with settleCnt := n }

/-- CTRL.RX_PIN <- pin (R160, R165). -/
def setPin (pin : Byte) (s : State) : State := { s with rxPin := pin }

/-- The match path (R161): bind the pin, configure the line, enter READY. -/
def bindAndConfigure (pin : Byte) (s : State) : State :=
  { s with
    pinBound := true
    pinBindPin := pin
    pinBindFunc := Config.rxAltFunc
    lineConfigured := true
    initState := .ready }

/-- The INIT operation (R160 to R163): the pin of the same write is compared, only in UNINIT. -/
def initOperation (pin : Byte) (s : State) : State :=
  if s.initState = .uninit then
    if pin = Config.requiredRxPin then bindAndConfigure pin (setPin pin s)
    else raise (.wiringMismatch pin) (setPin pin s)
  else setPin pin s

/-- A host access that completes in its own step, with the response `r`; the host issues none while its
CMD write is pending (R34). -/
def immediate (r : Response) (go : State → State) (s : State) : Result :=
  if s.pending then .refused .accessWhilePending else .next (respond r (go s))

/-- The reset input (R450): every state element of the CFE takes its reset value. The inputs, the host's
moves and what has been observed are not the CFE's and stay (R451). -/
def resetEngine (s : State) : State :=
  { State.reset with
    resetIn := s.resetIn
    txReady := s.txReady
    inputs := s.inputs
    host := s.host
    cycle := s.cycle
    wire := s.wire
    diagLog := s.diagLog
    responses := s.responses
    events := s.events }

/-- The start of a cycle: `diag_valid` is high for one cycle only (R38). -/
def beginCycle (s : State) : State := { s with diagValid := false }

/-- The end of a cycle: the clock advances and the input pins take their next levels. -/
def endCycle (s : State) : State :=
  match s.inputs with
  | [] => { s with cycle := s.cycle + 1 }
  | p :: ps => { s with cycle := s.cycle + 1, resetIn := p.reset, txReady := p.txReady, inputs := ps }

end Sys2Proof.Machine
end

