-- ==== Sys2Proof/Machine/CharFormat.lean ====
section
/-! DEFINITION. The character format commands (44_character_format.md): the meaning of each is
`AcceptCmd` (R121) with the command's own check and bytes. -/

namespace Sys2Proof.Machine

/-- PRINT_MODE (R240): wire `1B 21 bits`. -/
def execPrintMode (bits : Byte) (s : State) : Result :=
  acceptCommand 0x0B true (loadSequence [0x1B, 0x21, bits] .none) s

/-- ENLARGE (R241): wire `1D 21 bits`. -/
def execEnlarge (bits : Byte) (s : State) : Result :=
  acceptCommand 0x0C true (loadSequence [0x1D, 0x21, bits] .none) s

/-- BOLD_ON (R242): wire `1B 45 01`. -/
def execBoldOn (s : State) : Result :=
  acceptCommand 0x0D true (loadSequence [0x1B, 0x45, 0x01] .none) s

/-- BOLD_OFF (R243): wire `1B 45 00`. -/
def execBoldOff (s : State) : Result :=
  acceptCommand 0x0E true (loadSequence [0x1B, 0x45, 0x00] .none) s

/-- DOUBLE_WIDTH_ON (R244): wire `1B 0E`. -/
def execDoubleWidthOn (s : State) : Result :=
  acceptCommand 0x0F true (loadSequence [0x1B, 0x0E] .none) s

/-- DOUBLE_WIDTH_OFF (R245): wire `1B 14`. -/
def execDoubleWidthOff (s : State) : Result :=
  acceptCommand 0x10 true (loadSequence [0x1B, 0x14] .none) s

/-- UPDOWN_ON (R246): wire `1B 7B 01`. -/
def execUpdownOn (s : State) : Result :=
  acceptCommand 0x11 true (loadSequence [0x1B, 0x7B, 0x01] .none) s

/-- UPDOWN_OFF (R247): wire `1B 7B 00`. -/
def execUpdownOff (s : State) : Result :=
  acceptCommand 0x12 true (loadSequence [0x1B, 0x7B, 0x00] .none) s

/-- REVERSE_ON (R248): wire `1D 42 01`. -/
def execReverseOn (s : State) : Result :=
  acceptCommand 0x13 true (loadSequence [0x1D, 0x42, 0x01] .none) s

/-- REVERSE_OFF (R249): wire `1D 42 00`. -/
def execReverseOff (s : State) : Result :=
  acceptCommand 0x14 true (loadSequence [0x1D, 0x42, 0x00] .none) s

/-- UNDERLINE (R250): wire `1B 2D mode`; nothing if the check fails (R124). -/
def execUnderline (mode : Byte) (s : State) : Result :=
  acceptCommand 0x15 (validUnderline mode) (loadSequence [0x1B, 0x2D, mode] .none) s

/-- USER_CHARS_ON (R251): wire `1B 25 01`. -/
def execUserCharsOn (s : State) : Result :=
  acceptCommand 0x16 true (loadSequence [0x1B, 0x25, 0x01] .none) s

/-- USER_CHARS_OFF (R252): wire `1B 25 00`. -/
def execUserCharsOff (s : State) : Result :=
  acceptCommand 0x17 true (loadSequence [0x1B, 0x25, 0x00] .none) s

/-- CHARSET (R253): wire `1B 52 cs`. -/
def execCharset (cs : Byte) (s : State) : Result :=
  acceptCommand 0x18 true (loadSequence [0x1B, 0x52, cs] .none) s

/-- CODE_TABLE (R254): wire `1B 74 ct`. -/
def execCodeTable (ct : Byte) (s : State) : Result :=
  acceptCommand 0x19 true (loadSequence [0x1B, 0x74, ct] .none) s

end Sys2Proof.Machine
end

