-- ==== Sys2Proof/Machine/DeviceControl.lean ====
section
/-! DEFINITION. The device control commands (45_device_control.md): the meaning of each is
`AcceptCmd` (R121) with the command's own check and bytes. -/

namespace Sys2Proof.Machine

/-- ONLINE (R290): wire `1B 3D 01`. -/
def execOnline (s : State) : Result :=
  acceptCommand 0x05 true (loadSequence [0x1B, 0x3D, 0x01] .none) s

/-- OFFLINE (R291): wire `1B 3D 00`. -/
def execOffline (s : State) : Result :=
  acceptCommand 0x06 true (loadSequence [0x1B, 0x3D, 0x00] .none) s

/-- PANEL_KEY_ENABLE (R292): wire `1B 63 35 00`. -/
def execPanelKeyEnable (s : State) : Result :=
  acceptCommand 0x1A true (loadSequence [0x1B, 0x63, 0x35, 0x00] .none) s

/-- PANEL_KEY_DISABLE (R293): wire `1B 63 35 01`. -/
def execPanelKeyDisable (s : State) : Result :=
  acceptCommand 0x1B true (loadSequence [0x1B, 0x63, 0x35, 0x01] .none) s

/-- RESET (R294): wire `1B 40`. -/
def execReset (s : State) : Result :=
  acceptCommand 0x1C true (loadSequence [0x1B, 0x40] .none) s

/-- TRANSMIT_STATUS (R295): wire `1B 76 00`. -/
def execTransmitStatus (s : State) : Result :=
  acceptCommand 0x1D true (loadSequence [0x1B, 0x76, 0x00] .none) s

/-- AUTO_STATUS_BACK (R296): wire `1D 61 mode`. -/
def execAutoStatusBack (mode : Byte) (s : State) : Result :=
  acceptCommand 0x1E true (loadSequence [0x1D, 0x61, mode] .none) s

/-- PRINT_SETTINGS (R297): wire `1B 37 dots heat interval`; nothing if the check fails (R124). -/
def execPrintSettings (dots heat interval : Byte) (s : State) : Result :=
  acceptCommand 0x1F (validHeatingTime heat) (loadSequence [0x1B, 0x37, dots, heat, interval] .none) s

/-- SLEEP (R298): wire `1B 38 n`. -/
def execSleep (n : Byte) (s : State) : Result :=
  acceptCommand 0x20 true (loadSequence [0x1B, 0x38, n] .none) s

/-- DENSITY (R299): wire `12 23 level`. -/
def execDensity (level : Byte) (s : State) : Result :=
  acceptCommand 0x21 true (loadSequence [0x12, 0x23, level] .none) s

/-- TEST_PAGE (R300): wire `12 54`. -/
def execTestPage (s : State) : Result :=
  acceptCommand 0x22 true (loadSequence [0x12, 0x54] .none) s

/-- WAKE (R301): wire `FF`; the settle window follows the byte (R127, R128). -/
def execWake (s : State) : Result :=
  acceptCommand 0x23 true (loadSequence [0xFF] .settle) s

end Sys2Proof.Machine
end

