-- ==== Sys2Proof/Machine/FeedLayout.lean ====
section
/-! DEFINITION. The paper feed and layout commands (43_feed_layout.md): the meaning of each is
`AcceptCmd` (R121) with the command's own check and bytes. -/

namespace Sys2Proof.Machine

/-- LF (R200): wire `0A`. -/
def execLf (s : State) : Result :=
  acceptCommand 0x01 true (loadSequence [0x0A] .none) s

/-- TAB (R201): wire `09`. -/
def execTab (s : State) : Result :=
  acceptCommand 0x02 true (loadSequence [0x09] .none) s

/-- FEED_DOTS (R202): wire `1B 4A n`. -/
def execFeedDots (n : Byte) (s : State) : Result :=
  acceptCommand 0x03 true (loadSequence [0x1B, 0x4A, n] .none) s

/-- FEED_LINES (R203): wire `1B 64 n`. -/
def execFeedLines (n : Byte) (s : State) : Result :=
  acceptCommand 0x04 true (loadSequence [0x1B, 0x64, n] .none) s

/-- LINE_SPACING_DEFAULT (R204): wire `1B 32`. -/
def execLineSpacingDefault (s : State) : Result :=
  acceptCommand 0x07 true (loadSequence [0x1B, 0x32] .none) s

/-- LINE_SPACING (R205): wire `1B 33 n`. -/
def execLineSpacing (n : Byte) (s : State) : Result :=
  acceptCommand 0x08 true (loadSequence [0x1B, 0x33, n] .none) s

/-- ALIGN (R206): wire `1B 61 mode`; nothing if the check fails (R124). -/
def execAlign (mode : Byte) (s : State) : Result :=
  acceptCommand 0x09 (validAlignment mode) (loadSequence [0x1B, 0x61, mode] .none) s

/-- INDENT (R207): wire `1B 42 n`; nothing if the check fails (R124). -/
def execIndent (n : Byte) (s : State) : Result :=
  acceptCommand 0x0A (validIndent n) (loadSequence [0x1B, 0x42, n] .none) s

end Sys2Proof.Machine
end

