-- ==== Sys2Proof/Machine/Init.lean ====
section
/-! DEFINITION. The initialization sequencer (41_init.md). -/

namespace Sys2Proof.Machine

/-- INIT pin (R160 to R163): the write completes in the same step and emits no byte. -/
def execInit (pin : Byte) (s : State) : Result :=
  immediate .okay (initOperation pin) s

end Sys2Proof.Machine
end

