-- ==== Sys2Proof/Machine/Rom.lean ====
section
/-! DEFINITION. The opcode ROM (10_state.md R33, 30_encoding.md R97) and the generator driven by it
(40_sequencer.md R121): what a CMD write does, from the table alone. -/

namespace Sys2Proof.Machine

/-- A valid entry of kind SEQ. -/
def romSeq (lead : List Byte) (nargs : Nat) (vclass : VClass) : RomEntry :=
  { valid := true, lead := lead, nargs := nargs, vclass := vclass, kind := .seq }

/-- The contents of the ROM (R97); every other entry is a reserved code (R98). R33 and R97 give the 220
reserved entries `valid` = 0 and nothing else. DESIGN CHOICE (log entry 26): their other fields are `[]`, 0,
NONE and SEQ; what a CMD write does never reads them, since R121 tests `valid` first. -/
def rom (op : Byte) : RomEntry :=
  match op.toNat with
  | 0x01 => romSeq [0x0A] 0 .none
  | 0x02 => romSeq [0x09] 0 .none
  | 0x03 => romSeq [0x1B, 0x4A] 1 .none
  | 0x04 => romSeq [0x1B, 0x64] 1 .none
  | 0x05 => romSeq [0x1B, 0x3D, 0x01] 0 .none
  | 0x06 => romSeq [0x1B, 0x3D, 0x00] 0 .none
  | 0x07 => romSeq [0x1B, 0x32] 0 .none
  | 0x08 => romSeq [0x1B, 0x33] 1 .none
  | 0x09 => romSeq [0x1B, 0x61] 1 .align
  | 0x0A => romSeq [0x1B, 0x42] 1 .indent
  | 0x0B => romSeq [0x1B, 0x21] 1 .none
  | 0x0C => romSeq [0x1D, 0x21] 1 .none
  | 0x0D => romSeq [0x1B, 0x45, 0x01] 0 .none
  | 0x0E => romSeq [0x1B, 0x45, 0x00] 0 .none
  | 0x0F => romSeq [0x1B, 0x0E] 0 .none
  | 0x10 => romSeq [0x1B, 0x14] 0 .none
  | 0x11 => romSeq [0x1B, 0x7B, 0x01] 0 .none
  | 0x12 => romSeq [0x1B, 0x7B, 0x00] 0 .none
  | 0x13 => romSeq [0x1D, 0x42, 0x01] 0 .none
  | 0x14 => romSeq [0x1D, 0x42, 0x00] 0 .none
  | 0x15 => romSeq [0x1B, 0x2D] 1 .underline
  | 0x16 => romSeq [0x1B, 0x25, 0x01] 0 .none
  | 0x17 => romSeq [0x1B, 0x25, 0x00] 0 .none
  | 0x18 => romSeq [0x1B, 0x52] 1 .none
  | 0x19 => romSeq [0x1B, 0x74] 1 .none
  | 0x1A => romSeq [0x1B, 0x63, 0x35, 0x00] 0 .none
  | 0x1B => romSeq [0x1B, 0x63, 0x35, 0x01] 0 .none
  | 0x1C => romSeq [0x1B, 0x40] 0 .none
  | 0x1D => romSeq [0x1B, 0x76, 0x00] 0 .none
  | 0x1E => romSeq [0x1D, 0x61] 1 .none
  | 0x1F => romSeq [0x1B, 0x37] 3 .heat
  | 0x20 => romSeq [0x1B, 0x38] 1 .none
  | 0x21 => romSeq [0x12, 0x23] 1 .none
  | 0x22 => romSeq [0x12, 0x54] 0 .none
  | 0x23 => { valid := true, lead := [0xFF], nargs := 0, vclass := .none, kind := .wake }
  | 0x24 => { valid := true, lead := [], nargs := 0, vclass := .none, kind := .string }
  | _ => { valid := false, lead := [], nargs := 0, vclass := .none, kind := .seq }

/-- The argument fields of a word in the order A0, A1, A2 (R92). -/
def argBytes (w : Word) : List Byte := [a0 w, a1 w, a2 w]

/-- The bytes of an accepted command (R92, R125): the fixed bytes, then the used argument fields. -/
def romSequence (e : RomEntry) (w : Word) : List Byte := e.lead ++ (argBytes w).take e.nargs

/-- `post` for an entry (R125). -/
def romPost (e : RomEntry) : Post := if e.kind = .wake then .settle else .none

/-- The part of R121 that reads the ROM: reserved code, check, string start, sequence load. -/
def romDispatch (w : Word) (s : State) : State :=
  let e := rom (opField w)
  if e.valid = false then drop (.illegalOp (opField w)) s
  else if check e.vclass (a0 w) (a1 w) = false then drop (.paramRejected (opField w)) s
  else if e.kind = .string then stringStart (lenField w) s
  else loadSequence (romSequence e w) (romPost e) s

end Sys2Proof.Machine
end

