-- ==== Sys2Proof/Machine/Strings.lean ====
section
/-! DEFINITION. String printing (46_string.md): the header WRITE_STRING and the payload word DATA. -/

namespace Sys2Proof.Machine

/-- WRITE_STRING L (R340): with L = 0 the wire byte `0A`; with L > 0 no byte, and L payload words follow. -/
def execWriteString (len : StrLen) (s : State) : Result :=
  acceptCommand 0x24 true (stringStart len) s

/-- DATA b (R341): in STR_WAIT the character `b`, and `0A` after the last one. Written while
`phase = IDLE` the same word is a command word (R96), which the ROM decides. -/
def execData (b : Byte) (s : State) : Result :=
  acceptCommand b true (romDispatch (zext b)) s

end Sys2Proof.Machine
end

