-- ==== Sys2Proof/Machine/Dispatch.lean ====
section
/-! DEFINITION. The dispatch: one arm per instruction. -/

namespace Sys2Proof.Machine

def exec (i : Instr) (s : State) : Host.Outcome State Fault Refusal :=
  match i with
  | .lf => Sys2Proof.Machine.execLf s
  | .tab => Sys2Proof.Machine.execTab s
  | .feedDots n => Sys2Proof.Machine.execFeedDots n s
  | .feedLines n => Sys2Proof.Machine.execFeedLines n s
  | .online => Sys2Proof.Machine.execOnline s
  | .offline => Sys2Proof.Machine.execOffline s
  | .lineSpacingDefault => Sys2Proof.Machine.execLineSpacingDefault s
  | .lineSpacing n => Sys2Proof.Machine.execLineSpacing n s
  | .align mode => Sys2Proof.Machine.execAlign mode s
  | .indent n => Sys2Proof.Machine.execIndent n s
  | .printMode bits => Sys2Proof.Machine.execPrintMode bits s
  | .enlarge bits => Sys2Proof.Machine.execEnlarge bits s
  | .boldOn => Sys2Proof.Machine.execBoldOn s
  | .boldOff => Sys2Proof.Machine.execBoldOff s
  | .doubleWidthOn => Sys2Proof.Machine.execDoubleWidthOn s
  | .doubleWidthOff => Sys2Proof.Machine.execDoubleWidthOff s
  | .updownOn => Sys2Proof.Machine.execUpdownOn s
  | .updownOff => Sys2Proof.Machine.execUpdownOff s
  | .reverseOn => Sys2Proof.Machine.execReverseOn s
  | .reverseOff => Sys2Proof.Machine.execReverseOff s
  | .underline mode => Sys2Proof.Machine.execUnderline mode s
  | .userCharsOn => Sys2Proof.Machine.execUserCharsOn s
  | .userCharsOff => Sys2Proof.Machine.execUserCharsOff s
  | .charset cs => Sys2Proof.Machine.execCharset cs s
  | .codeTable ct => Sys2Proof.Machine.execCodeTable ct s
  | .panelKeyEnable => Sys2Proof.Machine.execPanelKeyEnable s
  | .panelKeyDisable => Sys2Proof.Machine.execPanelKeyDisable s
  | .reset => Sys2Proof.Machine.execReset s
  | .transmitStatus => Sys2Proof.Machine.execTransmitStatus s
  | .autoStatusBack mode => Sys2Proof.Machine.execAutoStatusBack mode s
  | .printSettings dots heat interval => Sys2Proof.Machine.execPrintSettings dots heat interval s
  | .sleep n => Sys2Proof.Machine.execSleep n s
  | .density level => Sys2Proof.Machine.execDensity level s
  | .testPage => Sys2Proof.Machine.execTestPage s
  | .wake => Sys2Proof.Machine.execWake s
  | .writeString len => Sys2Proof.Machine.execWriteString len s
  | .data b => Sys2Proof.Machine.execData b s
  | .init pin => Sys2Proof.Machine.execInit pin s

end Sys2Proof.Machine
end

