-- ==== Sys2Proof/Machine/HostPort.lean ====
section
/-! DEFINITION. The host's register window (20_memory.md): what each access does, and the placing of a
word where the next step takes it from. -/

namespace Sys2Proof.Machine

/-- How a CMD write is read (R96). -/
def cmdPort (p : Phase) : Port := if p = .strWait then .payload else .command

/-- A CMD write: the decoded instruction runs; a reserved code is dropped (R121, R123). -/
def cmdWrite (w : Word) (s : State) : Result :=
  match decode (cmdPort s.phase) w with
  | .ok i => exec i s
  | .error _ => acceptCommand (opField w) true (drop (.illegalOp (opField w))) s

/-- A CTRL write (R160, R165): INIT if bit [8] is 1; otherwise RX_PIN alone is written. -/
def ctrlWrite (v : Word) (s : State) : Result :=
  match decode .ctrl v with
  | .ok i => exec i s
  | .error _ => immediate .okay (setPin (pinField v)) s

/-- The register at an offset of the window (R61). -/
def regAt (offset : Nat) : RegName :=
  match offset with
  | 0x00 => .cmd
  | 0x04 => .ctrl
  | 0x08 => .status
  | 0x0C => .linecfg
  | _ => .strcnt

/-- The offsets the port decodes: 0x00 to 0x13 (R61). -/
def inWindow (offset : Nat) : Bool := offset < 0x14

/-- The legal access form: 32 bits at a multiple of 4 (R62). -/
def legalForm (offset bytes : Nat) : Bool := bytes == 4 && offset % 4 == 0

/-- An access that reaches no register: beyond the window the platform answers (R61); otherwise its form
is not legal, and it gets the bus error response and has no effect (R62, R404). -/
def refusedAccess (offset : Nat) (s : State) : Result :=
  if inWindow offset then immediate .busError (raise .busError) s else immediate .platform id s

/-- `MemWrite(offset, bytes, value)` (R67). -/
def memWrite (offset bytes : Nat) (v : Word) (s : State) : Result :=
  if inWindow offset && legalForm offset bytes then
    match regAt offset with
    | .cmd => cmdWrite v s
    | .ctrl => ctrlWrite v s
    | .status => immediate .okay (clearSticky v) s
    | .linecfg => immediate .okay id s
    | .strcnt => immediate .okay id s
  else refusedAccess offset s

/-- `MemRead(offset, bytes)` (R66): no side effect. -/
def memRead (offset bytes : Nat) (s : State) : Result :=
  if inWindow offset && legalForm offset bytes then
    immediate (.value (regValue (regAt offset) s)) id s
  else refusedAccess offset s

/-- One move of the host. -/
def hostMove (a : HostAction) (s : State) : Result :=
  match a with
  | .wait => .next s
  | .read offset bytes => memRead offset bytes s
  | .write offset bytes v => memWrite offset bytes v s

/-- A cycle in which the Engine waits for the host: the host's next move, if it has one and its last CMD
write is complete (R34). -/
def hostCycle (s : State) : Result :=
  if s.pending then .next s
  else match s.host with
    | [] => .next s
    | a :: rest => hostMove a { s with host := rest }

/-- One clock cycle of the CFE without reset. -/
def engineCycle (s : State) : Result :=
  match s.phase with
  | .emit => emitCycle s
  | .settle => .next (settleCycle s)
  | .idle => hostCycle s
  | .strWait => hostCycle s

/-- No command in progress and no reset: the CFE takes the host's next access. A command being emitted
or settled is abandoned (log entry 13). -/
def awaitHost (s : State) : State :=
  if s.pending = false ∧ (s.phase = .idle ∨ s.phase = .strWait) then { s with resetIn := false }
  else { s with resetIn := false, pending := false, phase := .idle, post := .none, settleCnt := 0,
                strMode := false, strRemaining := 0 }

/-- READY, as the match path of INIT leaves it (R161). -/
def makeReady (s : State) : State :=
  if s.initState = .ready then s else bindAndConfigure Config.requiredRxPin s

/-- The state in which a CMD write is a command word (R96): READY and IDLE. -/
def awaitCommand (s : State) : State :=
  let t := makeReady (awaitHost s)
  if t.phase = .idle then t else { t with phase := .idle, strMode := false, strRemaining := 0 }

/-- The state in which a CMD write is a payload word (R96): READY and STR_WAIT, one character at least
expected. -/
def awaitPayload (s : State) : State :=
  let t := makeReady (awaitHost s)
  if t.phase = .strWait then t else { t with phase := .strWait, strMode := true, strRemaining := 1 }

/-- The word `w` of a table row placed as the host's next access, on the row's port, in a state that
takes it as that row's format (log entry 13). -/
def placeWord (w : Word) (s : State) : State :=
  match tablePort w with
  | .command => { awaitCommand s with host := .write 0x00 4 w :: s.host }
  | .payload => { awaitPayload s with host := .write 0x00 4 w :: s.host }
  | .ctrl => { awaitHost s with host := .write 0x04 4 w :: s.host }

end Sys2Proof.Machine
end

