-- ==== Sys2Proof/Machine/Step.lean ====
section
/-! DEFINITION. The step: one clock cycle of the CFE and the agents around it. -/

namespace Sys2Proof.Machine

/-- One clock cycle: reset if the reset input is asserted (R450), otherwise the Engine's or the host's
move; then the clock advances. -/
def step (s : State) : Host.Outcome State Fault Refusal :=
  if s.resetIn then .next (endCycle (resetEngine s))
  else andThen (engineCycle (beginCycle s)) endCycle

/-- The state in which the very next step runs the instruction of a table row's word (log entry 13). -/
def State.withFetchWord (s : State) (nbits w : Nat) : State := placeWord (tableWord nbits w) s

end Sys2Proof.Machine
end

