-- ==== Sys2Proof/WellFormed.lean ====
section
/-! DEFINITION. Well-formedness. An `Instr` has no ill-formed term: each operand is a bit vector of its
field's width and every value of a field is legal (30_encoding.md R91 to R95). What the spec refuses
is refused one level up, where the assembler checks integer operands against their fields (R101). -/

namespace Sys2Proof

/-- An operand that fits an 8-bit field (R101). -/
def fitsByte (n : Int) : Bool := 0 ≤ n && n ≤ 255

/-- A string length that fits its 24-bit field (R101). -/
def fitsLength (n : Int) : Bool := 0 ≤ n && n ≤ 16777215

/-- A 32-bit value (R100, `RAW_CMD w`). -/
def fitsWord (n : Int) : Bool := 0 ≤ n && n ≤ 4294967295

/-- The operand of a boolean pseudo-instruction: 0 or 1 (R363). -/
def isBit (n : Int) : Bool := n == 0 || n == 1

/-- A printable ASCII character, 0x20 to 0x7E (R362; ASCII by 93_implementation_defined.md G4). -/
def printable (c : Char) : Bool := 0x20 ≤ c.toNat && c.toNat ≤ 0x7E

/-- A string item the assembler accepts (R362). -/
def StrItem.wf : StrItem → Bool
  | .char c => printable c
  | .escape _ => true

/-- The statements whose operands the assembler accepts (R101, R362 to R365). -/
def Statement.wf : Statement → Bool
  | .command _ args => args.all fitsByte
  | .writeStringHdr len => fitsLength len
  | .data b => fitsByte b
  | .init pin => fitsByte pin
  | .setPin pin => fitsByte pin
  | .clearFlags => true
  | .rawCmd w => fitsWord w
  | .read _ => true
  | .defaultPrintSettings => true
  | .preventSleep => true
  | .writeString s => s.all StrItem.wf && fitsLength s.length
  | .toggle _ x => isBit x
  | .setDensity level breakTime => 0 ≤ level && level ≤ 31 && 0 ≤ breakTime && breakTime ≤ 7
  | .enlargeHw h w => 0 ≤ h && h ≤ 15 && 0 ≤ w && w ≤ 15
  | .printModeFlags _ => true

end Sys2Proof
end

