-- ==== Sys2Proof/Machine/Assembler.lean ====
section
/-! DEFINITION. The assembler of host programs: the statements of 30_encoding.md R100 to R103, the
pseudo-instructions of 47_facade.md R360 to R366, and their text form. The assembler is host software:
its result is the list of host moves it stands for, and it refuses what R101 refuses. -/

namespace Sys2Proof.Machine

/-- The outcome of assembling: the host's accesses, or why the assembler refuses. -/
abbrev Assembled := Except AsmError (List HostAction)

/-- The low 8 bits of an operand; the assembler uses it only on operands that fit (R101). -/
def byteOf (n : Int) : Byte := BitVec.ofInt 8 n

/-- A CMD write (R100). -/
def writeCmd (w : Word) : HostAction := .write 0x00 4 w

/-- A CTRL write (R100). -/
def writeCtrl (w : Word) : HostAction := .write 0x04 4 w

/-- The offset of a register (20_memory.md R61). -/
def offsetOf : RegName → Nat
  | .cmd => 0x00
  | .ctrl => 0x04
  | .status => 0x08
  | .linecfg => 0x0C
  | .strcnt => 0x10

/-- The word of a command with the operands `args` in A0, A1, A2 and 0 in every unused field (R100); the
ROM says how many operands the command takes (R90). DESIGN CHOICE (log entry 20): a bare `WRITE_STRING` is
no such statement, though R97 gives it `nargs` 0; its header is written `WRITE_STRING_HDR L`. -/
def assembleCommand (op : Byte) (args : List Int) : Assembled :=
  if (rom op).valid && (rom op).kind != .string then
    if args.length = (rom op).nargs then
      .ok [writeCmd (mkWord op (byteOf (args.getD 0 0)) (byteOf (args.getD 1 0)) (byteOf (args.getD 2 0)))]
    else .error .operandCount
  else .error .unknownMnemonic

/-- The byte of a string item (R362). -/
def itemByte : StrItem → Byte
  | .char c => BitVec.ofNat 8 c.toNat
  | .escape b => b

/-- The header and the payload words of `WRITE_STRING "s"` (R362). -/
def stringAccesses (bytes : List Byte) : List HostAction :=
  writeCmd (encode (.writeString (BitVec.ofNat 24 bytes.length)))
    :: bytes.map (fun b => writeCmd (encode (.data b)))

/-- The instruction a boolean form picks (R363). -/
def toggleInstr (t : Toggle) (on : Bool) : Instr :=
  match t with
  | .bold => if on then .boldOn else .boldOff
  | .doubleWidth => if on then .doubleWidthOn else .doubleWidthOff
  | .updown => if on then .updownOn else .updownOff
  | .reverse => if on then .reverseOn else .reverseOff
  | .userChars => if on then .userCharsOn else .userCharsOff
  | .panelKey => if on then .panelKeyEnable else .panelKeyDisable
  | .onlineState => if on then .online else .offline

/-- The value of a PrintMode flag: a single bit, OPEN (00_scope.md R8). -/
def pmValue : PmFlag → Byte
  | .reverse => 1#8 <<< Config.pmReverseBit.val
  | .updown => 1#8 <<< Config.pmUpdownBit.val
  | .emphasized => 1#8 <<< Config.pmEmphasizedBit.val
  | .doubleHeight => 1#8 <<< Config.pmDoubleHeightBit.val
  | .doubleWidth => 1#8 <<< Config.pmDoubleWidthBit.val
  | .deleteLine => 1#8 <<< Config.pmDeleteLineBit.val

/-- The bitwise OR of the named flags, 0 for none (R366). -/
def pmUnion (flags : List PmFlag) : Byte := flags.foldl (fun v f => v ||| pmValue f) 0

/-- The host accesses a statement stands for (R100, R360 to R366); an operand that does not fit its field
is refused, never truncated (R101). -/
def assemble (st : Statement) : Assembled :=
  if st.wf then
    match st with
    | .command op args => assembleCommand op args
    | .writeStringHdr len => .ok [writeCmd (encode (.writeString (BitVec.ofInt 24 len)))]
    | .data b => .ok [writeCmd (encode (.data (byteOf b)))]
    | .init pin => .ok [writeCtrl (encode (.init (byteOf pin)))]
    | .setPin pin => .ok [writeCtrl (zext (byteOf pin))]
    | .clearFlags => .ok [.write 0x08 4 0x300]
    | .rawCmd w => .ok [writeCmd (BitVec.ofInt 32 w)]
    | .read r => .ok [.read (offsetOf r) 4]
    | .defaultPrintSettings => .ok [writeCmd (encode (.printSettings 0x14 0xFF 0xFA))]
    | .preventSleep => .ok [writeCmd (encode (.sleep 0x00))]
    | .writeString s => .ok (stringAccesses (s.map itemByte))
    | .toggle t x => .ok [writeCmd (encode (toggleInstr t (x == 1)))]
    | .setDensity level breakTime => .ok [writeCmd (encode (.density (byteOf breakTime <<< 5 ||| byteOf level)))]
    | .enlargeHw h w => .ok [writeCmd (encode (.enlarge (byteOf w <<< 4 ||| byteOf h)))]
    | .printModeFlags flags => .ok [writeCmd (encode (.printMode (pmUnion flags)))]
  else .error .operandRefused

/-- A whole program: the accesses of its statements in order, or the first refusal. -/
def assembleAll : List Statement → Assembled
  | [] => .ok []
  | st :: rest =>
    match assemble st with
    | .error e => .error e
    | .ok here =>
      match assembleAll rest with
      | .error e => .error e
      | .ok after => .ok (here ++ after)

/-! The text form (R100): one statement a line, `;` starts a comment, mnemonics in either case. What R100 to
R103 leave open of it is settled in log entry 20. -/

/-- The mnemonics of the commands (R97). DESIGN CHOICE (log entry 20): WRITE_STRING is not among them; R100
writes its header `WRITE_STRING_HDR L` and R362 its string, so a bare `WRITE_STRING` is refused. -/
def mnemonics : List (String × Byte) :=
  [("LF", 0x01), ("TAB", 0x02), ("FEED_DOTS", 0x03), ("FEED_LINES", 0x04), ("ONLINE", 0x05)]
    ++ [("OFFLINE", 0x06), ("LINE_SPACING_DEFAULT", 0x07), ("LINE_SPACING", 0x08), ("ALIGN", 0x09), ("INDENT", 0x0A)]
    ++ [("PRINT_MODE", 0x0B), ("ENLARGE", 0x0C), ("BOLD_ON", 0x0D), ("BOLD_OFF", 0x0E), ("DOUBLE_WIDTH_ON", 0x0F)]
    ++ [("DOUBLE_WIDTH_OFF", 0x10), ("UPDOWN_ON", 0x11), ("UPDOWN_OFF", 0x12), ("REVERSE_ON", 0x13), ("REVERSE_OFF", 0x14)]
    ++ [("UNDERLINE", 0x15), ("USER_CHARS_ON", 0x16), ("USER_CHARS_OFF", 0x17), ("CHARSET", 0x18), ("CODE_TABLE", 0x19)]
    ++ [("PANEL_KEY_ENABLE", 0x1A), ("PANEL_KEY_DISABLE", 0x1B), ("RESET", 0x1C), ("TRANSMIT_STATUS", 0x1D), ("AUTO_STATUS_BACK", 0x1E)]
    ++ [("PRINT_SETTINGS", 0x1F), ("SLEEP", 0x20), ("DENSITY", 0x21), ("TEST_PAGE", 0x22), ("WAKE", 0x23)]

/-- The symbolic operand constants with a fixed value (R102). -/
def symbols : List (String × Nat) :=
  [("ALIGN_LEFT", 0x30), ("ALIGN_MIDDLE", 0x31), ("ALIGN_RIGHT", 0x32)]
    ++ [("UL_NONE", 0x00), ("UL_THIN", 0x01), ("UL_THICK", 0x02), ("CT_PC437", 0x00), ("CT_PC850", 0x01)]
    ++ [("ASB_ENABLE", 0x04), ("ASB_RTS", 0x20)]
    ++ [("CS_0", 0), ("CS_1", 1), ("CS_2", 2), ("CS_3", 3), ("CS_4", 4), ("CS_5", 5), ("CS_6", 6)]
    ++ [("CS_7", 7), ("CS_8", 8), ("CS_9", 9), ("CS_10", 10), ("CS_11", 11), ("CS_12", 12), ("CS_13", 13)]

/-- The PrintMode symbols (R102). -/
def pmSymbols : List (String × PmFlag) :=
  [("PM_REVERSE", .reverse), ("PM_UPDOWN", .updown), ("PM_EMPHASIZED", .emphasized)]
    ++ [("PM_DOUBLE_HEIGHT", .doubleHeight), ("PM_DOUBLE_WIDTH", .doubleWidth), ("PM_DELETE_LINE", .deleteLine)]

/-- The boolean forms (R363). -/
def toggles : List (String × Toggle) :=
  [("BOLD", .bold), ("DOUBLE_WIDTH", .doubleWidth), ("UPDOWN", .updown), ("REVERSE", .reverse)]
    ++ [("USER_CHARS", .userChars), ("PANEL_KEY", .panelKey), ("ONLINE_STATE", .onlineState)]

/-- The register names (R61). -/
def registers : List (String × RegName) :=
  [("CMD", .cmd), ("CTRL", .ctrl), ("STATUS", .status), ("LINECFG", .linecfg), ("STRCNT", .strcnt)]

/-- The entry of a table of names for a word of the text. -/
def findName {α : Type} (table : List (String × α)) (word : List Char) : Option α :=
  (table.find? (fun e => e.1.toList == word)).map Prod.snd

/-- A token of a line. -/
abbrev Token := List Char ⊕ (Int ⊕ (List StrItem ⊕ Char))

/-- A word of letters, digits and underscores, put in capitals by `lexLine`. -/
def tokWord (cs : List Char) : Token := .inl cs
/-- A number, or the code of a `'c'` literal. -/
def tokNum (n : Int) : Token := .inr (.inl n)
/-- A string literal. -/
def tokStr (s : List StrItem) : Token := .inr (.inr (.inl s))
/-- A comma or a bar. -/
def tokSep (c : Char) : Token := .inr (.inr (.inr c))

/-- The value of a hexadecimal digit. -/
def hexDigit (c : Char) : Option Nat :=
  if '0' ≤ c ∧ c ≤ '9' then some (c.toNat - 0x30)
  else if 'A' ≤ c ∧ c ≤ 'F' then some (c.toNat - 0x37)
  else if 'a' ≤ c ∧ c ≤ 'f' then some (c.toNat - 0x57)
  else none

/-- The number that a non-empty list of digits writes in base `base`. -/
def digitsValue (base : Nat) (cs : List Char) : Option Nat :=
  if cs.isEmpty then none
  else cs.foldl (fun acc c =>
    match acc, hexDigit c with
    | some v, some d => if d < base then some (v * base + d) else none
    | _, _ => none) (some 0)

/-- A number: decimal, or hexadecimal with `0x` (R100). DESIGN CHOICE (log entry 20): `0X` is the same prefix. -/
def numberValue : List Char → Option Nat
  | '0' :: 'x' :: cs => digitsValue 16 cs
  | '0' :: 'X' :: cs => digitsValue 16 cs
  | cs => digitsValue 10 cs

/-- The characters of words and numbers. -/
def wordChar (c : Char) : Bool := c.isAlphanum || c == '_'

/-- The string item that begins with the character `c`, and what follows it: `\xNN` is one byte, and every
other character, a backslash that begins no `\xNN` among them, stands for itself (R362). -/
def stringItem (c : Char) (cs : List Char) : StrItem × List Char :=
  match c, cs with
  | '\\', 'x' :: h :: l :: rest =>
    match hexDigit h, hexDigit l with
    | some x, some y => (.escape (BitVec.ofNat 8 (x * 16 + y)), rest)
    | _, _ => (.char c, cs)
  | _, _ => (.char c, cs)

/-- The items of a string literal up to its closing quote, and the rest of the line. DESIGN CHOICE (log entry
20): the next quotation mark closes the string, also after a backslash. -/
def lexString : Nat → List Char → Option (List StrItem × List Char)
  | 0, _ => none
  | _, [] => none
  | fuel + 1, c :: cs =>
    if c = '"' then some ([], cs)
    else
      let (item, rest) := stringItem c cs
      (lexString fuel rest).map (fun (items, after) => (item :: items, after))

/-- The tokens of a line; none where a character fits no token. The fuel is the line's length.
Every word is put in capitals, so case distinguishes no two words. R100 says that of mnemonics; DESIGN CHOICE
(log entry 20): it holds as well of register names, of the symbols of R102 and of the `PM_*` flags of R366. -/
def lexLine : Nat → List Char → Option (List Token)
  | _, [] => some []
  | 0, _ => none
  | fuel + 1, c :: cs =>
    if c = ';' then some []
    else if c = ' ' ∨ c = '\t' ∨ c = '\r' then lexLine fuel cs
    else if c = ',' ∨ c = '|' then (lexLine fuel cs).map (tokSep c :: ·)
    else if c = '"' then
      match lexString fuel cs with
      | some (items, rest) => (lexLine fuel rest).map (tokStr items :: ·)
      | none => none
    else if c = '\'' then
      match cs with
      | x :: '\'' :: rest =>
        if printable x then (lexLine fuel rest).map (tokNum x.toNat :: ·) else none
      | _ => none
    else if c = '-' then
      match numberValue (cs.takeWhile wordChar), lexLine fuel (cs.dropWhile wordChar) with
      | some n, some ts => some (tokNum (-n) :: ts)
      | _, _ => none
    else if c.isDigit then
      match numberValue ((c :: cs).takeWhile wordChar), lexLine fuel (cs.dropWhile wordChar) with
      | some n, some ts => some (tokNum n :: ts)
      | _, _ => none
    else if wordChar c then
      (lexLine fuel (cs.dropWhile wordChar)).map
        (tokWord (((c :: cs).takeWhile wordChar).map Char.toUpper) :: ·)
    else none

/-- A list of tokens cut at the separator `c`. -/
def cutAt (c : Char) : List Token → List (List Token)
  | [] => [[]]
  | t :: ts =>
    if t = tokSep c then [] :: cutAt c ts
    else match cutAt c ts with
      | [] => [[t]]
      | g :: gs => (t :: g) :: gs

/-- A symbol's value (R102). -/
def symbolValue (word : List Char) : Option Nat :=
  match findName symbols word with
  | some n => some n
  | none => (findName pmSymbols word).map (fun f => (pmValue f).toNat)

/-- One term of an operand: a number, a character or a symbol. -/
def termValue : List Token → Option Int
  | [.inr (.inl n)] => some n
  | [.inl word] => (symbolValue word).map Int.ofNat
  | _ => none

/-- The OR of the terms of an operand (R102). DESIGN CHOICE (log entry 20): a term may be a number or a
character as well as a symbol, and a negative term stands alone. -/
def orTerms : List (List Token) → Option Int
  | [] => none
  | [t] => termValue t
  | t :: ts =>
    match termValue t, orTerms ts with
    | some (.ofNat x), some (.ofNat y) => some (Int.ofNat (x ||| y))
    | _, _ => none

/-- The operands of a statement, separated by commas. -/
def operandValues (ts : List Token) : Option (List Int) :=
  if ts.isEmpty then some []
  else (cutAt ',' ts).foldr (fun o acc =>
    match orTerms (cutAt '|' o), acc with
    | some n, some ns => some (n :: ns)
    | _, _ => none) (some [])

/-- The flags of `PRINT_MODE_FLAGS`, separated by bars; none at all for an empty list (R366). -/
def flagList (ts : List Token) : Option (List PmFlag) :=
  if ts.isEmpty then some []
  else (cutAt '|' ts).foldr (fun o acc =>
    match o, acc with
    | [.inl word], some fs => (findName pmSymbols word).map (· :: fs)
    | _, _ => none) (some [])

/-- A statement of one operand. -/
def oneOperand (make : Int → Statement) (args : List Int) : Except AsmError Statement :=
  match args with
  | [n] => .ok (make n)
  | _ => .error .operandCount

/-- A statement of two operands. -/
def twoOperands (make : Int → Int → Statement) (args : List Int) : Except AsmError Statement :=
  match args with
  | [m, n] => .ok (make m n)
  | _ => .error .operandCount

/-- The statements whose operands are numbers (R100, R360, R361, R363 to R365). -/
def numericStatement (word : List Char) (args : List Int) : Except AsmError Statement :=
  if word = "WRITE_STRING_HDR".toList then oneOperand .writeStringHdr args
  else if word = "DATA".toList then oneOperand .data args
  else if word = "INIT".toList then oneOperand .init args
  else if word = "SETPIN".toList then oneOperand .setPin args
  else if word = "RAW_CMD".toList then oneOperand .rawCmd args
  else if word = "SET_DENSITY".toList then twoOperands .setDensity args
  else if word = "ENLARGE_HW".toList then twoOperands .enlargeHw args
  else if word = "CLEAR_FLAGS".toList ∧ args = [] then .ok .clearFlags
  else if word = "DEFAULT_PRINT_SETTINGS".toList ∧ args = [] then .ok .defaultPrintSettings
  else if word = "PREVENT_SLEEP".toList ∧ args = [] then .ok .preventSleep
  else match findName mnemonics word with
    | some op => .ok (.command op args)
    | none =>
      match findName toggles word with
      | some t => oneOperand (.toggle t) args
      | none => .error .unknownMnemonic

/-- The statement a line's tokens write; none for an empty line. -/
def parseTokens (ts : List Token) : Except AsmError (Option Statement) :=
  match ts with
  | [] => .ok none
  | [.inl word, .inr (.inr (.inl items))] =>
    if word = "WRITE_STRING".toList then .ok (some (.writeString items)) else .error .badLine
  | .inl word :: rest =>
    if word = "READ".toList then
      match rest with
      | [.inl r] =>
        match findName registers r with
        | some reg => .ok (some (.read reg))
        | none => .error .badLine
      | _ => .error .badLine
    else if word = "PRINT_MODE_FLAGS".toList then
      match flagList rest with
      | some fs => .ok (some (.printModeFlags fs))
      | none => .error .badLine
    else
      match operandValues rest with
      | none => .error .badLine
      | some args =>
        match numericStatement word args with
        | .ok st => .ok (some st)
        | .error e => .error e
  | _ => .error .badLine

/-- The accesses of one line of text. -/
def assembleLine (line : List Char) : Assembled :=
  match lexLine (line.length + 1) line with
  | none => .error .badLine
  | some ts =>
    match parseTokens ts with
    | .error e => .error e
    | .ok none => .ok []
    | .ok (some st) => assemble st

/-- The lines of a text. -/
def linesOf : List Char → List (List Char)
  | [] => [[]]
  | c :: cs =>
    if c = '\n' then [] :: linesOf cs
    else match linesOf cs with
      | [] => [[c]]
      | l :: ls => (c :: l) :: ls

/-- The accesses of a program's lines in order, or the first refusal. -/
def assembleLines : List (List Char) → Assembled
  | [] => .ok []
  | line :: rest =>
    match assembleLine line with
    | .error e => .error e
    | .ok here =>
      match assembleLines rest with
      | .error e => .error e
      | .ok after => .ok (here ++ after)

/-- A host program's text assembled: the moves of the host it stands for (R100). -/
def assembleText (text : List Char) : Assembled := assembleLines (linesOf text)

end Sys2Proof.Machine
end

