-- ==== Sys2Proof/Safety.lean ====
section
/-! DEFINITION. The terms claims about the CFE use: the states a host access finds, the invariant of
10_state.md R41, the bytes a host program promises to the wire, and what a safe run is. -/

namespace Sys2Proof.Machine

/-- The bytes of the wire trace, oldest first, without their cycles (00_scope.md R7). -/
def wireBytes (s : State) : List Byte := s.wire.map (·.byte)

/-- The bytes that remain to be offered, `seq_buf[seq_idx .. seq_len-1]` (R23, R30); none outside EMIT. -/
def bufferedBytes (s : State) : List Byte :=
  if s.phase = .emit then (s.seqBuf.toList.take s.seqLen.val).drop s.seqIdx.val else []

/-- The state in which a CMD write is accepted as a command word (R96, R120): no access outstanding,
READY and IDLE. -/
def CommandReady (s : State) : Prop :=
  s.pending = false ∧ s.initState = .ready ∧ s.phase = .idle

/-- The state in which a CMD write is accepted as a payload word (R96). -/
def PayloadReady (s : State) : Prop :=
  s.pending = false ∧ s.initState = .ready ∧ s.phase = .strWait

/-- The reset input is not asserted, now or in any scheduled cycle. -/
def NoReset (s : State) : Prop := s.resetIn = false ∧ ∀ p ∈ s.inputs, p.reset = false

/-- No reset, and a Transport that accepts every byte at once (the convention of 95_test_vectors.md). -/
def AlwaysReady (s : State) : Prop := s.resetIn = false ∧ s.txReady = true ∧ s.inputs = []

/-- The invariants of 10_state.md R41, with what an induction over steps needs beside them: the binding
of R35 and R37, the timer of R32 and R128, and the cycle stamps of the wire trace (R7). -/
structure EngineInv (s : State) : Prop where
  /-- R41 (1). -/
  quiet : s.initState ≠ .ready → s.phase = .idle ∧ s.pending = false ∧ s.strMode = false
  /-- R35, R161: the line is configured exactly while READY; with `quiet` this gives R41 (2). -/
  configured : s.lineConfigured = true ↔ s.initState = .ready
  /-- R35: the pin is bound exactly when the line is configured. -/
  bound : s.pinBound = s.lineConfigured
  /-- R37, R161: the binding is that of the pin that passed. -/
  binding : s.pinBound = true → s.pinBindPin = Config.requiredRxPin ∧ s.pinBindFunc = Config.rxAltFunc
  /-- R41 (3). -/
  emitting : s.phase = .emit → s.seqIdx < s.seqLen ∧ s.pending = true
  /-- R30: `post = SETTLE` belongs to WAKE alone, whose one byte is 0xFF. -/
  waking : s.post = .settle → s.strMode = false ∧
    (s.phase = .settle ∨ s.phase = .emit ∧ s.seqIdx = 0 ∧ s.seqLen = 1 ∧ s.seqBuf[0] = 0xFF)
  /-- R41 (4), and the count of R128 measured from the acceptance of 0xFF. -/
  settling : s.phase = .settle → s.pending = true ∧ s.strMode = false ∧ 0 < s.settleCnt ∧
    ∃ w, s.wire.getLast? = some w ∧ w.byte = 0xFF ∧
      w.cycle + 1 + Config.settleCycles = s.cycle + s.settleCnt
  /-- R32: the timer is at 0 outside SETTLE. -/
  timerIdle : s.phase ≠ .settle → s.settleCnt = 0
  /-- R41 (5). -/
  awaiting : s.phase = .strWait → s.pending = false ∧ s.strMode = true ∧ s.strRemaining ≠ 0
  /-- R41 (6). -/
  idle : s.phase = .idle → s.pending = false ∧ s.strMode = false ∧ s.strRemaining = 0
  /-- R31. -/
  counting : s.strRemaining ≠ 0 → s.strMode = true
  /-- R7: the stamps of the wire trace rise and lie in the past. -/
  stamped : s.wire.Pairwise (fun a b => a.cycle < b.cycle) ∧ ∀ w ∈ s.wire, w.cycle < s.cycle

/-- A step is safe if it gives a next state: no fault, no refusal. -/
def StepSafe (s : State) : Prop := ∃ t, step s = .next t

/-- `n` clock cycles, stopping at the first fault or refusal. -/
def cycles : Nat → State → Result
  | 0, s => .next s
  | n + 1, s =>
    match step s with
    | .next t => cycles n t
    | .fault e => .fault e
    | .refused e => .refused e

/-- The bytes a command word puts on the wire by itself, from the ROM alone (R97, R99, R123, R124): none
for a reserved code, a failed check or a string header with L > 0. -/
def commandBytes (w : Word) : List Byte :=
  let e := rom (opField w)
  if e.valid = false ∨ check e.vclass (a0 w) (a1 w) = false then []
  else if e.kind = .string then (if lenField w = 0 then [0x0A] else [])
  else romSequence e w

/-- The payload words expected after a command word: L for a string header, 0 for every other word. `valid` is
tested first, so that no other field of a reserved entry (log entry 26) is read. -/
def charactersAfter (w : Word) : StrLen :=
  let e := rom (opField w)
  if e.valid = true ∧ e.kind = .string then lenField w else 0

/-- `init_state` after a write of `v` to CTRL (R160 to R163). -/
def initAfter (i : InitState) (v : Word) : InitState :=
  if initField v = true ∧ i = .uninit then
    (if pinField v = Config.requiredRxPin then .ready else .wiringError)
  else i

/-- The bytes that the host's moves to come put on the wire, in order, as a function of those moves,
`init_state` and the characters still expected alone (R70, R130, R131). -/
def scriptBytes (i : InitState) (r : StrLen) : List HostAction → List Byte
  | [] => []
  | .wait :: rest => scriptBytes i r rest
  | .read _ _ :: rest => scriptBytes i r rest
  | .write offset bytes v :: rest =>
    if inWindow offset && legalForm offset bytes then
      match regAt offset with
      | .cmd =>
        if i ≠ .ready then scriptBytes i r rest
        else if r = 0 then commandBytes v ++ scriptBytes i (charactersAfter v) rest
        else dataField v :: ((if r = 1 then [0x0A] else []) ++ scriptBytes i (r - 1) rest)
      | .ctrl => scriptBytes (initAfter i v) r rest
      | .status => scriptBytes i r rest
      | .linecfg => scriptBytes i r rest
      | .strcnt => scriptBytes i r rest
    else scriptBytes i r rest

/-- All the bytes of the wire trace once the command in progress and the host's moves to come are done. -/
def promisedWire (s : State) : List Byte :=
  wireBytes s ++ bufferedBytes s ++ scriptBytes s.initState s.strRemaining s.host

/-- Nothing is left to do: no command in progress and no host move to come. -/
def Drained (s : State) : Prop := s.pending = false ∧ s.host = []

/-- `t` is `s` with the bytes `seq` loaded for emission and nothing else changed (R125). -/
def Loaded (seq : List Byte) (post : Post) (s t : State) : Prop :=
  bufferedBytes t = seq ∧
  t = { s with seqBuf := t.seqBuf, seqLen := t.seqLen, seqIdx := 0, post := post,
               pending := true, phase := .emit }

/-- `u` is `s` after the bytes `seq` have gone to the wire in order and the write has completed with OKAY,
`n` cycles later; nothing else has changed but the stale sequence buffer (R30) and `diag_valid` (R38). -/
def Sent (seq : List Byte) (n : Nat) (s u : State) : Prop :=
  wireBytes u = wireBytes s ++ seq ∧
  u = { s with seqBuf := u.seqBuf, seqLen := u.seqLen, seqIdx := u.seqIdx, post := .none,
               wire := u.wire, cycle := s.cycle + n, diagValid := false,
               responses := s.responses ++ [.okay] }

/-- The state `s` with the access `a` as the host's next move. -/
def issuing (a : HostAction) (s : State) : State := { s with host := a :: s.host }

/-- The command `i` completes by loading `seq` (R125), and a CMD write of any word that decodes to it puts
exactly `seq` on the wire, when the Transport takes each byte as it is offered, and completes after some
number of cycles (R126, R127, R129). -/
def Sends (i : Instr) (seq : List Byte) : Prop :=
  (∀ s, CommandReady s → ∃ t, exec i s = .next t ∧ Loaded seq .none s t) ∧
  (∀ w s, decode .command w = .ok i → CommandReady s → s.strMode = false → AlwaysReady s →
    ∃ n u, cycles n (issuing (.write 0x00 4 w) s) = .next u ∧ Sent seq n s u)

/-- The command `i` with command code `op` is dropped by its check: it completes at once with OKAY and the
ghost event, and nothing else changes (R124, R133). -/
def Rejected (i : Instr) (op : Byte) : Prop :=
  ∀ s, CommandReady s → exec i s =
    .next { s with responses := s.responses ++ [.okay], events := s.events ++ [.paramRejected op] }

end Sys2Proof.Machine
end

