-- ==== Sys2Proof/Certificates/Slice0/Obligations.lean ====
section
/-! DEFINITION. The statements for the provers. Each docstring names the rules it formalises. -/

open Sys2Proof Sys2Proof.Machine

/-! The commands: each one's words, its completion, its bytes and its frame. -/

/-- R200 to R205. -/
def Obligations.LayoutCommandsSendTheirBytes : Prop :=
  ((∀ w, opField w = 0x01 → decode .command w = .ok .lf) ∧ Sends .lf [0x0A]) ∧
  ((∀ w, opField w = 0x02 → decode .command w = .ok .tab) ∧ Sends .tab [0x09]) ∧
  ((∀ w, opField w = 0x03 → decode .command w = .ok (.feedDots (a0 w))) ∧
    ∀ n, Sends (.feedDots n) [0x1B, 0x4A, n]) ∧
  ((∀ w, opField w = 0x04 → decode .command w = .ok (.feedLines (a0 w))) ∧
    ∀ n, Sends (.feedLines n) [0x1B, 0x64, n]) ∧
  ((∀ w, opField w = 0x07 → decode .command w = .ok .lineSpacingDefault) ∧
    Sends .lineSpacingDefault [0x1B, 0x32]) ∧
  ((∀ w, opField w = 0x08 → decode .command w = .ok (.lineSpacing (a0 w))) ∧
    ∀ n, Sends (.lineSpacing n) [0x1B, 0x33, n])

/-- R206, with the domain of R180. -/
def Obligations.AlignSendsOrSendsNothing : Prop :=
  (∀ w, opField w = 0x09 → decode .command w = .ok (.align (a0 w))) ∧
  ∀ mode : Byte,
    (mode = 0x30 ∨ mode = 0x31 ∨ mode = 0x32 → Sends (.align mode) [0x1B, 0x61, mode]) ∧
    (mode ≠ 0x30 ∧ mode ≠ 0x31 ∧ mode ≠ 0x32 → Rejected (.align mode) 0x09)

/-- R207, with the domain of R182. -/
def Obligations.IndentSendsOrSendsNothing : Prop :=
  (∀ w, opField w = 0x0A → decode .command w = .ok (.indent (a0 w))) ∧
  ∀ n : Byte,
    (n.toNat ≤ 47 → Sends (.indent n) [0x1B, 0x42, n]) ∧
    (47 < n.toNat → Rejected (.indent n) 0x0A)

/-- R242 to R249, R251, R252. -/
def Obligations.CharacterTogglesSendTheirBytes : Prop :=
  ((∀ w, opField w = 0x0D → decode .command w = .ok .boldOn) ∧ Sends .boldOn [0x1B, 0x45, 0x01]) ∧
  ((∀ w, opField w = 0x0E → decode .command w = .ok .boldOff) ∧ Sends .boldOff [0x1B, 0x45, 0x00]) ∧
  ((∀ w, opField w = 0x0F → decode .command w = .ok .doubleWidthOn) ∧ Sends .doubleWidthOn [0x1B, 0x0E]) ∧
  ((∀ w, opField w = 0x10 → decode .command w = .ok .doubleWidthOff) ∧ Sends .doubleWidthOff [0x1B, 0x14]) ∧
  ((∀ w, opField w = 0x11 → decode .command w = .ok .updownOn) ∧ Sends .updownOn [0x1B, 0x7B, 0x01]) ∧
  ((∀ w, opField w = 0x12 → decode .command w = .ok .updownOff) ∧ Sends .updownOff [0x1B, 0x7B, 0x00]) ∧
  ((∀ w, opField w = 0x13 → decode .command w = .ok .reverseOn) ∧ Sends .reverseOn [0x1D, 0x42, 0x01]) ∧
  ((∀ w, opField w = 0x14 → decode .command w = .ok .reverseOff) ∧ Sends .reverseOff [0x1D, 0x42, 0x00]) ∧
  ((∀ w, opField w = 0x16 → decode .command w = .ok .userCharsOn) ∧ Sends .userCharsOn [0x1B, 0x25, 0x01]) ∧
  ((∀ w, opField w = 0x17 → decode .command w = .ok .userCharsOff) ∧ Sends .userCharsOff [0x1B, 0x25, 0x00])

/-- R240, R241, R253, R254: every argument byte is forwarded unchanged. -/
def Obligations.UnvalidatedFormatSettersForward : Prop :=
  ((∀ w, opField w = 0x0B → decode .command w = .ok (.printMode (a0 w))) ∧
    ∀ bits, Sends (.printMode bits) [0x1B, 0x21, bits]) ∧
  ((∀ w, opField w = 0x0C → decode .command w = .ok (.enlarge (a0 w))) ∧
    ∀ bits, Sends (.enlarge bits) [0x1D, 0x21, bits]) ∧
  ((∀ w, opField w = 0x18 → decode .command w = .ok (.charset (a0 w))) ∧
    ∀ cs, Sends (.charset cs) [0x1B, 0x52, cs]) ∧
  ((∀ w, opField w = 0x19 → decode .command w = .ok (.codeTable (a0 w))) ∧
    ∀ ct, Sends (.codeTable ct) [0x1B, 0x74, ct])

/-- R250, with the domain of R181. -/
def Obligations.UnderlineSendsOrSendsNothing : Prop :=
  (∀ w, opField w = 0x15 → decode .command w = .ok (.underline (a0 w))) ∧
  ∀ mode : Byte,
    (mode = 0x00 ∨ mode = 0x01 ∨ mode = 0x02 → Sends (.underline mode) [0x1B, 0x2D, mode]) ∧
    (mode ≠ 0x00 ∧ mode ≠ 0x01 ∧ mode ≠ 0x02 → Rejected (.underline mode) 0x15)

/-- R290 to R295, R300. -/
def Obligations.FixedDeviceCommandsSendTheirBytes : Prop :=
  ((∀ w, opField w = 0x05 → decode .command w = .ok .online) ∧ Sends .online [0x1B, 0x3D, 0x01]) ∧
  ((∀ w, opField w = 0x06 → decode .command w = .ok .offline) ∧ Sends .offline [0x1B, 0x3D, 0x00]) ∧
  ((∀ w, opField w = 0x1A → decode .command w = .ok .panelKeyEnable) ∧
    Sends .panelKeyEnable [0x1B, 0x63, 0x35, 0x00]) ∧
  ((∀ w, opField w = 0x1B → decode .command w = .ok .panelKeyDisable) ∧
    Sends .panelKeyDisable [0x1B, 0x63, 0x35, 0x01]) ∧
  ((∀ w, opField w = 0x1C → decode .command w = .ok .reset) ∧ Sends .reset [0x1B, 0x40]) ∧
  ((∀ w, opField w = 0x1D → decode .command w = .ok .transmitStatus) ∧
    Sends .transmitStatus [0x1B, 0x76, 0x00]) ∧
  ((∀ w, opField w = 0x22 → decode .command w = .ok .testPage) ∧ Sends .testPage [0x12, 0x54])

/-- R296, R298, R299: every argument byte is forwarded unchanged. -/
def Obligations.UnvalidatedDeviceSettersForward : Prop :=
  ((∀ w, opField w = 0x1E → decode .command w = .ok (.autoStatusBack (a0 w))) ∧
    ∀ mode, Sends (.autoStatusBack mode) [0x1D, 0x61, mode]) ∧
  ((∀ w, opField w = 0x20 → decode .command w = .ok (.sleep (a0 w))) ∧
    ∀ n, Sends (.sleep n) [0x1B, 0x38, n]) ∧
  ((∀ w, opField w = 0x21 → decode .command w = .ok (.density (a0 w))) ∧
    ∀ level, Sends (.density level) [0x12, 0x23, level])

/-- R297, with the range of R183: only the heat byte is checked. -/
def Obligations.PrintSettingsSendsOrSendsNothing : Prop :=
  (∀ w, opField w = 0x1F → decode .command w = .ok (.printSettings (a0 w) (a1 w) (a2 w))) ∧
  ∀ dots heat interval : Byte,
    (3 ≤ heat.toNat → Sends (.printSettings dots heat interval) [0x1B, 0x37, dots, heat, interval]) ∧
    (heat.toNat < 3 → Rejected (.printSettings dots heat interval) 0x1F)

/-- R301: WAKE loads its one byte; the byte goes to the wire in some cycle `c`; in the `SETTLE_CYCLES` cycles
after it no byte follows, the host's write stays pending and BUSY and SETTLE are 1; then the write completes. -/
def Obligations.WakeSendsItsByteAndSettles : Prop :=
  (∀ w, opField w = 0x23 → decode .command w = .ok .wake) ∧
  (∀ s, CommandReady s → ∃ t, exec .wake s = .next t ∧ Loaded [0xFF] .settle s t) ∧
  ∀ w s, opField w = 0x23 → CommandReady s → AlwaysReady s → s.settleCnt = 0 →
    ∃ n c, (∀ k < Config.settleCycles, ∃ u, cycles (n + k) (issuing (.write 0x00 4 w) s) = .next u ∧
      u.wire = s.wire ++ [{ byte := 0xFF, cycle := c }] ∧ u.cycle = c + 1 + k ∧ u.host = s.host ∧
      u.pending = true ∧ u.responses = s.responses ∧
      (statusWord u).getLsbD 2 = true ∧ (statusWord u).getLsbD 3 = true) ∧
    ∃ u, cycles (n + Config.settleCycles) (issuing (.write 0x00 4 w) s) = .next u ∧
      u.wire = s.wire ++ [{ byte := 0xFF, cycle := c }] ∧ u.cycle = c + 1 + Config.settleCycles ∧
      Sent [0xFF] (n + Config.settleCycles) s u

/-- R340: with L = 0 the header loads the terminator alone; with L > 0 it completes at once, with no byte,
and L characters are expected. -/
def Obligations.StringHeaderStartsString : Prop :=
  (∀ w, opField w = 0x24 → decode .command w = .ok (.writeString (lenField w))) ∧
  Sends (.writeString 0) [0x0A] ∧
  ∀ (len : StrLen) s, len ≠ 0 → CommandReady s →
    exec (.writeString len) s = .next { s with
      strMode := true, strRemaining := len, phase := .strWait, responses := s.responses ++ [.okay] }

/-- R341: in STR_WAIT any word is the character in its low byte. The character is loaded alone if more
are expected and with the terminator if it is the last; when the Transport takes each byte as it is
offered the write completes after it, back in STR_WAIT or in IDLE. -/
def Obligations.PayloadWordSendsItsCharacter : Prop :=
  (∀ w, decode .payload w = .ok (.data (dataField w))) ∧
  (∀ b s, PayloadReady s → s.strRemaining ≠ 0 → s.strRemaining ≠ 1 →
    ∃ t, exec (.data b) s = .next t ∧
      Loaded [b] .none { s with strRemaining := s.strRemaining - 1 } t) ∧
  (∀ b s, PayloadReady s → s.strRemaining = 1 →
    ∃ t, exec (.data b) s = .next t ∧ Loaded [b, 0x0A] .none { s with strRemaining := 0 } t) ∧
  (∀ w s, PayloadReady s → s.strMode = true → AlwaysReady s → s.strRemaining ≠ 0 → s.strRemaining ≠ 1 →
    ∃ n u, cycles n (issuing (.write 0x00 4 w) s) = .next u ∧
      Sent [dataField w] n { s with strRemaining := s.strRemaining - 1 } u) ∧
  (∀ w s, PayloadReady s → s.strMode = true → AlwaysReady s → s.strRemaining = 1 →
    ∃ n u, cycles n (issuing (.write 0x00 4 w) s) = .next u ∧
      Sent [dataField w, 0x0A] n { s with strRemaining := 0, strMode := false, phase := .idle } u)

/-- R343, for a Transport that takes each byte as it is offered: the header and the payload words of a string
put exactly its characters and one 0x0A on the wire, contiguous, and every write completes. -/
def Obligations.StringReachesTheWireTerminated : Prop :=
  ∀ (chars : List Byte) (rest : List HostAction) s, chars.length < 2 ^ 24 → CommandReady s →
    s.strMode = false → AlwaysReady s → s.host = stringAccesses chars ++ rest →
    ∃ n u, cycles n s = .next u ∧
      wireBytes u = wireBytes s ++ chars ++ [0x0A] ∧ CommandReady u ∧ u.host = rest ∧
      u.responses = s.responses ++ List.replicate (chars.length + 1) .okay

/-! Initialization (41_init.md). -/

/-- R160, R161, R163: INIT completes in its step. In UNINIT a matching pin binds and configures, a wrong one
is the wiring mismatch; in READY and WIRING_ERROR only RX_PIN is written. -/
def Obligations.InitBindsOrFailsOnce : Prop :=
  (∀ v, initField v = true → decode .ctrl v = .ok (.init (pinField v))) ∧
  ∀ pin s, s.pending = false →
    (s.initState = .uninit → pin = Config.requiredRxPin →
      ∃ t, exec (.init pin) s = .next t ∧
        t = { s with rxPin := pin, pinBound := true, pinBindPin := pin, pinBindFunc := Config.rxAltFunc,
                     lineConfigured := true, initState := .ready, responses := s.responses ++ [.okay] } ∧
        pinBinding t = some (pin, Config.rxAltFunc) ∧ uartCfg t = some (19200, 8, 0, 1)) ∧
    (s.initState = .uninit → pin ≠ Config.requiredRxPin →
      exec (.init pin) s = .next { s with
        rxPin := pin, initState := .wiringError, diagValid := true, diagSev := 2, diagCode := 0x01,
        diagLog := s.diagLog ++ [{ sev := 2, code := 0x01 }],
        events := s.events ++ [.wiringMismatch pin], responses := s.responses ++ [.okay] }) ∧
    (s.initState ≠ .uninit →
      exec (.init pin) s = .next { s with rxPin := pin, responses := s.responses ++ [.okay] })

/-- R162: a mismatch enters WIRING_ERROR with one diagnostic and the line and the pin as they were: not
configured, not bound. From then until reset every CMD write is dropped, and no step puts a byte on the
wire, leaves WIRING_ERROR, binds the pin or configures the line. -/
def Obligations.WiringErrorIsFatalUntilReset : Prop :=
  (∀ pin s, EngineInv s → s.initState = .uninit → pin ≠ Config.requiredRxPin →
    ∃ t, exec (.init pin) s = .next t ∧ t.initState = .wiringError ∧
      t.diagLog = s.diagLog ++ [{ sev := 2, code := 0x01 }] ∧ t.pinBound = false ∧
      t.lineConfigured = false ∧ t.wire = s.wire) ∧
  (∀ w s, s.pending = false → s.initState = .wiringError →
    ∃ t, cmdWrite w s = .next t ∧ t.notReady = true ∧ t.wire = s.wire ∧ t.phase = s.phase ∧
      t.pending = false) ∧
  ∀ n s, s.initState = .wiringError → s.phase = .idle → s.pending = false → NoReset s →
    ∃ u, cycles n s = .next u ∧ u.initState = .wiringError ∧ u.phase = .idle ∧ u.wire = s.wire ∧
      u.pinBound = s.pinBound ∧ u.lineConfigured = s.lineConfigured

/-- R165: a CTRL write with INIT = 0 sets RX_PIN and nothing else, in every `init_state`; a read of CTRL
gives RX_PIN with every other bit 0. -/
def Obligations.PinWriteSetsOnlyRxPin : Prop :=
  (∀ v s, initField v = false → s.pending = false →
    memWrite 0x04 4 v s = .next { s with rxPin := pinField v, responses := s.responses ++ [.okay] }) ∧
  ∀ s, s.pending = false →
    memRead 0x04 4 s = .next { s with responses := s.responses ++ [.value (BitVec.setWidth 32 s.rxPin)] }

/-! The generator (40_sequencer.md). -/

/-- R122, R403: before READY every CMD write, reserved codes included, sets NOT_READY and completes at
once with no byte and no other change. -/
def Obligations.CmdWriteBeforeReadyIsDropped : Prop :=
  ∀ s, s.pending = false → s.initState ≠ .ready →
    (∀ w, cmdWrite w s = .next { s with
      notReady := true, responses := s.responses ++ [.okay], events := s.events ++ [.notReady] }) ∧
    ∀ i, portOf i ≠ .ctrl → exec i s = .next { s with
      notReady := true, responses := s.responses ++ [.okay], events := s.events ++ [.notReady] }

/-- R123, R402: a reserved code sets ILLEGAL_OP and completes at once with no byte and no other change. -/
def Obligations.ReservedCodeSetsIllegalOp : Prop :=
  ∀ w s, CommandReady s → opField w = 0x00 ∨ 0x25 ≤ (opField w).toNat →
    cmdWrite w s = .next { s with
      illegalOp := true, responses := s.responses ++ [.okay],
      events := s.events ++ [.illegalOp (opField w)] }

/-- R121: what a CMD write does is the spec's dispatch over the opcode ROM of R97, in its order. The
decoder, the 37 CMD meanings and the dispatch on them agree with that table on every word and state. -/
def Obligations.CmdWriteFollowsTheDispatchOrder : Prop :=
  ∀ w s, s.pending = false →
    cmdWrite w s = .next (
      let e := rom (opField w)
      if s.initState ≠ .ready then drop .notReady s
      else if s.phase = .strWait then stringPayload (dataField w) s
      else if e.valid = false then drop (.illegalOp (opField w)) s
      else if check e.vclass (a0 w) (a1 w) = false then drop (.paramRejected (opField w)) s
      else if e.kind = .string then stringStart (lenField w) s
      else loadSequence (e.lead ++ [a0 w, a1 w, a2 w].take e.nargs)
        (if e.kind = .wake then .settle else .none) s)

/-- R96, DEDUCED (log entry 14): running an instruction is writing its word to CMD, in every state; so a
command's word in STR_WAIT is a character, and a DATA word in IDLE is a command word. -/
def Obligations.InstructionIsItsCmdWord : Prop :=
  ∀ i s, portOf i ≠ .ctrl → exec i s = cmdWrite (encode i) s

/-- R91: an argument field that a command does not use has no effect, any value gives the behaviour of 0;
and the assembler writes 0 in it. -/
def Obligations.UnusedFieldsHaveNoEffect : Prop :=
  (∀ w s, s.phase ≠ .strWait → (rom (opField w)).kind ≠ .string →
    cmdWrite w s = cmdWrite (mkWord (opField w)
      (if 1 ≤ (rom (opField w)).nargs then a0 w else 0)
      (if 2 ≤ (rom (opField w)).nargs then a1 w else 0)
      (if 3 ≤ (rom (opField w)).nargs then a2 w else 0)) s) ∧
  ∀ op args accesses, assemble (.command op args) = .ok accesses →
    ∃ w, accesses = [.write 0x00 4 w] ∧ opField w = op ∧ ((rom op).nargs < 1 → a0 w = 0) ∧
      ((rom op).nargs < 2 → a1 w = 0) ∧ ((rom op).nargs < 3 → a2 w = 0)

/-- R126, R127: each byte the Transport accepts is the next of the sequence, stamped with its cycle; after
the last one the command settles, waits for the next character, or is done. -/
def Obligations.EachAcceptedByteAdvancesTheSequence : Prop :=
  ∀ s b rest, bufferedBytes s = b :: rest → s.resetIn = false → s.txReady = true →
    ∃ t, step s = .next t ∧ t.wire = s.wire ++ [{ byte := b, cycle := s.cycle }] ∧
      (rest ≠ [] → t.phase = .emit ∧ bufferedBytes t = rest ∧ t.pending = s.pending ∧
        t.responses = s.responses) ∧
      (rest = [] → s.post = .settle → t.phase = .settle ∧ t.settleCnt = Config.settleCycles ∧
        t.pending = s.pending ∧ t.responses = s.responses) ∧
      (rest = [] → s.post = .none → s.strMode = true → s.strRemaining ≠ 0 → t.phase = .strWait ∧
        t.strMode = true ∧ t.pending = false ∧ t.responses = s.responses ++ [.okay]) ∧
      (rest = [] → s.post = .none → s.strMode = false ∨ s.strRemaining = 0 → t.phase = .idle ∧
        t.strMode = false ∧ t.pending = false ∧ t.responses = s.responses ++ [.okay])

/-- R36: while the Transport does not accept, the offered byte and `tx_valid` are held, and the cycle changes
nothing but the clock, the input pins and the one-cycle `diag_valid`. -/
def Obligations.StalledTransportHoldsTheOffer : Prop :=
  ∀ s, bufferedBytes s ≠ [] → s.resetIn = false → s.txReady = false →
    ∃ t, step s = .next t ∧ txValid t = true ∧ txData t = txData s ∧ txData t = (bufferedBytes s).head? ∧
      t = { s with diagValid := false, cycle := s.cycle + 1, resetIn := t.resetIn, txReady := t.txReady,
                   inputs := t.inputs }

/-- R410, R12 (log entry 18: the cycles of a stall are steps that leave the Engine as it is): a Transport that never accepts a byte is a hang: the write never completes, however many cycles
pass; only reset ends it. -/
def Obligations.TransportHangEndsOnlyByReset : Prop :=
  ∀ s, bufferedBytes s ≠ [] → s.txReady = false → s.inputs = [] →
    (s.resetIn = false → ∀ n, ∃ u, cycles (n + 1) s = .next u ∧
      u = { s with diagValid := false, cycle := s.cycle + (n + 1) }) ∧
    (s.resetIn = true → ∃ t, step s = .next t ∧ t.phase = .idle ∧ t.pending = false ∧ t.wire = s.wire)

/-- R128: the cycle that accepts the last byte of WAKE loads the timer, and the write stays pending. From
the next cycle on the timer goes down by one a cycle, no byte is accepted and the write stays pending,
whatever the Transport does; in the cycle where the timer reaches 0 the write completes. The window is
at least 50 ms of the clock (`CLK_HZ` a whole number of hertz: the model's choice, log entry 6). -/
def Obligations.SettleWindowHoldsTheWrite : Prop :=
  (∀ s b, bufferedBytes s = [b] → s.post = .settle → s.txReady = true → NoReset s →
    ∃ t, step s = .next t ∧ t.phase = .settle ∧ t.settleCnt = Config.settleCycles ∧
      t.wire = s.wire ++ [{ byte := b, cycle := s.cycle }] ∧ t.pending = s.pending ∧
      t.responses = s.responses ∧ NoReset t) ∧
  (∀ s, s.phase = .settle → NoReset s → 0 < s.settleCnt →
    (∀ k < s.settleCnt, ∃ u, cycles k s = .next u ∧ u.phase = .settle ∧ u.pending = s.pending ∧
      u.settleCnt = s.settleCnt - k ∧ u.wire = s.wire ∧ u.host = s.host ∧ u.responses = s.responses) ∧
    ∃ u, cycles s.settleCnt s = .next u ∧ u.phase = .idle ∧ u.pending = false ∧ u.post = .none ∧
      u.settleCnt = 0 ∧ u.wire = s.wire ∧ u.host = s.host ∧ u.responses = s.responses ++ [.okay]) ∧
  50 * Config.clkHz ≤ 1000 * Config.settleCycles

/-- R8: `SETTLE_CYCLES` cycles of the clock last at least 50 ms, whatever the clock (a whole number of hertz,
at least 1: the model's choices, log entry 6). -/
def Obligations.SettleCyclesCoverFiftyMilliseconds : Prop :=
  50 * Config.clkHz ≤ 1000 * Config.settleCycles ∧ 0 < Config.settleCycles

/-- R131: the bytes a CMD write emits depend only on its word, `init_state`, `phase` and `str_remaining`:
two states that agree on these offer the same bytes, whatever else they hold. -/
def Obligations.EmittedBytesIgnoreHistory : Prop :=
  ∀ w s₁ s₂, s₁.pending = false → s₂.pending = false → s₁.phase ≠ .emit →
    s₁.initState = s₂.initState → s₁.phase = s₂.phase → s₁.strRemaining = s₂.strRemaining →
    ∃ t₁ t₂, cmdWrite w s₁ = .next t₁ ∧ cmdWrite w s₂ = .next t₂ ∧
      bufferedBytes t₁ = bufferedBytes t₂ ∧ t₁.phase = t₂.phase ∧ t₁.strRemaining = t₂.strRemaining

/-- R132: no byte is offered, and none is accepted, unless the line is configured. -/
def Obligations.NoByteOnAnUnconfiguredLine : Prop :=
  ∀ s, EngineInv s → (txValid s = true → s.lineConfigured = true) ∧
    ∀ t, step s = .next t → t.wire ≠ s.wire → s.lineConfigured = true ∧ s.initState = .ready

/-! The validator (42_validator.md) and the ROM (R33, R97). -/

/-- R180 to R183: the bit forms are the source's sets and ranges. -/
def Obligations.ValidatorFormsAgree : Prop :=
  ∀ v : Byte,
    (validAlignment v = true ↔ v = 0x30 ∨ v = 0x31 ∨ v = 0x32) ∧
    (validUnderline v = true ↔ v = 0x00 ∨ v = 0x01 ∨ v = 0x02) ∧
    (validIndent v = true ↔ v.toNat ≤ 47) ∧
    (validHeatingTime v = true ↔ 3 ≤ v.toNat)

/-- R184: only these four checks gate a command, by its ROM entry. That the entry of a reserved code selects
no check is the model's choice (log entry 26: R33 and R97 give it `valid` = 0 only). -/
def Obligations.OnlyFourCommandsAreChecked : Prop :=
  ∀ op x y, check (rom op).vclass x y =
    (if op = 0x09 then validAlignment x
     else if op = 0x0A then validIndent x
     else if op = 0x15 then validUnderline x
     else if op = 0x1F then validHeatingTime y
     else true)

/-- R33: every valid entry fits the sequence buffer, and every entry that loads it has a byte. -/
def Obligations.RomSequencesFitTheBuffer : Prop :=
  ∀ op, (rom op).valid = true →
    (rom op).lead.length + (rom op).nargs ≤ Config.maxSeqLen ∧
    ((rom op).kind ≠ .string → 1 ≤ (rom op).lead.length + (rom op).nargs)

/-- R98: the reserved codes are 0x00 and 0x25 to 0xFF, 220 in all, and the decoder rejects exactly them. -/
def Obligations.ReservedCodesAreExactlyThese : Prop :=
  (∀ w, decode .command w = .error (.reservedCode (opField w)) ↔
    opField w = 0x00 ∨ 0x25 ≤ (opField w).toNat) ∧
  ((List.range 256).filter (fun n => (rom (BitVec.ofNat 8 n)).valid = false)).length = 220

/-! The register window (20_memory.md) and STATUS (10_state.md). -/

/-- R66: a read of any register gives its value and has no side effect; CMD reads 0. -/
def Obligations.ReadsHaveNoSideEffect : Prop :=
  ∀ r s, s.pending = false →
    ∃ t, memRead (offsetOf r) 4 s = .next t ∧
      t = { s with responses := s.responses ++ [.value (regValue r s)] } ∧
      (∀ q, regValue q t = regValue q s) ∧ regValue .cmd s = 0

/-- R25: the fields of STATUS by bit position. -/
def Obligations.StatusFieldsReadTheState : Prop :=
  ∀ s, (statusWord s).extractLsb' 0 2 =
      (match s.initState with | .uninit => 0#2 | .ready => 1#2 | .wiringError => 2#2) ∧
    ((statusWord s).getLsbD 2 = true ↔ s.phase = .emit ∨ s.phase = .settle) ∧
    ((statusWord s).getLsbD 3 = true ↔ s.phase = .settle) ∧
    (statusWord s).getLsbD 4 = s.strMode ∧
    (statusWord s).getLsbD 8 = s.illegalOp ∧
    (statusWord s).getLsbD 9 = s.notReady ∧
    ∀ k, (5 ≤ k ∧ k ≤ 7) ∨ 10 ≤ k → (statusWord s).getLsbD k = false

/-- R26: a STATUS write clears the sticky bits written as 1 and changes nothing else; no step without
reset clears a sticky bit in another way; and no STATUS bit records a validation failure. -/
def Obligations.StickyBitsAreClearedByWritingOne : Prop :=
  (∀ v s, s.pending = false →
    memWrite 0x08 4 v s = .next { s with
      illegalOp := s.illegalOp && !v.getLsbD 8, notReady := s.notReady && !v.getLsbD 9,
      responses := s.responses ++ [.okay] }) ∧
  (∀ s t, step s = .next t → s.resetIn = false →
    (s.illegalOp = true → t.illegalOp = false →
      ∃ v rest, s.host = .write 0x08 4 v :: rest ∧ v.getLsbD 8 = true) ∧
    (s.notReady = true → t.notReady = false →
      ∃ v rest, s.host = .write 0x08 4 v :: rest ∧ v.getLsbD 9 = true)) ∧
  ∀ w s, CommandReady s → (rom (opField w)).valid = true →
    check (rom (opField w)).vclass (a0 w) (a1 w) = false →
    ∃ t, cmdWrite w s = .next t ∧ statusWord t = statusWord s

/-- R27: LINECFG reads 0 before a successful INIT and 0x04B00807 after it; a write is ignored. -/
def Obligations.LinecfgReadsTheFraming : Prop :=
  (∀ s, EngineInv s → linecfgWord s = if s.lineConfigured then 0x04B00807 else 0) ∧
  ∀ v s, s.pending = false →
    memWrite 0x0C 4 v s = .next { s with responses := s.responses ++ [.okay] }

/-- R28: STRCNT reads `str_remaining` in its low 24 bits and 0 above; a write is ignored. -/
def Obligations.StrcntReadsTheCount : Prop :=
  (∀ s, (strcntWord s).extractLsb' 0 24 = s.strRemaining ∧ (strcntWord s).extractLsb' 24 8 = 0) ∧
  (∀ s, s.pending = false →
    memRead 0x10 4 s = .next { s with responses := s.responses ++ [.value (strcntWord s)] }) ∧
  ∀ v s, s.pending = false →
    memWrite 0x10 4 v s = .next { s with responses := s.responses ++ [.okay] }

/-- R62, R404: an access that is not 32 bits wide or not at a multiple of 4 gets the bus error response
and changes no CFE state. -/
def Obligations.IllegalAccessFormsAreBusErrors : Prop :=
  ∀ offset bytes v s, s.pending = false → offset < 0x14 → bytes ≠ 4 ∨ offset % 4 ≠ 0 →
    memWrite offset bytes v s = .next { s with
      responses := s.responses ++ [.busError], events := s.events ++ [.busError] } ∧
    memRead offset bytes s = .next { s with
      responses := s.responses ++ [.busError], events := s.events ++ [.busError] }

/-- R61 and log entry 11: an access beyond offset 0x13 is not the CFE's and changes nothing of it. -/
def Obligations.AccessesBeyondTheWindowAreNotTheEngines : Prop :=
  ∀ offset bytes v s, s.pending = false → 0x14 ≤ offset →
    memWrite offset bytes v s = .next { s with responses := s.responses ++ [.platform] } ∧
    memRead offset bytes s = .next { s with responses := s.responses ++ [.platform] }

/-- R63: byte lane k carries bits [8k+7:8k]. -/
def Obligations.ByteLanesAreLittleEndian : Prop :=
  ∀ w, wordOfLanes (lanesOfWord w) = some w ∧
    ∀ k < 4, (lanesOfWord w)[k]? = some (w.extractLsb' (8 * k) 8)

/-- R34: while a CMD write is pending the host issues no access: its next moves stay as they are, and it
gets no response but the OKAY that ends the wait. -/
def Obligations.HostWaitsWhileItsWriteIsPending : Prop :=
  ∀ s t, step s = .next t → s.pending = true → s.resetIn = false →
    t.host = s.host ∧
    (t.pending = true ∧ t.responses = s.responses ∨
     t.pending = false ∧ t.responses = s.responses ++ [.okay])

/-- 93 item 23 and log entry 9: the model gives the host no access while its write is pending. -/
def Obligations.AccessWhilePendingIsRefused : Prop :=
  ∀ i s, s.pending = true → exec i s = .refused .accessWhilePending

/-! The whole machine. -/

/-- Step and decode: when the host's next move is a CMD or CTRL write whose word decodes to `i`, the step
is `exec` of `i` in the state with the move taken and the one-cycle `diag_valid` low, followed by the end
of the cycle (the clock and the input pins). -/
def Obligations.StepRunsTheDecodedInstruction : Prop :=
  ∀ s i rest w, s.resetIn = false → s.pending = false → s.phase = .idle ∨ s.phase = .strWait →
    (s.host = .write 0x00 4 w :: rest → decode (cmdPort s.phase) w = .ok i →
      step s = andThen (exec i { s with diagValid := false, host := rest }) endCycle) ∧
    (s.host = .write 0x04 4 w :: rest → decode .ctrl w = .ok i →
      step s = andThen (exec i { s with diagValid := false, host := rest }) endCycle)

/-- R90, R93, R95: words written out from the spec's encodings decode to their instructions. -/
def Obligations.WordsDecodeToTheirInstructions : Prop :=
  decode .command 0x00000503 = .ok (.feedDots 5) ∧
  decode .command 0x00003109 = .ok (.align 0x31) ∧
  decode .command 0x0000000D = .ok .boldOn ∧
  decode .command 0xFAFF141F = .ok (.printSettings 0x14 0xFF 0xFA) ∧
  decode .command 0x00000624 = .ok (.writeString 6) ∧
  decode .payload 0xFFFFFF1B = .ok (.data 0x1B) ∧
  decode .ctrl 0x00000110 = .ok (.init 16)

/-- Decoding the encoding of an instruction gives it back, with every operand, on its own port, from the
word and from its byte lanes. -/
def Obligations.DecodeOfEncodeIsTheInstruction : Prop :=
  ∀ i, decode (portOf i) (encode i) = .ok i ∧ decodeLanes (portOf i) (lanesOfWord (encode i)) = .ok i

/-- R22: without reset, `init_state` leaves UNINIT only by an INIT write, to READY on a match and to
WIRING_ERROR on a mismatch, and leaves READY and WIRING_ERROR never; reset gives UNINIT. STATUS.STATE
shows it. -/
def Obligations.InitStateChangesOnlyByInitAndReset : Prop :=
  (∀ s, (statusWord s).extractLsb' 0 2 =
    (match s.initState with | .uninit => 0#2 | .ready => 1#2 | .wiringError => 2#2)) ∧
  ∀ s t, step s = .next t →
    (s.resetIn = true → t.initState = .uninit) ∧
    (s.resetIn = false → s.initState = .ready → t.initState = .ready) ∧
    (s.resetIn = false → s.initState = .wiringError → t.initState = .wiringError) ∧
    (s.resetIn = false → s.initState = .uninit → t.initState = .uninit ∨
      ∃ v rest, s.host = .write 0x04 4 v :: rest ∧ v.getLsbD 8 = true ∧
        t.initState = if v.extractLsb' 0 8 = Config.requiredRxPin then .ready else .wiringError)

/-- R164: the diagnostic outputs are high after a step exactly when that step was a wiring mismatch, so for
one cycle; the event is severity 2 and code 0x01, and the sink receives it then and no other. -/
def Obligations.OnlyTheMismatchIsReported : Prop :=
  ∀ s t, step s = .next t →
    (t.diagValid = true ↔ s.resetIn = false ∧ s.initState = .uninit ∧ t.initState = .wiringError) ∧
    (t.diagValid = true → diagOut t = some { sev := 2, code := 0x01 } ∧
      t.diagLog = s.diagLog ++ [{ sev := 2, code := 0x01 }]) ∧
    (t.diagValid = false → diagOut t = none ∧ t.diagLog = s.diagLog)

/-- R342: without reset, `str_remaining` changes only by a header's load while no character is expected, and
by one down for a payload word while it is not 0. -/
def Obligations.StringCounterNeverWraps : Prop :=
  ∀ s t, EngineInv s → step s = .next t → s.resetIn = false → t.strRemaining ≠ s.strRemaining →
    (s.strRemaining = 0 ∧ ∃ w rest, s.host = .write 0x00 4 w :: rest ∧ opField w = 0x24 ∧
      t.strRemaining = lenField w) ∨
    (s.phase = .strWait ∧ s.strRemaining.toNat = t.strRemaining.toNat + 1)

/-- R42, R450: in a cycle with the reset input asserted every state element takes the value R42 gives it. The
last three clauses are the model's: that reset wins over an acceptance in its cycle, so that the wire stays as
it was, and that the host issues nothing, are log entry 15 (DESIGN CHOICE); that an abandoned write gets no
response is log entry 16 (DEDUCED, after R451). -/
def Obligations.ResetPutsEveryElement : Prop :=
  ∀ s, s.resetIn = true → ∃ t, step s = .next t ∧
    t.initState = .uninit ∧ t.phase = .idle ∧ t.rxPin = 0 ∧ t.illegalOp = false ∧ t.notReady = false ∧
    t.strRemaining = 0 ∧ t.strMode = false ∧ t.seqLen = 0 ∧ t.seqIdx = 0 ∧ t.post = .none ∧
    t.settleCnt = 0 ∧ t.pending = false ∧ t.lineConfigured = false ∧ t.pinBound = false ∧
    t.diagValid = false ∧ txValid t = false ∧ pinBindEn t = false ∧
    statusWord t = 0 ∧ ctrlWord t = 0 ∧ linecfgWord t = 0 ∧ strcntWord t = 0 ∧
    t.wire = s.wire ∧ t.responses = s.responses ∧ t.host = s.host

/-- The invariants of R41 hold after reset. -/
def Obligations.InvariantHoldsAtReset : Prop := EngineInv State.reset

/-- R41: every step keeps the invariants, from every state that has them. -/
def Obligations.InvariantKeptByEveryStep : Prop :=
  ∀ s t, EngineInv s → step s = .next t → EngineInv t

/-- From every state with the invariants a step answers a next state: no fault and no refusal. -/
def Obligations.StepIsSafeUnderTheInvariant : Prop := ∀ s, EngineInv s → StepSafe s

/-- R70, R130: no step without reset changes what the wire will have carried once the command in progress
and the host's moves are done: whatever the Transport does, bytes are neither dropped, added nor
reordered, and the bytes are those of the host's writes in order. -/
def Obligations.StepKeepsThePromisedWire : Prop :=
  ∀ s t, EngineInv s → s.resetIn = false → step s = .next t → promisedWire t = promisedWire s

/-- R69, R130: with a Transport that accepts every byte at once, every host program runs to its end within
a bounded number of cycles, and the wire then carries exactly what it promised. The bound rests on one cycle
for each Engine action, the model's choice (log entry 1; R462 fixes no latency). -/
def Obligations.HostProgramsRunToTheirEnd : Prop :=
  ∀ s, EngineInv s → AlwaysReady s →
    ∃ n u, n ≤ (s.host.length + 1) * (Config.settleCycles + 6) ∧ cycles n s = .next u ∧ Drained u ∧
      wireBytes u = promisedWire s

/-! The assembler (30_encoding.md, 47_facade.md). -/

/-- R360, R361, R363 to R366: the pseudo-instructions expand to these accesses, and the operands these
rules refuse are refused. -/
def Obligations.PseudoInstructionsExpand : Prop :=
  assemble .defaultPrintSettings = .ok [.write 0x00 4 0xFAFF141F] ∧
  assemble .preventSleep = .ok [.write 0x00 4 0x00000020] ∧
  (∀ t, assemble (.toggle t 1) = .ok [.write 0x00 4 (match t with
      | .bold => 0x0D | .doubleWidth => 0x0F | .updown => 0x11 | .reverse => 0x13
      | .userChars => 0x16 | .panelKey => 0x1A | .onlineState => 0x05)] ∧
    assemble (.toggle t 0) = .ok [.write 0x00 4 (match t with
      | .bold => 0x0E | .doubleWidth => 0x10 | .updown => 0x12 | .reverse => 0x14
      | .userChars => 0x17 | .panelKey => 0x1B | .onlineState => 0x06)]) ∧
  (∀ (t : Toggle) (x : Int), x ≠ 0 → x ≠ 1 → assemble (.toggle t x) = .error .operandRefused) ∧
  (∀ level < 32, ∀ brk < 8, assemble (.setDensity (Int.ofNat level) (Int.ofNat brk)) =
    .ok [.write 0x00 4 (BitVec.ofNat 32 ((brk * 32 + level) * 256 + 0x21))]) ∧
  (∀ level brk : Int, level < 0 ∨ 31 < level ∨ brk < 0 ∨ 7 < brk →
    assemble (.setDensity level brk) = .error .operandRefused) ∧
  (∀ h < 16, ∀ w < 16, assemble (.enlargeHw (Int.ofNat h) (Int.ofNat w)) =
    .ok [.write 0x00 4 (BitVec.ofNat 32 ((w * 16 + h) * 256 + 0x0C))]) ∧
  (∀ h w : Int, h < 0 ∨ 15 < h ∨ w < 0 ∨ 15 < w →
    assemble (.enlargeHw h w) = .error .operandRefused) ∧
  ∀ fs, assemble (.printModeFlags fs) = .ok [.write 0x00 4 (mkWord 0x0B (fs.foldl (fun v f => v ||| pmValue f) 0) 0 0)]

/-- R101: an operand that does not fit its field is refused, never truncated; operands that fit are placed
unchanged, with 0 in the unused fields. -/
def Obligations.AssemblerRefusesAndNeverTruncates : Prop :=
  (∀ op (args : List Int), (∃ n ∈ args, n < 0 ∨ 255 < n) →
    assemble (.command op args) = .error .operandRefused) ∧
  (∀ n : Int, n < 0 ∨ 255 < n → assemble (.init n) = .error .operandRefused ∧
    assemble (.setPin n) = .error .operandRefused ∧ assemble (.data n) = .error .operandRefused) ∧
  (∀ n : Int, n < 0 ∨ 16777215 < n → assemble (.writeStringHdr n) = .error .operandRefused) ∧
  (∀ op (args : List Nat), (∀ n ∈ args, n ≤ 255) → (rom op).valid = true → (rom op).kind ≠ .string →
    args.length = (rom op).nargs →
    assemble (.command op (args.map Int.ofNat)) = .ok [.write 0x00 4 (mkWord op
      (BitVec.ofNat 8 (args.getD 0 0)) (BitVec.ofNat 8 (args.getD 1 0)) (BitVec.ofNat 8 (args.getD 2 0)))]) ∧
  (∀ n : Nat, n ≤ 255 →
    assemble (.init (Int.ofNat n)) = .ok [.write 0x04 4 (BitVec.ofNat 32 (0x100 + n))] ∧
    assemble (.setPin (Int.ofNat n)) = .ok [.write 0x04 4 (BitVec.ofNat 32 n)] ∧
    assemble (.data (Int.ofNat n)) = .ok [.write 0x00 4 (BitVec.ofNat 32 n)]) ∧
  ∀ n : Nat, n ≤ 16777215 →
    assemble (.writeStringHdr (Int.ofNat n)) = .ok [.write 0x00 4 (BitVec.ofNat 32 (n * 256 + 0x24))]

/-- R362: `WRITE_STRING "s"` is the header with its length and one payload word a byte, and a character that
is not printable is refused. -/
def Obligations.StringStatementExpands : Prop :=
  (∀ items : List StrItem, items.all StrItem.wf = true → items.length < 2 ^ 24 →
    assemble (.writeString items) = .ok (.write 0x00 4 (BitVec.ofNat 32 (items.length * 256 + 0x24)) ::
      items.map (fun x => .write 0x00 4 (BitVec.setWidth 32 (itemByte x))))) ∧
  (∀ items : List StrItem, items.all StrItem.wf = false →
    assemble (.writeString items) = .error .operandRefused) ∧
  assemble (.writeString ("Hello!".toList.map .char)) =
    .ok ([0x00000624, 0x00000048, 0x00000065, 0x0000006C, 0x0000006C, 0x0000006F, 0x00000021].map
      (fun w => .write 0x00 4 w))
end

