-- ==== Sys2Proof/Laws/Fields.lean ====
section
/-! SUPPORT. The fields of a word: each field of a word put together from its fields is that field. -/

namespace Sys2Proof.Laws
open Sys2Proof.Machine

/-- A byte field is a byte if its bits are. -/
theorem field_of_bits {n : Nat} (v : Byte) (w : BitVec n) (k : Nat)
    (h : ∀ i, i < 8 → w.getLsbD (k + i) = v.getLsbD i) : w.extractLsb' k 8 = v := by
  apply BitVec.eq_of_getLsbD_eq
  intro i hi
  simp [hi, h i hi]

/-- Each bit of a command word comes from one of its four fields. -/
theorem mkWord_bit (op x y z : Byte) (i : Nat) : (mkWord op x y z).getLsbD i =
    (if i < 8 then op.getLsbD i else if i < 16 then x.getLsbD (i - 8)
     else if i < 24 then y.getLsbD (i - 16) else z.getLsbD (i - 24)) := by
  simp only [mkWord, zext, BitVec.getLsbD_or, BitVec.getLsbD_shiftLeft, BitVec.getLsbD_setWidth]
  split
  · next h => simp [show i < 32 by omega, h, show i < 16 by omega, show i < 24 by omega]
  · next h =>
    rw [BitVec.getLsbD_of_ge op i (by omega)]
    split
    · next h1 => simp [show i < 32 by omega, h, h1, show i < 24 by omega, show i - 8 < 32 by omega]
    · next h1 =>
      rw [BitVec.getLsbD_of_ge x (i - 8) (by omega)]
      split
      · next h2 => simp [show i < 32 by omega, h1, h2, show i - 16 < 32 by omega]
      · next h2 =>
        rw [BitVec.getLsbD_of_ge y (i - 16) (by omega)]
        by_cases h3 : i < 32
        · simp [h3, h2, show i - 24 < 32 by omega]
        · simp [h3, BitVec.getLsbD_of_ge z (i - 24) (by omega)]

@[simp] theorem opField_mkWord (op x y z : Byte) : opField (mkWord op x y z) = op :=
  field_of_bits _ _ 0 fun i hi => by simp [mkWord_bit, hi]

@[simp] theorem a0_mkWord (op x y z : Byte) : a0 (mkWord op x y z) = x :=
  field_of_bits _ _ 8 fun i hi => by simp [mkWord_bit, show 8 + i < 16 by omega]

@[simp] theorem a1_mkWord (op x y z : Byte) : a1 (mkWord op x y z) = y :=
  field_of_bits _ _ 16 fun i hi => by
    simp [mkWord_bit, show ¬ 16 + i < 8 by omega, show 16 + i < 24 by omega]

@[simp] theorem a2_mkWord (op x y z : Byte) : a2 (mkWord op x y z) = z :=
  field_of_bits _ _ 24 fun i hi => by
    simp [mkWord_bit, show ¬ 24 + i < 8 by omega, show ¬ 24 + i < 16 by omega]

/-- A word is put together from its four fields. -/

@[simp] theorem mkWord_fields (w : Word) : mkWord (opField w) (a0 w) (a1 w) (a2 w) = w := by
  apply BitVec.eq_of_getLsbD_eq
  intro i hi
  rw [mkWord_bit]
  simp only [opField, a0, a1, a2, BitVec.getLsbD_extractLsb']
  split
  · next h => simp [h]
  · split
    · next h1 h2 => simp [show i - 8 < 8 by omega, show 8 + (i - 8) = i by omega]
    · split
      · next h1 h2 => simp [show i - 16 < 8 by omega, show 16 + (i - 16) = i by omega]
      · next h1 h2 => simp [show i - 24 < 8 by omega, show 24 + (i - 24) = i by omega]

/-- Each bit of a string header comes from the code 0x24 or from L. -/
theorem headerWord_bit (l : StrLen) (i : Nat) : (zext l <<< 8 ||| 0x24#32).getLsbD i =
    (if i < 8 then (0x24#32).getLsbD i else l.getLsbD (i - 8)) := by
  simp only [zext, BitVec.getLsbD_or, BitVec.getLsbD_shiftLeft, BitVec.getLsbD_setWidth]
  split
  · next h => simp [h]
  · next h =>
    have : (0x24#32).getLsbD i = false := by
      by_cases h3 : i < 32
      · interval_cases i <;> first | omega | decide
      · exact BitVec.getLsbD_of_ge _ _ (by omega)
    rw [this]
    by_cases h3 : i < 32
    · simp [h3, h, show i - 8 < 32 by omega]
    · simp [h3, BitVec.getLsbD_of_ge l (i - 8) (by omega)]

@[simp] theorem opField_header (l : StrLen) : opField (zext l <<< 8 ||| 0x24#32) = 0x24 :=
  field_of_bits _ _ 0 fun i hi => by
    simp only [headerWord_bit, Nat.zero_add, hi, if_true]
    interval_cases i <;> decide

@[simp] theorem lenField_header (l : StrLen) : lenField (zext l <<< 8 ||| 0x24#32) = l := by
  apply BitVec.eq_of_getLsbD_eq
  intro i hi
  simp only [lenField, BitVec.getLsbD_extractLsb', headerWord_bit]
  simp [hi]

@[simp] theorem dataField_zext (b : Byte) : dataField (zext b) = b :=
  field_of_bits _ _ 0 fun i hi => by simp [zext]; omega

@[simp] theorem pinField_init (p : Byte) : pinField (0x100#32 ||| zext p) = p :=
  field_of_bits _ _ 0 fun i hi => by
    simp only [zext, BitVec.getLsbD_or, BitVec.getLsbD_setWidth]
    interval_cases i <;> simp

@[simp] theorem initField_init (p : Byte) : initField (0x100#32 ||| zext p) = true := by
  simp [initField]

/-- The mask 0xFF keeps exactly the low eight bits. -/
theorem low_byte_mask (i : Nat) : (0xFF#32).getLsbD i = decide (i < 8) := by
  by_cases h : i < 32
  · interval_cases i <;> decide
  · rw [BitVec.getLsbD_of_ge _ _ (by omega)]
    simp
    omega

/-- A byte extended to a word has no bit above its eight. -/
theorem high_bits_of_byte (b : Byte) (i : Nat) (h : 8 ≤ i) : (zext b).getLsbD i = false := by
  simp [zext, BitVec.getLsbD_of_ge b i h]

/-- A command word under the mask 0xFF is its command code. -/
theorem mkWord_low (op x y z : Byte) : mkWord op x y z &&& 0xFF#32 = zext op := by
  apply BitVec.eq_of_getLsbD_eq
  intro i hi
  rw [BitVec.getLsbD_and, low_byte_mask, mkWord_bit]
  by_cases h : i < 8
  · simp [h, zext, hi]
  · simp [h, high_bits_of_byte op i (by omega)]

/-- A string header under the mask 0xFF is its command code. -/
theorem header_low (l : StrLen) : (zext l <<< 8 ||| 0x24#32) &&& 0xFF#32 = 0x24#32 := by
  apply BitVec.eq_of_getLsbD_eq
  intro i hi
  rw [BitVec.getLsbD_and, low_byte_mask, headerWord_bit]
  by_cases h : i < 8
  · simp [h]
  · have : (0x24#32).getLsbD i = false := by interval_cases i <;> first | omega | decide
    simp only [h, this, decide_false, Bool.and_false]

end Sys2Proof.Laws
end

