-- ==== Sys2Proof/Laws/State.lean ====
section
/-! SUPPORT. One lemma per field per update: what each shared update of the state does to each field. -/

namespace Sys2Proof.Laws

open Sys2Proof.Machine

@[simp] theorem respond_initState (r : Response) (s : State) : (respond r s).initState = s.initState := rfl
@[simp] theorem respond_phase (r : Response) (s : State) : (respond r s).phase = s.phase := rfl
@[simp] theorem respond_rxPin (r : Response) (s : State) : (respond r s).rxPin = s.rxPin := rfl
@[simp] theorem respond_illegalOp (r : Response) (s : State) : (respond r s).illegalOp = s.illegalOp := rfl
@[simp] theorem respond_notReady (r : Response) (s : State) : (respond r s).notReady = s.notReady := rfl
@[simp] theorem respond_seqBuf (r : Response) (s : State) : (respond r s).seqBuf = s.seqBuf := rfl
@[simp] theorem respond_seqLen (r : Response) (s : State) : (respond r s).seqLen = s.seqLen := rfl
@[simp] theorem respond_seqIdx (r : Response) (s : State) : (respond r s).seqIdx = s.seqIdx := rfl
@[simp] theorem respond_post (r : Response) (s : State) : (respond r s).post = s.post := rfl
@[simp] theorem respond_strMode (r : Response) (s : State) : (respond r s).strMode = s.strMode := rfl
@[simp] theorem respond_strRemaining (r : Response) (s : State) : (respond r s).strRemaining = s.strRemaining := rfl
@[simp] theorem respond_settleCnt (r : Response) (s : State) : (respond r s).settleCnt = s.settleCnt := rfl
@[simp] theorem respond_pending (r : Response) (s : State) : (respond r s).pending = s.pending := rfl
@[simp] theorem respond_lineConfigured (r : Response) (s : State) : (respond r s).lineConfigured = s.lineConfigured := rfl
@[simp] theorem respond_pinBound (r : Response) (s : State) : (respond r s).pinBound = s.pinBound := rfl
@[simp] theorem respond_pinBindPin (r : Response) (s : State) : (respond r s).pinBindPin = s.pinBindPin := rfl
@[simp] theorem respond_pinBindFunc (r : Response) (s : State) : (respond r s).pinBindFunc = s.pinBindFunc := rfl
@[simp] theorem respond_diagValid (r : Response) (s : State) : (respond r s).diagValid = s.diagValid := rfl
@[simp] theorem respond_diagSev (r : Response) (s : State) : (respond r s).diagSev = s.diagSev := rfl
@[simp] theorem respond_diagCode (r : Response) (s : State) : (respond r s).diagCode = s.diagCode := rfl
@[simp] theorem respond_resetIn (r : Response) (s : State) : (respond r s).resetIn = s.resetIn := rfl
@[simp] theorem respond_txReady (r : Response) (s : State) : (respond r s).txReady = s.txReady := rfl
@[simp] theorem respond_inputs (r : Response) (s : State) : (respond r s).inputs = s.inputs := rfl
@[simp] theorem respond_host (r : Response) (s : State) : (respond r s).host = s.host := rfl
@[simp] theorem respond_cycle (r : Response) (s : State) : (respond r s).cycle = s.cycle := rfl
@[simp] theorem respond_wire (r : Response) (s : State) : (respond r s).wire = s.wire := rfl
@[simp] theorem respond_diagLog (r : Response) (s : State) : (respond r s).diagLog = s.diagLog := rfl
@[simp] theorem respond_responses (r : Response) (s : State) : (respond r s).responses = s.responses ++ [r] := rfl
@[simp] theorem respond_events (r : Response) (s : State) : (respond r s).events = s.events := rfl

@[simp] theorem complete_initState (s : State) : (complete s).initState = s.initState := rfl
@[simp] theorem complete_phase (s : State) : (complete s).phase = s.phase := rfl
@[simp] theorem complete_rxPin (s : State) : (complete s).rxPin = s.rxPin := rfl
@[simp] theorem complete_illegalOp (s : State) : (complete s).illegalOp = s.illegalOp := rfl
@[simp] theorem complete_notReady (s : State) : (complete s).notReady = s.notReady := rfl
@[simp] theorem complete_seqBuf (s : State) : (complete s).seqBuf = s.seqBuf := rfl
@[simp] theorem complete_seqLen (s : State) : (complete s).seqLen = s.seqLen := rfl
@[simp] theorem complete_seqIdx (s : State) : (complete s).seqIdx = s.seqIdx := rfl
@[simp] theorem complete_post (s : State) : (complete s).post = s.post := rfl
@[simp] theorem complete_strMode (s : State) : (complete s).strMode = s.strMode := rfl
@[simp] theorem complete_strRemaining (s : State) : (complete s).strRemaining = s.strRemaining := rfl
@[simp] theorem complete_settleCnt (s : State) : (complete s).settleCnt = s.settleCnt := rfl
@[simp] theorem complete_pending (s : State) : (complete s).pending = false := rfl
@[simp] theorem complete_lineConfigured (s : State) : (complete s).lineConfigured = s.lineConfigured := rfl
@[simp] theorem complete_pinBound (s : State) : (complete s).pinBound = s.pinBound := rfl
@[simp] theorem complete_pinBindPin (s : State) : (complete s).pinBindPin = s.pinBindPin := rfl
@[simp] theorem complete_pinBindFunc (s : State) : (complete s).pinBindFunc = s.pinBindFunc := rfl
@[simp] theorem complete_diagValid (s : State) : (complete s).diagValid = s.diagValid := rfl
@[simp] theorem complete_diagSev (s : State) : (complete s).diagSev = s.diagSev := rfl
@[simp] theorem complete_diagCode (s : State) : (complete s).diagCode = s.diagCode := rfl
@[simp] theorem complete_resetIn (s : State) : (complete s).resetIn = s.resetIn := rfl
@[simp] theorem complete_txReady (s : State) : (complete s).txReady = s.txReady := rfl
@[simp] theorem complete_inputs (s : State) : (complete s).inputs = s.inputs := rfl
@[simp] theorem complete_host (s : State) : (complete s).host = s.host := rfl
@[simp] theorem complete_cycle (s : State) : (complete s).cycle = s.cycle := rfl
@[simp] theorem complete_wire (s : State) : (complete s).wire = s.wire := rfl
@[simp] theorem complete_diagLog (s : State) : (complete s).diagLog = s.diagLog := rfl
@[simp] theorem complete_responses (s : State) : (complete s).responses = s.responses ++ [.okay] := rfl
@[simp] theorem complete_events (s : State) : (complete s).events = s.events := rfl

@[simp] theorem report_initState (v : BitVec 2) (c : Byte) (s : State) : (report v c s).initState = s.initState := rfl
@[simp] theorem report_phase (v : BitVec 2) (c : Byte) (s : State) : (report v c s).phase = s.phase := rfl
@[simp] theorem report_rxPin (v : BitVec 2) (c : Byte) (s : State) : (report v c s).rxPin = s.rxPin := rfl
@[simp] theorem report_illegalOp (v : BitVec 2) (c : Byte) (s : State) : (report v c s).illegalOp = s.illegalOp := rfl
@[simp] theorem report_notReady (v : BitVec 2) (c : Byte) (s : State) : (report v c s).notReady = s.notReady := rfl
@[simp] theorem report_seqBuf (v : BitVec 2) (c : Byte) (s : State) : (report v c s).seqBuf = s.seqBuf := rfl
@[simp] theorem report_seqLen (v : BitVec 2) (c : Byte) (s : State) : (report v c s).seqLen = s.seqLen := rfl
@[simp] theorem report_seqIdx (v : BitVec 2) (c : Byte) (s : State) : (report v c s).seqIdx = s.seqIdx := rfl
@[simp] theorem report_post (v : BitVec 2) (c : Byte) (s : State) : (report v c s).post = s.post := rfl
@[simp] theorem report_strMode (v : BitVec 2) (c : Byte) (s : State) : (report v c s).strMode = s.strMode := rfl
@[simp] theorem report_strRemaining (v : BitVec 2) (c : Byte) (s : State) : (report v c s).strRemaining = s.strRemaining := rfl
@[simp] theorem report_settleCnt (v : BitVec 2) (c : Byte) (s : State) : (report v c s).settleCnt = s.settleCnt := rfl
@[simp] theorem report_pending (v : BitVec 2) (c : Byte) (s : State) : (report v c s).pending = s.pending := rfl
@[simp] theorem report_lineConfigured (v : BitVec 2) (c : Byte) (s : State) : (report v c s).lineConfigured = s.lineConfigured := rfl
@[simp] theorem report_pinBound (v : BitVec 2) (c : Byte) (s : State) : (report v c s).pinBound = s.pinBound := rfl
@[simp] theorem report_pinBindPin (v : BitVec 2) (c : Byte) (s : State) : (report v c s).pinBindPin = s.pinBindPin := rfl
@[simp] theorem report_pinBindFunc (v : BitVec 2) (c : Byte) (s : State) : (report v c s).pinBindFunc = s.pinBindFunc := rfl
@[simp] theorem report_diagValid (v : BitVec 2) (c : Byte) (s : State) : (report v c s).diagValid = true := rfl
@[simp] theorem report_diagSev (v : BitVec 2) (c : Byte) (s : State) : (report v c s).diagSev = v := rfl
@[simp] theorem report_diagCode (v : BitVec 2) (c : Byte) (s : State) : (report v c s).diagCode = c := rfl
@[simp] theorem report_resetIn (v : BitVec 2) (c : Byte) (s : State) : (report v c s).resetIn = s.resetIn := rfl
@[simp] theorem report_txReady (v : BitVec 2) (c : Byte) (s : State) : (report v c s).txReady = s.txReady := rfl
@[simp] theorem report_inputs (v : BitVec 2) (c : Byte) (s : State) : (report v c s).inputs = s.inputs := rfl
@[simp] theorem report_host (v : BitVec 2) (c : Byte) (s : State) : (report v c s).host = s.host := rfl
@[simp] theorem report_cycle (v : BitVec 2) (c : Byte) (s : State) : (report v c s).cycle = s.cycle := rfl
@[simp] theorem report_wire (v : BitVec 2) (c : Byte) (s : State) : (report v c s).wire = s.wire := rfl
@[simp] theorem report_diagLog (v : BitVec 2) (c : Byte) (s : State) : (report v c s).diagLog = s.diagLog ++ [{ sev := v, code := c }] := rfl
@[simp] theorem report_responses (v : BitVec 2) (c : Byte) (s : State) : (report v c s).responses = s.responses := rfl
@[simp] theorem report_events (v : BitVec 2) (c : Byte) (s : State) : (report v c s).events = s.events := rfl

@[simp] theorem raise_phase (e : Event) (s : State) : (raise e s).phase = s.phase := by cases e <;> rfl
@[simp] theorem raise_rxPin (e : Event) (s : State) : (raise e s).rxPin = s.rxPin := by cases e <;> rfl
@[simp] theorem raise_seqBuf (e : Event) (s : State) : (raise e s).seqBuf = s.seqBuf := by cases e <;> rfl
@[simp] theorem raise_seqLen (e : Event) (s : State) : (raise e s).seqLen = s.seqLen := by cases e <;> rfl
@[simp] theorem raise_seqIdx (e : Event) (s : State) : (raise e s).seqIdx = s.seqIdx := by cases e <;> rfl
@[simp] theorem raise_post (e : Event) (s : State) : (raise e s).post = s.post := by cases e <;> rfl
@[simp] theorem raise_strMode (e : Event) (s : State) : (raise e s).strMode = s.strMode := by cases e <;> rfl
@[simp] theorem raise_strRemaining (e : Event) (s : State) : (raise e s).strRemaining = s.strRemaining := by cases e <;> rfl
@[simp] theorem raise_settleCnt (e : Event) (s : State) : (raise e s).settleCnt = s.settleCnt := by cases e <;> rfl
@[simp] theorem raise_pending (e : Event) (s : State) : (raise e s).pending = s.pending := by cases e <;> rfl
@[simp] theorem raise_lineConfigured (e : Event) (s : State) : (raise e s).lineConfigured = s.lineConfigured := by cases e <;> rfl
@[simp] theorem raise_pinBound (e : Event) (s : State) : (raise e s).pinBound = s.pinBound := by cases e <;> rfl
@[simp] theorem raise_pinBindPin (e : Event) (s : State) : (raise e s).pinBindPin = s.pinBindPin := by cases e <;> rfl
@[simp] theorem raise_pinBindFunc (e : Event) (s : State) : (raise e s).pinBindFunc = s.pinBindFunc := by cases e <;> rfl
@[simp] theorem raise_resetIn (e : Event) (s : State) : (raise e s).resetIn = s.resetIn := by cases e <;> rfl
@[simp] theorem raise_txReady (e : Event) (s : State) : (raise e s).txReady = s.txReady := by cases e <;> rfl
@[simp] theorem raise_inputs (e : Event) (s : State) : (raise e s).inputs = s.inputs := by cases e <;> rfl
@[simp] theorem raise_host (e : Event) (s : State) : (raise e s).host = s.host := by cases e <;> rfl
@[simp] theorem raise_cycle (e : Event) (s : State) : (raise e s).cycle = s.cycle := by cases e <;> rfl
@[simp] theorem raise_wire (e : Event) (s : State) : (raise e s).wire = s.wire := by cases e <;> rfl
@[simp] theorem raise_responses (e : Event) (s : State) : (raise e s).responses = s.responses := by cases e <;> rfl
@[simp] theorem raise_events (e : Event) (s : State) : (raise e s).events = s.events ++ [e] := by cases e <;> rfl

@[simp] theorem drop_phase (e : Event) (s : State) : (drop e s).phase = s.phase := by cases e <;> rfl
@[simp] theorem drop_rxPin (e : Event) (s : State) : (drop e s).rxPin = s.rxPin := by cases e <;> rfl
@[simp] theorem drop_seqBuf (e : Event) (s : State) : (drop e s).seqBuf = s.seqBuf := by cases e <;> rfl
@[simp] theorem drop_seqLen (e : Event) (s : State) : (drop e s).seqLen = s.seqLen := by cases e <;> rfl
@[simp] theorem drop_seqIdx (e : Event) (s : State) : (drop e s).seqIdx = s.seqIdx := by cases e <;> rfl
@[simp] theorem drop_post (e : Event) (s : State) : (drop e s).post = s.post := by cases e <;> rfl
@[simp] theorem drop_strMode (e : Event) (s : State) : (drop e s).strMode = s.strMode := by cases e <;> rfl
@[simp] theorem drop_strRemaining (e : Event) (s : State) : (drop e s).strRemaining = s.strRemaining := by cases e <;> rfl
@[simp] theorem drop_settleCnt (e : Event) (s : State) : (drop e s).settleCnt = s.settleCnt := by cases e <;> rfl
@[simp] theorem drop_pending (e : Event) (s : State) : (drop e s).pending = false := by cases e <;> rfl
@[simp] theorem drop_lineConfigured (e : Event) (s : State) : (drop e s).lineConfigured = s.lineConfigured := by cases e <;> rfl
@[simp] theorem drop_pinBound (e : Event) (s : State) : (drop e s).pinBound = s.pinBound := by cases e <;> rfl
@[simp] theorem drop_pinBindPin (e : Event) (s : State) : (drop e s).pinBindPin = s.pinBindPin := by cases e <;> rfl
@[simp] theorem drop_pinBindFunc (e : Event) (s : State) : (drop e s).pinBindFunc = s.pinBindFunc := by cases e <;> rfl
@[simp] theorem drop_resetIn (e : Event) (s : State) : (drop e s).resetIn = s.resetIn := by cases e <;> rfl
@[simp] theorem drop_txReady (e : Event) (s : State) : (drop e s).txReady = s.txReady := by cases e <;> rfl
@[simp] theorem drop_inputs (e : Event) (s : State) : (drop e s).inputs = s.inputs := by cases e <;> rfl
@[simp] theorem drop_host (e : Event) (s : State) : (drop e s).host = s.host := by cases e <;> rfl
@[simp] theorem drop_cycle (e : Event) (s : State) : (drop e s).cycle = s.cycle := by cases e <;> rfl
@[simp] theorem drop_wire (e : Event) (s : State) : (drop e s).wire = s.wire := by cases e <;> rfl
@[simp] theorem drop_responses (e : Event) (s : State) : (drop e s).responses = s.responses ++ [.okay] := by cases e <;> rfl
@[simp] theorem drop_events (e : Event) (s : State) : (drop e s).events = s.events ++ [e] := by cases e <;> rfl

@[simp] theorem loadSequence_initState (q : List Byte) (p : Post) (s : State) : (loadSequence q p s).initState = s.initState := rfl
@[simp] theorem loadSequence_phase (q : List Byte) (p : Post) (s : State) : (loadSequence q p s).phase = .emit := rfl
@[simp] theorem loadSequence_rxPin (q : List Byte) (p : Post) (s : State) : (loadSequence q p s).rxPin = s.rxPin := rfl
@[simp] theorem loadSequence_illegalOp (q : List Byte) (p : Post) (s : State) : (loadSequence q p s).illegalOp = s.illegalOp := rfl
@[simp] theorem loadSequence_notReady (q : List Byte) (p : Post) (s : State) : (loadSequence q p s).notReady = s.notReady := rfl
@[simp] theorem loadSequence_seqBuf (q : List Byte) (p : Post) (s : State) : (loadSequence q p s).seqBuf = loadBuf q s.seqBuf := rfl
@[simp] theorem loadSequence_seqLen (q : List Byte) (p : Post) (s : State) : (loadSequence q p s).seqLen = seqLength q := rfl
@[simp] theorem loadSequence_seqIdx (q : List Byte) (p : Post) (s : State) : (loadSequence q p s).seqIdx = 0 := rfl
@[simp] theorem loadSequence_post (q : List Byte) (p : Post) (s : State) : (loadSequence q p s).post = p := rfl
@[simp] theorem loadSequence_strMode (q : List Byte) (p : Post) (s : State) : (loadSequence q p s).strMode = s.strMode := rfl
@[simp] theorem loadSequence_strRemaining (q : List Byte) (p : Post) (s : State) : (loadSequence q p s).strRemaining = s.strRemaining := rfl
@[simp] theorem loadSequence_settleCnt (q : List Byte) (p : Post) (s : State) : (loadSequence q p s).settleCnt = s.settleCnt := rfl
@[simp] theorem loadSequence_pending (q : List Byte) (p : Post) (s : State) : (loadSequence q p s).pending = true := rfl
@[simp] theorem loadSequence_lineConfigured (q : List Byte) (p : Post) (s : State) : (loadSequence q p s).lineConfigured = s.lineConfigured := rfl
@[simp] theorem loadSequence_pinBound (q : List Byte) (p : Post) (s : State) : (loadSequence q p s).pinBound = s.pinBound := rfl
@[simp] theorem loadSequence_pinBindPin (q : List Byte) (p : Post) (s : State) : (loadSequence q p s).pinBindPin = s.pinBindPin := rfl
@[simp] theorem loadSequence_pinBindFunc (q : List Byte) (p : Post) (s : State) : (loadSequence q p s).pinBindFunc = s.pinBindFunc := rfl
@[simp] theorem loadSequence_diagValid (q : List Byte) (p : Post) (s : State) : (loadSequence q p s).diagValid = s.diagValid := rfl
@[simp] theorem loadSequence_diagSev (q : List Byte) (p : Post) (s : State) : (loadSequence q p s).diagSev = s.diagSev := rfl
@[simp] theorem loadSequence_diagCode (q : List Byte) (p : Post) (s : State) : (loadSequence q p s).diagCode = s.diagCode := rfl
@[simp] theorem loadSequence_resetIn (q : List Byte) (p : Post) (s : State) : (loadSequence q p s).resetIn = s.resetIn := rfl
@[simp] theorem loadSequence_txReady (q : List Byte) (p : Post) (s : State) : (loadSequence q p s).txReady = s.txReady := rfl
@[simp] theorem loadSequence_inputs (q : List Byte) (p : Post) (s : State) : (loadSequence q p s).inputs = s.inputs := rfl
@[simp] theorem loadSequence_host (q : List Byte) (p : Post) (s : State) : (loadSequence q p s).host = s.host := rfl
@[simp] theorem loadSequence_cycle (q : List Byte) (p : Post) (s : State) : (loadSequence q p s).cycle = s.cycle := rfl
@[simp] theorem loadSequence_wire (q : List Byte) (p : Post) (s : State) : (loadSequence q p s).wire = s.wire := rfl
@[simp] theorem loadSequence_diagLog (q : List Byte) (p : Post) (s : State) : (loadSequence q p s).diagLog = s.diagLog := rfl
@[simp] theorem loadSequence_responses (q : List Byte) (p : Post) (s : State) : (loadSequence q p s).responses = s.responses := rfl
@[simp] theorem loadSequence_events (q : List Byte) (p : Post) (s : State) : (loadSequence q p s).events = s.events := rfl

@[simp] theorem emit_initState (b : Byte) (s : State) : (emit b s).initState = s.initState := rfl
@[simp] theorem emit_phase (b : Byte) (s : State) : (emit b s).phase = s.phase := rfl
@[simp] theorem emit_rxPin (b : Byte) (s : State) : (emit b s).rxPin = s.rxPin := rfl
@[simp] theorem emit_illegalOp (b : Byte) (s : State) : (emit b s).illegalOp = s.illegalOp := rfl
@[simp] theorem emit_notReady (b : Byte) (s : State) : (emit b s).notReady = s.notReady := rfl
@[simp] theorem emit_seqBuf (b : Byte) (s : State) : (emit b s).seqBuf = s.seqBuf := rfl
@[simp] theorem emit_seqLen (b : Byte) (s : State) : (emit b s).seqLen = s.seqLen := rfl
@[simp] theorem emit_seqIdx (b : Byte) (s : State) : (emit b s).seqIdx = s.seqIdx := rfl
@[simp] theorem emit_post (b : Byte) (s : State) : (emit b s).post = s.post := rfl
@[simp] theorem emit_strMode (b : Byte) (s : State) : (emit b s).strMode = s.strMode := rfl
@[simp] theorem emit_strRemaining (b : Byte) (s : State) : (emit b s).strRemaining = s.strRemaining := rfl
@[simp] theorem emit_settleCnt (b : Byte) (s : State) : (emit b s).settleCnt = s.settleCnt := rfl
@[simp] theorem emit_pending (b : Byte) (s : State) : (emit b s).pending = s.pending := rfl
@[simp] theorem emit_lineConfigured (b : Byte) (s : State) : (emit b s).lineConfigured = s.lineConfigured := rfl
@[simp] theorem emit_pinBound (b : Byte) (s : State) : (emit b s).pinBound = s.pinBound := rfl
@[simp] theorem emit_pinBindPin (b : Byte) (s : State) : (emit b s).pinBindPin = s.pinBindPin := rfl
@[simp] theorem emit_pinBindFunc (b : Byte) (s : State) : (emit b s).pinBindFunc = s.pinBindFunc := rfl
@[simp] theorem emit_diagValid (b : Byte) (s : State) : (emit b s).diagValid = s.diagValid := rfl
@[simp] theorem emit_diagSev (b : Byte) (s : State) : (emit b s).diagSev = s.diagSev := rfl
@[simp] theorem emit_diagCode (b : Byte) (s : State) : (emit b s).diagCode = s.diagCode := rfl
@[simp] theorem emit_resetIn (b : Byte) (s : State) : (emit b s).resetIn = s.resetIn := rfl
@[simp] theorem emit_txReady (b : Byte) (s : State) : (emit b s).txReady = s.txReady := rfl
@[simp] theorem emit_inputs (b : Byte) (s : State) : (emit b s).inputs = s.inputs := rfl
@[simp] theorem emit_host (b : Byte) (s : State) : (emit b s).host = s.host := rfl
@[simp] theorem emit_cycle (b : Byte) (s : State) : (emit b s).cycle = s.cycle := rfl
@[simp] theorem emit_wire (b : Byte) (s : State) : (emit b s).wire = s.wire ++ [{ byte := b, cycle := s.cycle }] := rfl
@[simp] theorem emit_diagLog (b : Byte) (s : State) : (emit b s).diagLog = s.diagLog := rfl
@[simp] theorem emit_responses (b : Byte) (s : State) : (emit b s).responses = s.responses := rfl
@[simp] theorem emit_events (b : Byte) (s : State) : (emit b s).events = s.events := rfl

@[simp] theorem setPin_initState (p : Byte) (s : State) : (setPin p s).initState = s.initState := rfl
@[simp] theorem setPin_phase (p : Byte) (s : State) : (setPin p s).phase = s.phase := rfl
@[simp] theorem setPin_rxPin (p : Byte) (s : State) : (setPin p s).rxPin = p := rfl
@[simp] theorem setPin_illegalOp (p : Byte) (s : State) : (setPin p s).illegalOp = s.illegalOp := rfl
@[simp] theorem setPin_notReady (p : Byte) (s : State) : (setPin p s).notReady = s.notReady := rfl
@[simp] theorem setPin_seqBuf (p : Byte) (s : State) : (setPin p s).seqBuf = s.seqBuf := rfl
@[simp] theorem setPin_seqLen (p : Byte) (s : State) : (setPin p s).seqLen = s.seqLen := rfl
@[simp] theorem setPin_seqIdx (p : Byte) (s : State) : (setPin p s).seqIdx = s.seqIdx := rfl
@[simp] theorem setPin_post (p : Byte) (s : State) : (setPin p s).post = s.post := rfl
@[simp] theorem setPin_strMode (p : Byte) (s : State) : (setPin p s).strMode = s.strMode := rfl
@[simp] theorem setPin_strRemaining (p : Byte) (s : State) : (setPin p s).strRemaining = s.strRemaining := rfl
@[simp] theorem setPin_settleCnt (p : Byte) (s : State) : (setPin p s).settleCnt = s.settleCnt := rfl
@[simp] theorem setPin_pending (p : Byte) (s : State) : (setPin p s).pending = s.pending := rfl
@[simp] theorem setPin_lineConfigured (p : Byte) (s : State) : (setPin p s).lineConfigured = s.lineConfigured := rfl
@[simp] theorem setPin_pinBound (p : Byte) (s : State) : (setPin p s).pinBound = s.pinBound := rfl
@[simp] theorem setPin_pinBindPin (p : Byte) (s : State) : (setPin p s).pinBindPin = s.pinBindPin := rfl
@[simp] theorem setPin_pinBindFunc (p : Byte) (s : State) : (setPin p s).pinBindFunc = s.pinBindFunc := rfl
@[simp] theorem setPin_diagValid (p : Byte) (s : State) : (setPin p s).diagValid = s.diagValid := rfl
@[simp] theorem setPin_diagSev (p : Byte) (s : State) : (setPin p s).diagSev = s.diagSev := rfl
@[simp] theorem setPin_diagCode (p : Byte) (s : State) : (setPin p s).diagCode = s.diagCode := rfl
@[simp] theorem setPin_resetIn (p : Byte) (s : State) : (setPin p s).resetIn = s.resetIn := rfl
@[simp] theorem setPin_txReady (p : Byte) (s : State) : (setPin p s).txReady = s.txReady := rfl
@[simp] theorem setPin_inputs (p : Byte) (s : State) : (setPin p s).inputs = s.inputs := rfl
@[simp] theorem setPin_host (p : Byte) (s : State) : (setPin p s).host = s.host := rfl
@[simp] theorem setPin_cycle (p : Byte) (s : State) : (setPin p s).cycle = s.cycle := rfl
@[simp] theorem setPin_wire (p : Byte) (s : State) : (setPin p s).wire = s.wire := rfl
@[simp] theorem setPin_diagLog (p : Byte) (s : State) : (setPin p s).diagLog = s.diagLog := rfl
@[simp] theorem setPin_responses (p : Byte) (s : State) : (setPin p s).responses = s.responses := rfl
@[simp] theorem setPin_events (p : Byte) (s : State) : (setPin p s).events = s.events := rfl

@[simp] theorem bindAndConfigure_initState (p : Byte) (s : State) : (bindAndConfigure p s).initState = .ready := rfl
@[simp] theorem bindAndConfigure_phase (p : Byte) (s : State) : (bindAndConfigure p s).phase = s.phase := rfl
@[simp] theorem bindAndConfigure_rxPin (p : Byte) (s : State) : (bindAndConfigure p s).rxPin = s.rxPin := rfl
@[simp] theorem bindAndConfigure_illegalOp (p : Byte) (s : State) : (bindAndConfigure p s).illegalOp = s.illegalOp := rfl
@[simp] theorem bindAndConfigure_notReady (p : Byte) (s : State) : (bindAndConfigure p s).notReady = s.notReady := rfl
@[simp] theorem bindAndConfigure_seqBuf (p : Byte) (s : State) : (bindAndConfigure p s).seqBuf = s.seqBuf := rfl
@[simp] theorem bindAndConfigure_seqLen (p : Byte) (s : State) : (bindAndConfigure p s).seqLen = s.seqLen := rfl
@[simp] theorem bindAndConfigure_seqIdx (p : Byte) (s : State) : (bindAndConfigure p s).seqIdx = s.seqIdx := rfl
@[simp] theorem bindAndConfigure_post (p : Byte) (s : State) : (bindAndConfigure p s).post = s.post := rfl
@[simp] theorem bindAndConfigure_strMode (p : Byte) (s : State) : (bindAndConfigure p s).strMode = s.strMode := rfl
@[simp] theorem bindAndConfigure_strRemaining (p : Byte) (s : State) : (bindAndConfigure p s).strRemaining = s.strRemaining := rfl
@[simp] theorem bindAndConfigure_settleCnt (p : Byte) (s : State) : (bindAndConfigure p s).settleCnt = s.settleCnt := rfl
@[simp] theorem bindAndConfigure_pending (p : Byte) (s : State) : (bindAndConfigure p s).pending = s.pending := rfl
@[simp] theorem bindAndConfigure_lineConfigured (p : Byte) (s : State) : (bindAndConfigure p s).lineConfigured = true := rfl
@[simp] theorem bindAndConfigure_pinBound (p : Byte) (s : State) : (bindAndConfigure p s).pinBound = true := rfl
@[simp] theorem bindAndConfigure_pinBindPin (p : Byte) (s : State) : (bindAndConfigure p s).pinBindPin = p := rfl
@[simp] theorem bindAndConfigure_pinBindFunc (p : Byte) (s : State) : (bindAndConfigure p s).pinBindFunc = Config.rxAltFunc := rfl
@[simp] theorem bindAndConfigure_diagValid (p : Byte) (s : State) : (bindAndConfigure p s).diagValid = s.diagValid := rfl
@[simp] theorem bindAndConfigure_diagSev (p : Byte) (s : State) : (bindAndConfigure p s).diagSev = s.diagSev := rfl
@[simp] theorem bindAndConfigure_diagCode (p : Byte) (s : State) : (bindAndConfigure p s).diagCode = s.diagCode := rfl
@[simp] theorem bindAndConfigure_resetIn (p : Byte) (s : State) : (bindAndConfigure p s).resetIn = s.resetIn := rfl
@[simp] theorem bindAndConfigure_txReady (p : Byte) (s : State) : (bindAndConfigure p s).txReady = s.txReady := rfl
@[simp] theorem bindAndConfigure_inputs (p : Byte) (s : State) : (bindAndConfigure p s).inputs = s.inputs := rfl
@[simp] theorem bindAndConfigure_host (p : Byte) (s : State) : (bindAndConfigure p s).host = s.host := rfl
@[simp] theorem bindAndConfigure_cycle (p : Byte) (s : State) : (bindAndConfigure p s).cycle = s.cycle := rfl
@[simp] theorem bindAndConfigure_wire (p : Byte) (s : State) : (bindAndConfigure p s).wire = s.wire := rfl
@[simp] theorem bindAndConfigure_diagLog (p : Byte) (s : State) : (bindAndConfigure p s).diagLog = s.diagLog := rfl
@[simp] theorem bindAndConfigure_responses (p : Byte) (s : State) : (bindAndConfigure p s).responses = s.responses := rfl
@[simp] theorem bindAndConfigure_events (p : Byte) (s : State) : (bindAndConfigure p s).events = s.events := rfl

@[simp] theorem clearSticky_initState (v : Word) (s : State) : (clearSticky v s).initState = s.initState := rfl
@[simp] theorem clearSticky_phase (v : Word) (s : State) : (clearSticky v s).phase = s.phase := rfl
@[simp] theorem clearSticky_rxPin (v : Word) (s : State) : (clearSticky v s).rxPin = s.rxPin := rfl
@[simp] theorem clearSticky_illegalOp (v : Word) (s : State) : (clearSticky v s).illegalOp = (s.illegalOp && !v.getLsbD 8) := rfl
@[simp] theorem clearSticky_notReady (v : Word) (s : State) : (clearSticky v s).notReady = (s.notReady && !v.getLsbD 9) := rfl
@[simp] theorem clearSticky_seqBuf (v : Word) (s : State) : (clearSticky v s).seqBuf = s.seqBuf := rfl
@[simp] theorem clearSticky_seqLen (v : Word) (s : State) : (clearSticky v s).seqLen = s.seqLen := rfl
@[simp] theorem clearSticky_seqIdx (v : Word) (s : State) : (clearSticky v s).seqIdx = s.seqIdx := rfl
@[simp] theorem clearSticky_post (v : Word) (s : State) : (clearSticky v s).post = s.post := rfl
@[simp] theorem clearSticky_strMode (v : Word) (s : State) : (clearSticky v s).strMode = s.strMode := rfl
@[simp] theorem clearSticky_strRemaining (v : Word) (s : State) : (clearSticky v s).strRemaining = s.strRemaining := rfl
@[simp] theorem clearSticky_settleCnt (v : Word) (s : State) : (clearSticky v s).settleCnt = s.settleCnt := rfl
@[simp] theorem clearSticky_pending (v : Word) (s : State) : (clearSticky v s).pending = s.pending := rfl
@[simp] theorem clearSticky_lineConfigured (v : Word) (s : State) : (clearSticky v s).lineConfigured = s.lineConfigured := rfl
@[simp] theorem clearSticky_pinBound (v : Word) (s : State) : (clearSticky v s).pinBound = s.pinBound := rfl
@[simp] theorem clearSticky_pinBindPin (v : Word) (s : State) : (clearSticky v s).pinBindPin = s.pinBindPin := rfl
@[simp] theorem clearSticky_pinBindFunc (v : Word) (s : State) : (clearSticky v s).pinBindFunc = s.pinBindFunc := rfl
@[simp] theorem clearSticky_diagValid (v : Word) (s : State) : (clearSticky v s).diagValid = s.diagValid := rfl
@[simp] theorem clearSticky_diagSev (v : Word) (s : State) : (clearSticky v s).diagSev = s.diagSev := rfl
@[simp] theorem clearSticky_diagCode (v : Word) (s : State) : (clearSticky v s).diagCode = s.diagCode := rfl
@[simp] theorem clearSticky_resetIn (v : Word) (s : State) : (clearSticky v s).resetIn = s.resetIn := rfl
@[simp] theorem clearSticky_txReady (v : Word) (s : State) : (clearSticky v s).txReady = s.txReady := rfl
@[simp] theorem clearSticky_inputs (v : Word) (s : State) : (clearSticky v s).inputs = s.inputs := rfl
@[simp] theorem clearSticky_host (v : Word) (s : State) : (clearSticky v s).host = s.host := rfl
@[simp] theorem clearSticky_cycle (v : Word) (s : State) : (clearSticky v s).cycle = s.cycle := rfl
@[simp] theorem clearSticky_wire (v : Word) (s : State) : (clearSticky v s).wire = s.wire := rfl
@[simp] theorem clearSticky_diagLog (v : Word) (s : State) : (clearSticky v s).diagLog = s.diagLog := rfl
@[simp] theorem clearSticky_responses (v : Word) (s : State) : (clearSticky v s).responses = s.responses := rfl
@[simp] theorem clearSticky_events (v : Word) (s : State) : (clearSticky v s).events = s.events := rfl

@[simp] theorem resetEngine_initState (s : State) : (resetEngine s).initState = State.reset.initState := rfl
@[simp] theorem resetEngine_phase (s : State) : (resetEngine s).phase = State.reset.phase := rfl
@[simp] theorem resetEngine_rxPin (s : State) : (resetEngine s).rxPin = State.reset.rxPin := rfl
@[simp] theorem resetEngine_illegalOp (s : State) : (resetEngine s).illegalOp = State.reset.illegalOp := rfl
@[simp] theorem resetEngine_notReady (s : State) : (resetEngine s).notReady = State.reset.notReady := rfl
@[simp] theorem resetEngine_seqBuf (s : State) : (resetEngine s).seqBuf = State.reset.seqBuf := rfl
@[simp] theorem resetEngine_seqLen (s : State) : (resetEngine s).seqLen = State.reset.seqLen := rfl
@[simp] theorem resetEngine_seqIdx (s : State) : (resetEngine s).seqIdx = State.reset.seqIdx := rfl
@[simp] theorem resetEngine_post (s : State) : (resetEngine s).post = State.reset.post := rfl
@[simp] theorem resetEngine_strMode (s : State) : (resetEngine s).strMode = State.reset.strMode := rfl
@[simp] theorem resetEngine_strRemaining (s : State) : (resetEngine s).strRemaining = State.reset.strRemaining := rfl
@[simp] theorem resetEngine_settleCnt (s : State) : (resetEngine s).settleCnt = State.reset.settleCnt := rfl
@[simp] theorem resetEngine_pending (s : State) : (resetEngine s).pending = State.reset.pending := rfl
@[simp] theorem resetEngine_lineConfigured (s : State) : (resetEngine s).lineConfigured = State.reset.lineConfigured := rfl
@[simp] theorem resetEngine_pinBound (s : State) : (resetEngine s).pinBound = State.reset.pinBound := rfl
@[simp] theorem resetEngine_pinBindPin (s : State) : (resetEngine s).pinBindPin = State.reset.pinBindPin := rfl
@[simp] theorem resetEngine_pinBindFunc (s : State) : (resetEngine s).pinBindFunc = State.reset.pinBindFunc := rfl
@[simp] theorem resetEngine_diagValid (s : State) : (resetEngine s).diagValid = State.reset.diagValid := rfl
@[simp] theorem resetEngine_diagSev (s : State) : (resetEngine s).diagSev = State.reset.diagSev := rfl
@[simp] theorem resetEngine_diagCode (s : State) : (resetEngine s).diagCode = State.reset.diagCode := rfl
@[simp] theorem resetEngine_resetIn (s : State) : (resetEngine s).resetIn = s.resetIn := rfl
@[simp] theorem resetEngine_txReady (s : State) : (resetEngine s).txReady = s.txReady := rfl
@[simp] theorem resetEngine_inputs (s : State) : (resetEngine s).inputs = s.inputs := rfl
@[simp] theorem resetEngine_host (s : State) : (resetEngine s).host = s.host := rfl
@[simp] theorem resetEngine_cycle (s : State) : (resetEngine s).cycle = s.cycle := rfl
@[simp] theorem resetEngine_wire (s : State) : (resetEngine s).wire = s.wire := rfl
@[simp] theorem resetEngine_diagLog (s : State) : (resetEngine s).diagLog = s.diagLog := rfl
@[simp] theorem resetEngine_responses (s : State) : (resetEngine s).responses = s.responses := rfl
@[simp] theorem resetEngine_events (s : State) : (resetEngine s).events = s.events := rfl

@[simp] theorem beginCycle_initState (s : State) : (beginCycle s).initState = s.initState := rfl
@[simp] theorem beginCycle_phase (s : State) : (beginCycle s).phase = s.phase := rfl
@[simp] theorem beginCycle_rxPin (s : State) : (beginCycle s).rxPin = s.rxPin := rfl
@[simp] theorem beginCycle_illegalOp (s : State) : (beginCycle s).illegalOp = s.illegalOp := rfl
@[simp] theorem beginCycle_notReady (s : State) : (beginCycle s).notReady = s.notReady := rfl
@[simp] theorem beginCycle_seqBuf (s : State) : (beginCycle s).seqBuf = s.seqBuf := rfl
@[simp] theorem beginCycle_seqLen (s : State) : (beginCycle s).seqLen = s.seqLen := rfl
@[simp] theorem beginCycle_seqIdx (s : State) : (beginCycle s).seqIdx = s.seqIdx := rfl
@[simp] theorem beginCycle_post (s : State) : (beginCycle s).post = s.post := rfl
@[simp] theorem beginCycle_strMode (s : State) : (beginCycle s).strMode = s.strMode := rfl
@[simp] theorem beginCycle_strRemaining (s : State) : (beginCycle s).strRemaining = s.strRemaining := rfl
@[simp] theorem beginCycle_settleCnt (s : State) : (beginCycle s).settleCnt = s.settleCnt := rfl
@[simp] theorem beginCycle_pending (s : State) : (beginCycle s).pending = s.pending := rfl
@[simp] theorem beginCycle_lineConfigured (s : State) : (beginCycle s).lineConfigured = s.lineConfigured := rfl
@[simp] theorem beginCycle_pinBound (s : State) : (beginCycle s).pinBound = s.pinBound := rfl
@[simp] theorem beginCycle_pinBindPin (s : State) : (beginCycle s).pinBindPin = s.pinBindPin := rfl
@[simp] theorem beginCycle_pinBindFunc (s : State) : (beginCycle s).pinBindFunc = s.pinBindFunc := rfl
@[simp] theorem beginCycle_diagValid (s : State) : (beginCycle s).diagValid = false := rfl
@[simp] theorem beginCycle_diagSev (s : State) : (beginCycle s).diagSev = s.diagSev := rfl
@[simp] theorem beginCycle_diagCode (s : State) : (beginCycle s).diagCode = s.diagCode := rfl
@[simp] theorem beginCycle_resetIn (s : State) : (beginCycle s).resetIn = s.resetIn := rfl
@[simp] theorem beginCycle_txReady (s : State) : (beginCycle s).txReady = s.txReady := rfl
@[simp] theorem beginCycle_inputs (s : State) : (beginCycle s).inputs = s.inputs := rfl
@[simp] theorem beginCycle_host (s : State) : (beginCycle s).host = s.host := rfl
@[simp] theorem beginCycle_cycle (s : State) : (beginCycle s).cycle = s.cycle := rfl
@[simp] theorem beginCycle_wire (s : State) : (beginCycle s).wire = s.wire := rfl
@[simp] theorem beginCycle_diagLog (s : State) : (beginCycle s).diagLog = s.diagLog := rfl
@[simp] theorem beginCycle_responses (s : State) : (beginCycle s).responses = s.responses := rfl
@[simp] theorem beginCycle_events (s : State) : (beginCycle s).events = s.events := rfl

@[simp] theorem endCycle_initState (s : State) : (endCycle s).initState = s.initState := by unfold endCycle; split <;> rfl
@[simp] theorem endCycle_phase (s : State) : (endCycle s).phase = s.phase := by unfold endCycle; split <;> rfl
@[simp] theorem endCycle_rxPin (s : State) : (endCycle s).rxPin = s.rxPin := by unfold endCycle; split <;> rfl
@[simp] theorem endCycle_illegalOp (s : State) : (endCycle s).illegalOp = s.illegalOp := by unfold endCycle; split <;> rfl
@[simp] theorem endCycle_notReady (s : State) : (endCycle s).notReady = s.notReady := by unfold endCycle; split <;> rfl
@[simp] theorem endCycle_seqBuf (s : State) : (endCycle s).seqBuf = s.seqBuf := by unfold endCycle; split <;> rfl
@[simp] theorem endCycle_seqLen (s : State) : (endCycle s).seqLen = s.seqLen := by unfold endCycle; split <;> rfl
@[simp] theorem endCycle_seqIdx (s : State) : (endCycle s).seqIdx = s.seqIdx := by unfold endCycle; split <;> rfl
@[simp] theorem endCycle_post (s : State) : (endCycle s).post = s.post := by unfold endCycle; split <;> rfl
@[simp] theorem endCycle_strMode (s : State) : (endCycle s).strMode = s.strMode := by unfold endCycle; split <;> rfl
@[simp] theorem endCycle_strRemaining (s : State) : (endCycle s).strRemaining = s.strRemaining := by unfold endCycle; split <;> rfl
@[simp] theorem endCycle_settleCnt (s : State) : (endCycle s).settleCnt = s.settleCnt := by unfold endCycle; split <;> rfl
@[simp] theorem endCycle_pending (s : State) : (endCycle s).pending = s.pending := by unfold endCycle; split <;> rfl
@[simp] theorem endCycle_lineConfigured (s : State) : (endCycle s).lineConfigured = s.lineConfigured := by unfold endCycle; split <;> rfl
@[simp] theorem endCycle_pinBound (s : State) : (endCycle s).pinBound = s.pinBound := by unfold endCycle; split <;> rfl
@[simp] theorem endCycle_pinBindPin (s : State) : (endCycle s).pinBindPin = s.pinBindPin := by unfold endCycle; split <;> rfl
@[simp] theorem endCycle_pinBindFunc (s : State) : (endCycle s).pinBindFunc = s.pinBindFunc := by unfold endCycle; split <;> rfl
@[simp] theorem endCycle_diagValid (s : State) : (endCycle s).diagValid = s.diagValid := by unfold endCycle; split <;> rfl
@[simp] theorem endCycle_diagSev (s : State) : (endCycle s).diagSev = s.diagSev := by unfold endCycle; split <;> rfl
@[simp] theorem endCycle_diagCode (s : State) : (endCycle s).diagCode = s.diagCode := by unfold endCycle; split <;> rfl
@[simp] theorem endCycle_host (s : State) : (endCycle s).host = s.host := by unfold endCycle; split <;> rfl
@[simp] theorem endCycle_cycle (s : State) : (endCycle s).cycle = s.cycle + 1 := by unfold endCycle; split <;> rfl
@[simp] theorem endCycle_wire (s : State) : (endCycle s).wire = s.wire := by unfold endCycle; split <;> rfl
@[simp] theorem endCycle_diagLog (s : State) : (endCycle s).diagLog = s.diagLog := by unfold endCycle; split <;> rfl
@[simp] theorem endCycle_responses (s : State) : (endCycle s).responses = s.responses := by unfold endCycle; split <;> rfl
@[simp] theorem endCycle_events (s : State) : (endCycle s).events = s.events := by unfold endCycle; split <;> rfl

end Sys2Proof.Laws
end

