-- ==== Sys2Proof/Laws/Ops.lean ====
section
/-! SUPPORT. One lemma for each shared operation that says what it can do: acceptance, loading, emission,
finishing, settling, and a whole step. -/

namespace Sys2Proof.Laws
open Sys2Proof.Machine

theorem loadBuf_take (seq : List Byte) (old : Vector Byte 5) (h : seq.length ≤ 5) :
    (loadBuf seq old).toList.take (seqLength seq).val = seq := by
  match seq, h with
  | [], _ => rfl
  | [_], _ => rfl
  | [_, _], _ => rfl
  | [_, _, _], _ => rfl
  | [_, _, _, _], _ => rfl
  | [_, _, _, _, _], _ => rfl
  | _ :: _ :: _ :: _ :: _ :: _ :: _, h => simp only [List.length_cons] at h; omega

theorem loadSequence_buffered (seq : List Byte) (p : Post) (s : State) (h : seq.length ≤ 5) :
    bufferedBytes (loadSequence seq p s) = seq := by
  simpa [bufferedBytes] using loadBuf_take seq s.seqBuf h

theorem bufferedBytes_outside_emit {s : State} (h : s.phase ≠ .emit) : bufferedBytes s = [] := by
  simp [bufferedBytes, h]

theorem bufferedBytes_cons {s : State} {b : Byte} {rest : List Byte} (h : bufferedBytes s = b :: rest) :
    s.phase = .emit ∧ s.seqIdx.val < s.seqLen.val ∧ s.seqBuf[s.seqIdx.val]? = some b ∧
      (s.seqBuf.toList.take s.seqLen.val).drop (s.seqIdx.val + 1) = rest ∧
      rest.length = s.seqLen.val - (s.seqIdx.val + 1) := by
  by_cases hp : s.phase = .emit
  · simp only [bufferedBytes, hp, if_true] at h
    have hl : (s.seqBuf.toList.take s.seqLen.val).length = s.seqLen.val := by
      have := s.seqLen.isLt
      simp; omega
    have hlen := congrArg List.length h
    rw [List.length_drop, hl, List.length_cons] at hlen
    have hlt : s.seqIdx.val < s.seqLen.val := by omega
    rw [List.drop_eq_getElem_cons (by omega)] at h
    injection h with h1 h2
    refine ⟨hp, hlt, ?_, h2, ?_⟩
    · have : s.seqIdx.val < 5 := by have := s.seqLen.isLt; omega
      simp only [List.getElem_take, Vector.getElem_toList] at h1
      rw [Vector.getElem?_eq_getElem this, h1]
    · rw [← h2, List.length_drop, hl]
  · simp [bufferedBytes, hp] at h

theorem txData_of_buffered {s : State} {b : Byte} {rest : List Byte} (h : bufferedBytes s = b :: rest) :
    txData s = some b := by
  obtain ⟨hp, hlt, hb, -, -⟩ := bufferedBytes_cons h
  simp [txData, txValid, hp, hlt, hb]

theorem seqIdx_succ {s : State} (h : s.seqIdx.val < s.seqLen.val) :
    (s.seqIdx + 1).val = s.seqIdx.val + 1 := by
  have := s.seqLen.isLt
  rw [Fin.val_add]
  simp
  omega

/-- `EmitStep` of a byte that is not the last: the byte is on the wire and the rest stays buffered. -/
theorem emitStep_more {s : State} {b c : Byte} {rest : List Byte}
    (h : bufferedBytes s = b :: c :: rest) :
    emitStep b s = { emit b s with seqIdx := s.seqIdx + 1 } ∧
      bufferedBytes (emitStep b s) = c :: rest := by
  obtain ⟨hp, hlt, -, hr, hl⟩ := bufferedBytes_cons h
  have hs := seqIdx_succ hlt
  have hne : ¬ s.seqIdx + 1 = s.seqLen := by
    intro he
    have := congrArg Fin.val he
    simp at hl
    omega
  have he : emitStep b s = { emit b s with seqIdx := s.seqIdx + 1 } := by
    simp [emitStep, hne]
  refine ⟨he, ?_⟩
  rw [he]
  simpa [bufferedBytes, hp, hs] using hr

/-- `EmitStep` of the last byte: the byte is on the wire and the sequence finishes (R127). -/
theorem emitStep_last {s : State} {b : Byte} (h : bufferedBytes s = [b]) :
    emitStep b s = finish { emit b s with seqIdx := s.seqLen } := by
  obtain ⟨hp, hlt, -, -, hl⟩ := bufferedBytes_cons h
  have hs := seqIdx_succ hlt
  have he : s.seqIdx + 1 = s.seqLen := by
    apply Fin.ext
    simp at hl
    omega
  simp [emitStep, he]

/-- A cycle in EMIT without reset, the Transport accepting. -/
theorem step_emit {s : State} {b : Byte} {rest : List Byte} (hr : s.resetIn = false)
    (hb : bufferedBytes s = b :: rest) (ht : s.txReady = true) :
    step s = .next (endCycle (emitStep b (beginCycle s))) := by
  obtain ⟨hp, -⟩ := bufferedBytes_cons hb
  have hb' : bufferedBytes (beginCycle s) = b :: rest := hb
  simp [step, hr, engineCycle, hp, emitCycle, txData_of_buffered hb', ht, andThen]

theorem endCycle_steady {s : State} (h : s.inputs = []) : endCycle s = { s with cycle := s.cycle + 1 } := by
  simp [endCycle, h]

/-- One cycle, then the rest. -/
theorem cycles_succ (n : Nat) (s t : State) (h : step s = .next t) :
    cycles (n + 1) s = cycles n t := by
  simp only [cycles, h]

/-- A loaded sequence of a command goes to the wire one byte a cycle, and its write completes. -/
theorem cycles_emission (seq : List Byte) : ∀ s : State, seq ≠ [] → bufferedBytes s = seq →
    AlwaysReady s → s.post = .none → s.strMode = false →
    ∃ u, cycles seq.length s = .next u ∧ wireBytes u = wireBytes s ++ seq ∧
      u = { s with seqIdx := u.seqIdx, pending := false, phase := .idle, wire := u.wire,
                   cycle := s.cycle + seq.length, diagValid := false,
                   responses := s.responses ++ [.okay] } := by
  induction seq with
  | nil => intro s h; exact absurd rfl h
  | cons b rest ih =>
    intro s _ hb ⟨hr, ht, hi⟩ hpost hstr
    have hst := step_emit hr hb ht
    have hb' : bufferedBytes (beginCycle s) = b :: rest := hb
    cases rest with
    | nil =>
      rw [emitStep_last hb'] at hst
      refine ⟨_, cycles_succ 0 s _ hst, ?_, ?_⟩
      · simp [finish, hpost, hstr, wireBytes]
      · rw [endCycle_steady (by simp [finish, hpost, hstr, hi])]
        simp [finish, hpost, hstr, complete, respond, emit, beginCycle]
    | cons c rest =>
      obtain ⟨he, hbuf⟩ := emitStep_more hb'
      have hbuf' : bufferedBytes (endCycle (emitStep b (beginCycle s))) = c :: rest := by
        rw [endCycle_steady (by simp [he, hi])]; exact hbuf
      have hf : endCycle (emitStep b (beginCycle s)) =
          { s with seqIdx := s.seqIdx + 1, wire := s.wire ++ [⟨b, s.cycle⟩], cycle := s.cycle + 1, diagValid := false } := by
        rw [endCycle_steady (by simp [he, hi]), he]; rfl
      rw [hf] at hbuf' hst
      obtain ⟨u, h1, h2, h3⟩ := ih _ (by simp) hbuf' ⟨hr, ht, hi⟩ hpost hstr
      refine ⟨u, ?_, ?_, ?_⟩
      · rw [List.length_cons, cycles_succ _ s _ hst]; exact h1
      · rw [h2]; simp [wireBytes]
      · rw [h3]; simp; omega
/-! Acceptance (R120, R121). -/

theorem acceptCommand_notReady {op : Byte} {pass : Bool} {go : State → State} {s : State}
    (hp : s.pending = false) (hi : s.initState ≠ .ready) :
    acceptCommand op pass go s = .next (drop .notReady s) := by
  simp [acceptCommand, hp, hi]

theorem acceptCommand_payload {op : Byte} {pass : Bool} {go : State → State} {s : State}
    (h : PayloadReady s) : acceptCommand op pass go s = .next (stringPayload op s) := by
  obtain ⟨hp, hi, hs⟩ := h
  simp [acceptCommand, hp, hi, hs]

theorem acceptCommand_accepted {op : Byte} {go : State → State} {s : State} (h : CommandReady s) :
    acceptCommand op true go s = .next (go s) := by
  obtain ⟨hp, hi, hs⟩ := h
  simp [acceptCommand, hp, hi, hs]

theorem acceptCommand_rejected {op : Byte} {go : State → State} {s : State} (h : CommandReady s) :
    acceptCommand op false go s = .next (drop (.paramRejected op) s) := by
  obtain ⟨hp, hi, hs⟩ := h
  simp [acceptCommand, hp, hi, hs]

/-- What `AcceptCmd` can do (R121): it is refused while a write is pending, and otherwise it drops the word
before READY, takes it as a character in STR_WAIT, runs it, or drops it for its argument. -/
theorem acceptCommand_cases (op : Byte) (pass : Bool) (go : State → State) (s : State) :
    (s.pending = true ∧ acceptCommand op pass go s = .refused .accessWhilePending) ∨
    (s.pending = false ∧ s.initState ≠ .ready ∧ acceptCommand op pass go s = .next (drop .notReady s)) ∨
    (PayloadReady s ∧ acceptCommand op pass go s = .next (stringPayload op s)) ∨
    (s.pending = false ∧ s.initState = .ready ∧ s.phase ≠ .strWait ∧ pass = true ∧
      acceptCommand op pass go s = .next (go s)) ∨
    (s.pending = false ∧ s.initState = .ready ∧ s.phase ≠ .strWait ∧ pass = false ∧
      acceptCommand op pass go s = .next (drop (.paramRejected op) s)) := by
  unfold acceptCommand PayloadReady
  by_cases hp : s.pending = true
  · simp [hp]
  · by_cases hi : s.initState = .ready
    · by_cases hs : s.phase = .strWait
      · simp [hp, hi, hs]
      · cases pass <;> simp [hp, hi, hs]
    · simp [hp, hi]

/-- What an access that completes in its own step can do. -/
theorem immediate_cases (r : Response) (go : State → State) (s : State) :
    (s.pending = true ∧ immediate r go s = .refused .accessWhilePending) ∨
    (s.pending = false ∧ immediate r go s = .next (respond r (go s))) := by
  unfold immediate
  cases s.pending <;> simp

/-- What the INIT operation can do (R161 to R163). -/
theorem initOperation_cases (pin : Byte) (s : State) :
    (s.initState = .uninit ∧ pin = Config.requiredRxPin ∧
      initOperation pin s = bindAndConfigure pin (setPin pin s)) ∨
    (s.initState = .uninit ∧ pin ≠ Config.requiredRxPin ∧
      initOperation pin s = raise (.wiringMismatch pin) (setPin pin s)) ∨
    (s.initState ≠ .uninit ∧ initOperation pin s = setPin pin s) := by
  unfold initOperation
  by_cases hi : s.initState = .uninit
  · by_cases hp : pin = Config.requiredRxPin
    · simp [hi, hp]
    · simp [hi, hp]
  · simp [hi]

/-! Finishing and settling (R127, R128). -/

theorem finish_cases (s : State) :
    (s.post = .settle ∧ finish s = { s with settleCnt := Config.settleCycles, phase := .settle }) ∨
    (s.post = .none ∧ s.strMode = true ∧ s.strRemaining ≠ 0 ∧
      finish s = complete { s with phase := .strWait }) ∨
    (s.post = .none ∧ (s.strMode = false ∨ s.strRemaining = 0) ∧
      finish s = complete { s with strMode := false, phase := .idle }) := by
  unfold finish
  cases s.post <;> cases s.strMode <;> by_cases h : s.strRemaining = 0#24 <;> simp [h]

theorem settleCycle_cases (s : State) :
    (s.settleCnt ≤ 1 ∧
      settleCycle s = complete { s with settleCnt := 0, post := .none, phase := .idle }) ∨
    (1 < s.settleCnt ∧ settleCycle s = { s with settleCnt := s.settleCnt - 1 }) := by
  unfold settleCycle
  by_cases h : s.settleCnt ≤ 1
  · exact .inl ⟨h, by simp [show s.settleCnt - 1 = 0 by omega]⟩
  · exact .inr ⟨by omega, by simp [show ¬ s.settleCnt - 1 = 0 by omega]⟩

/-- At least one cycle of settling (00_scope.md R8). -/
theorem settleCycles_pos : 0 < Config.settleCycles := by
  unfold Config.settleCycles Config.minSettleCycles Config.settleMs Config.clkHz
  omega

/-- What a step can do: reset, emission of a byte, a stalled or settling cycle, or the host's move. -/
theorem step_cases {s t : State} (h : step s = .next t) :
    (s.resetIn = true ∧ t = endCycle (resetEngine s)) ∨
    (s.resetIn = false ∧ s.phase = .emit ∧ ∃ b, txData s = some b ∧
      ((s.txReady = true ∧ t = endCycle (emitStep b (beginCycle s))) ∨
       (s.txReady = false ∧ t = endCycle (beginCycle s)))) ∨
    (s.resetIn = false ∧ s.phase = .settle ∧ t = endCycle (settleCycle (beginCycle s))) ∨
    (s.resetIn = false ∧ (s.phase = .idle ∨ s.phase = .strWait) ∧
      ∃ u, hostCycle (beginCycle s) = .next u ∧ t = endCycle u) := by
  have inv : ∀ {r : Result}, andThen r endCycle = .next t → ∃ u, r = .next u ∧ t = endCycle u := by
    intro r hr
    cases r with
    | next u => exact ⟨u, rfl, by simpa [andThen] using hr.symm⟩
    | fault e => simp [andThen] at hr
    | refused e => simp [andThen] at hr
  unfold step at h
  by_cases hr : s.resetIn = true
  · left
    simp only [hr, if_true] at h
    exact ⟨hr, by injection h with h; exact h.symm⟩
  · simp only [hr] at h
    have hr' : s.resetIn = false := by simpa using hr
    obtain ⟨u, hu, ht⟩ := inv h
    cases hp : s.phase with
    | emit =>
      refine .inr (.inl ⟨hr', rfl, ?_⟩)
      simp only [engineCycle, beginCycle_phase, hp, emitCycle] at hu
      cases hd : txData (beginCycle s) with
      | none => simp [hd] at hu
      | some b =>
        refine ⟨b, hd, ?_⟩
        simp only [hd, beginCycle_txReady] at hu
        injection hu with hu
        cases hx : s.txReady <;> simp only [hx] at hu
        · exact .inr ⟨rfl, by rw [ht, ← hu]; rfl⟩
        · exact .inl ⟨rfl, by rw [ht, ← hu]; rfl⟩
    | settle =>
      refine .inr (.inr (.inl ⟨hr', rfl, ?_⟩))
      simp only [engineCycle, beginCycle_phase, hp] at hu
      injection hu with hu
      rw [ht, ← hu]
    | idle =>
      exact .inr (.inr (.inr ⟨hr', .inl rfl, u, by simpa [engineCycle, hp] using hu, ht⟩))
    | strWait =>
      exact .inr (.inr (.inr ⟨hr', .inr rfl, u, by simpa [engineCycle, hp] using hu, ht⟩))

/-- A cycle in which the host makes its next move. -/
theorem step_host {s : State} {a : HostAction} {rest : List HostAction} (hr : s.resetIn = false)
    (hp : s.pending = false) (hph : s.phase = .idle ∨ s.phase = .strWait) (hh : s.host = a :: rest) :
    step s = andThen (hostMove a { s with diagValid := false, host := rest }) endCycle := by
  have h1 : engineCycle (beginCycle s) = hostMove a { s with diagValid := false, host := rest } := by
    rcases hph with h | h <;> simp only [engineCycle, beginCycle_phase, h, hostCycle, beginCycle_pending,
      hp, beginCycle_host, hh] <;> rfl
  simp only [step, hr, h1]
  rfl

/-- A cycle in which no host move is left. -/
theorem step_done {s : State} (hr : s.resetIn = false) (hph : s.phase = .idle ∨ s.phase = .strWait)
    (hh : s.pending = true ∨ s.host = []) : step s = .next (endCycle (beginCycle s)) := by
  have h1 : engineCycle (beginCycle s) = .next (beginCycle s) := by
    rcases hph with h | h <;> rcases hh with h2 | h2 <;>
      cases hp : s.pending <;> simp_all [engineCycle, hostCycle]
  simp only [step, hr, h1]
  rfl

theorem step_settle {s : State} (hr : s.resetIn = false) (hp : s.phase = .settle) :
    step s = .next (endCycle (settleCycle (beginCycle s))) := by
  simp [step, hr, engineCycle, hp, andThen]

/-- A legal write to CMD is the CMD write; one to CTRL the CTRL write (R61). -/
theorem memWrite_cmd (w : Word) (s : State) : memWrite 0x00 4 w s = cmdWrite w s := rfl

theorem memWrite_ctrl (w : Word) (s : State) : memWrite 0x04 4 w s = ctrlWrite w s := rfl

theorem immediate_next {r : Response} {go : State → State} {s : State} (h : s.pending = false) :
    immediate r go s = .next (respond r (go s)) := by
  simp [immediate, h]

/-- The end of a cycle changes the clock and the inputs alone. -/
theorem endCycle_shape (s : State) : ∃ r t i, endCycle s =
    { s with cycle := s.cycle + 1, resetIn := r, txReady := t, inputs := i } := by
  unfold endCycle
  split
  · exact ⟨s.resetIn, s.txReady, s.inputs, by simp⟩
  · exact ⟨_, _, _, rfl⟩

/-- No reset is scheduled after a cycle of which none was scheduled before. -/
theorem noReset_endCycle {s u : State} (h : NoReset s) (hr : u.resetIn = s.resetIn)
    (hi : u.inputs = s.inputs) : NoReset (endCycle u) := by
  unfold endCycle
  split
  · next he => exact ⟨hr.trans h.1, fun p hp => by simp [he] at hp⟩
  · next p ps he =>
    have : ∀ q ∈ p :: ps, q.reset = false := by rw [← he, hi]; exact h.2
    exact ⟨this p (by simp), fun q hq => this q (by simp [hq])⟩

/-- What a drop leaves as it was, whatever its event but the wiring mismatch. -/
theorem drop_frame (e : Event) (s : State) (h : ∀ p, e ≠ .wiringMismatch p) :
    (drop e s).phase = s.phase ∧ (drop e s).initState = s.initState ∧ (drop e s).wire = s.wire ∧
    (drop e s).strRemaining = s.strRemaining ∧ (drop e s).strMode = s.strMode ∧
    (drop e s).host = s.host ∧ (drop e s).pending = false ∧
    (drop e s).responses = s.responses ++ [.okay] := by
  cases e with
  | wiringMismatch p => exact absurd rfl (h p)
  | _ => exact ⟨rfl, rfl, rfl, rfl, rfl, rfl, rfl, rfl⟩

/-- A string's header either loads the terminator or waits for the characters (R340). -/
theorem stringStart_cases (len : StrLen) (s : State) :
    (len = 0 ∧ stringStart len s = loadSequence [0x0A] .none s) ∨
    (len ≠ 0 ∧ stringStart len s =
      complete { s with strMode := true, strRemaining := len, phase := .strWait }) := by
  unfold stringStart
  by_cases h : len = 0
  · exact .inl ⟨h, by simp [h]⟩
  · exact .inr ⟨h, by rw [if_neg h]⟩

/-- A character is loaded with or without the terminator, and counted (R341). -/
theorem stringPayload_loads (b : Byte) (s : State) :
    ∃ seq, (seq = [b] ∨ seq = [b, 0x0A]) ∧
      stringPayload b s = loadSequence seq .none { s with strRemaining := s.strRemaining - 1 } := by
  unfold stringPayload
  by_cases h : s.strRemaining - 1 = 0
  · exact ⟨[b, 0x0A], .inr rfl, by simp only [h, if_true]⟩
  · exact ⟨[b], .inl rfl, by simp only [h, if_false]⟩

/-- An access that reaches no register: a bus error inside the window, the platform's outside it. -/
theorem refusedAccess_cases (offset : Nat) {s : State} (h : s.pending = false) :
    (offset < 0x14 ∧ refusedAccess offset s = .next (respond .busError (raise .busError s))) ∨
    (0x14 ≤ offset ∧ refusedAccess offset s = .next (respond .platform s)) := by
  unfold refusedAccess inWindow
  by_cases ho : offset < 0x14
  · exact .inl ⟨ho, by simp [ho, immediate, h]⟩
  · exact .inr ⟨by omega, by simp [ho, immediate, h]⟩

/-- A cycle of waiting for the host takes its next move or changes nothing. -/
theorem hostCycle_cases (s : State) :
    ((s.pending = true ∨ s.host = []) ∧ hostCycle s = .next s) ∨
    (s.pending = false ∧ ∃ a rest, s.host = a :: rest ∧ hostCycle s = hostMove a { s with host := rest }) := by
  unfold hostCycle
  by_cases hp : s.pending = true
  · exact .inl ⟨.inl hp, by simp [hp]⟩
  · have hp' : s.pending = false := by simpa using hp
    cases hh : s.host with
    | nil => exact .inl ⟨.inr rfl, by simp [hp']⟩
    | cons a rest => exact .inr ⟨hp', a, rest, rfl, by rw [if_neg hp]⟩

/-- A run of `m + n` cycles is a run of `m` and then one of `n`. -/
theorem cycles_add (m n : Nat) : ∀ s t, cycles m s = .next t → cycles (m + n) s = cycles n t := by
  induction m with
  | zero =>
    intro s t h
    simp only [cycles] at h
    injection h with h
    rw [h, Nat.zero_add]
  | succ m ih =>
    intro s t h
    rw [Nat.add_right_comm]
    simp only [cycles] at h ⊢
    cases hs : step s with
    | next u => rw [hs] at h; exact ih u t h
    | fault e => rw [hs] at h; cases h
    | refused e => rw [hs] at h; cases h

end Sys2Proof.Laws
end

