-- ==== Sys2Proof/Laws/PerInstr.lean ====
section
/-! SUPPORT. One lemma per instruction: its encoding has the fixed bits of its row of
spec/opcode_table.json (30_encoding.md R97). -/

namespace Sys2Proof.Laws.TableRow

open Sys2Proof.Machine

/-- The row's mask. -/
def tableMask : Instr → Word
  | .data _ => 0
  | .init _ => 0x100
  | _ => 0xFF

/-- The row's match. -/
def tableMatch : Instr → Word
  | .lf => 0x00000001
  | .tab => 0x00000002
  | .feedDots _ => 0x00000003
  | .feedLines _ => 0x00000004
  | .online => 0x00000005
  | .offline => 0x00000006
  | .lineSpacingDefault => 0x00000007
  | .lineSpacing _ => 0x00000008
  | .align _ => 0x00000009
  | .indent _ => 0x0000000A
  | .printMode _ => 0x0000000B
  | .enlarge _ => 0x0000000C
  | .boldOn => 0x0000000D
  | .boldOff => 0x0000000E
  | .doubleWidthOn => 0x0000000F
  | .doubleWidthOff => 0x00000010
  | .updownOn => 0x00000011
  | .updownOff => 0x00000012
  | .reverseOn => 0x00000013
  | .reverseOff => 0x00000014
  | .underline _ => 0x00000015
  | .userCharsOn => 0x00000016
  | .userCharsOff => 0x00000017
  | .charset _ => 0x00000018
  | .codeTable _ => 0x00000019
  | .panelKeyEnable => 0x0000001A
  | .panelKeyDisable => 0x0000001B
  | .reset => 0x0000001C
  | .transmitStatus => 0x0000001D
  | .autoStatusBack _ => 0x0000001E
  | .printSettings _ _ _ => 0x0000001F
  | .sleep _ => 0x00000020
  | .density _ => 0x00000021
  | .testPage => 0x00000022
  | .wake => 0x00000023
  | .writeString _ => 0x00000024
  | .data _ => 0x00000000
  | .init _ => 0x00000100

/-- The word the encoder gives has the fixed bits of the instruction's row. -/
def Statement (i : Instr) : Prop := encode i &&& tableMask i = tableMatch i

theorem lf : Statement .lf := by
  simp [Statement, encode, tableMask, tableMatch, mkWord_low, zext]
theorem tab : Statement .tab := by
  simp [Statement, encode, tableMask, tableMatch, mkWord_low, zext]
theorem feedDots (n : Byte) : Statement (.feedDots n) := by
  simp [Statement, encode, tableMask, tableMatch, mkWord_low, zext]
theorem feedLines (n : Byte) : Statement (.feedLines n) := by
  simp [Statement, encode, tableMask, tableMatch, mkWord_low, zext]
theorem online : Statement .online := by
  simp [Statement, encode, tableMask, tableMatch, mkWord_low, zext]
theorem offline : Statement .offline := by
  simp [Statement, encode, tableMask, tableMatch, mkWord_low, zext]
theorem lineSpacingDefault : Statement .lineSpacingDefault := by
  simp [Statement, encode, tableMask, tableMatch, mkWord_low, zext]
theorem lineSpacing (n : Byte) : Statement (.lineSpacing n) := by
  simp [Statement, encode, tableMask, tableMatch, mkWord_low, zext]
theorem align (mode : Byte) : Statement (.align mode) := by
  simp [Statement, encode, tableMask, tableMatch, mkWord_low, zext]
theorem indent (n : Byte) : Statement (.indent n) := by
  simp [Statement, encode, tableMask, tableMatch, mkWord_low, zext]
theorem printMode (bits : Byte) : Statement (.printMode bits) := by
  simp [Statement, encode, tableMask, tableMatch, mkWord_low, zext]
theorem enlarge (bits : Byte) : Statement (.enlarge bits) := by
  simp [Statement, encode, tableMask, tableMatch, mkWord_low, zext]
theorem boldOn : Statement .boldOn := by
  simp [Statement, encode, tableMask, tableMatch, mkWord_low, zext]
theorem boldOff : Statement .boldOff := by
  simp [Statement, encode, tableMask, tableMatch, mkWord_low, zext]
theorem doubleWidthOn : Statement .doubleWidthOn := by
  simp [Statement, encode, tableMask, tableMatch, mkWord_low, zext]
theorem doubleWidthOff : Statement .doubleWidthOff := by
  simp [Statement, encode, tableMask, tableMatch, mkWord_low, zext]
theorem updownOn : Statement .updownOn := by
  simp [Statement, encode, tableMask, tableMatch, mkWord_low, zext]
theorem updownOff : Statement .updownOff := by
  simp [Statement, encode, tableMask, tableMatch, mkWord_low, zext]
theorem reverseOn : Statement .reverseOn := by
  simp [Statement, encode, tableMask, tableMatch, mkWord_low, zext]
theorem reverseOff : Statement .reverseOff := by
  simp [Statement, encode, tableMask, tableMatch, mkWord_low, zext]
theorem underline (mode : Byte) : Statement (.underline mode) := by
  simp [Statement, encode, tableMask, tableMatch, mkWord_low, zext]
theorem userCharsOn : Statement .userCharsOn := by
  simp [Statement, encode, tableMask, tableMatch, mkWord_low, zext]
theorem userCharsOff : Statement .userCharsOff := by
  simp [Statement, encode, tableMask, tableMatch, mkWord_low, zext]
theorem charset (cs : Byte) : Statement (.charset cs) := by
  simp [Statement, encode, tableMask, tableMatch, mkWord_low, zext]
theorem codeTable (ct : Byte) : Statement (.codeTable ct) := by
  simp [Statement, encode, tableMask, tableMatch, mkWord_low, zext]
theorem panelKeyEnable : Statement .panelKeyEnable := by
  simp [Statement, encode, tableMask, tableMatch, mkWord_low, zext]
theorem panelKeyDisable : Statement .panelKeyDisable := by
  simp [Statement, encode, tableMask, tableMatch, mkWord_low, zext]
theorem reset : Statement .reset := by
  simp [Statement, encode, tableMask, tableMatch, mkWord_low, zext]
theorem transmitStatus : Statement .transmitStatus := by
  simp [Statement, encode, tableMask, tableMatch, mkWord_low, zext]
theorem autoStatusBack (mode : Byte) : Statement (.autoStatusBack mode) := by
  simp [Statement, encode, tableMask, tableMatch, mkWord_low, zext]
theorem printSettings (dots heat interval : Byte) : Statement (.printSettings dots heat interval) := by
  simp [Statement, encode, tableMask, tableMatch, mkWord_low, zext]
theorem sleep (n : Byte) : Statement (.sleep n) := by
  simp [Statement, encode, tableMask, tableMatch, mkWord_low, zext]
theorem density (level : Byte) : Statement (.density level) := by
  simp [Statement, encode, tableMask, tableMatch, mkWord_low, zext]
theorem testPage : Statement .testPage := by
  simp [Statement, encode, tableMask, tableMatch, mkWord_low, zext]
theorem wake : Statement .wake := by
  simp [Statement, encode, tableMask, tableMatch, mkWord_low, zext]
theorem writeString (len : StrLen) : Statement (.writeString len) := by
  simp [Statement, encode, tableMask, tableMatch, header_low]
theorem data (b : Byte) : Statement (.data b) := by simp [Statement, tableMask, tableMatch]
theorem init (pin : Byte) : Statement (.init pin) := by
  apply BitVec.eq_of_getLsbD_eq
  intro i hi
  simp only [encode, tableMask, tableMatch, BitVec.getLsbD_and, BitVec.getLsbD_or]
  cases (0x100#32).getLsbD i <;> simp

end Sys2Proof.Laws.TableRow
end

