-- ==== Sys2Proof/Laws/Rom.lean ====
section
/-! SUPPORT. The opcode ROM as facts about its entries, each read off the table (30_encoding.md R97). -/

namespace Sys2Proof.Laws
open Sys2Proof.Machine

/-- The reserved codes (R98). -/
theorem rom_valid_iff (op : Byte) : (rom op).valid = true ↔ 0x01 ≤ op.toNat ∧ op.toNat ≤ 0x24 := by
  revert op; decide

/-- WAKE is the one entry of its kind, and its byte is 0xFF. -/
theorem rom_wake (op : Byte) (h : (rom op).kind = .wake) :
    op = 0x23 ∧ (rom op).lead = [0xFF] ∧ (rom op).nargs = 0 := by
  revert op; decide

/-- WRITE_STRING is the one entry of its kind; it has no check. -/
theorem rom_string (op : Byte) (h : (rom op).kind = .string) :
    op = 0x24 ∧ (rom op).valid = true ∧ (rom op).vclass = .none := by
  revert op; decide

/-- A command takes no argument, one, or three. -/
theorem rom_nargs (op : Byte) : (rom op).nargs = 0 ∨ (rom op).nargs = 1 ∨ (rom op).nargs = 3 := by
  revert op; decide

/-- A check reads an argument that the command has. -/
theorem rom_checked_args (op : Byte) : ((rom op).vclass ≠ .none → 1 ≤ (rom op).nargs) ∧
    ((rom op).vclass = .heat → 2 ≤ (rom op).nargs) := by
  revert op; decide

end Sys2Proof.Laws
end

