-- ==== Sys2Proof/Tests/Slice0.lean ====
section
/-! SUPPORT. The model's own tests. Expected results come from the spec: 95_test_vectors.md (the vector is
named beside each test) and 30_encoding.md R97. The second half shows, for each statement with
hypotheses, a state and operands that meet them all. -/

namespace Sys2Proof.Tests
open Sys2Proof.Machine

/-! Decoding: one word for every instruction (X13, X5, R94, R95). -/

theorem test_decode_feed :
    decode .command 0x00000001 = .ok .lf ∧ decode .command 0x00000002 = .ok .tab ∧
    decode .command 0x00000503 = .ok (.feedDots 5) ∧ decode .command 0x00000504 = .ok (.feedLines 5) ∧
    decode .command 0x00000007 = .ok .lineSpacingDefault ∧
    decode .command 0x00000508 = .ok (.lineSpacing 5) ∧
    decode .command 0x00003109 = .ok (.align 0x31) ∧ decode .command 0x0000050A = .ok (.indent 5) := by
  decide

theorem test_decode_format :
    decode .command 0x0000280B = .ok (.printMode 0x28) ∧ decode .command 0x0000280C = .ok (.enlarge 0x28) ∧
    decode .command 0x0000000D = .ok .boldOn ∧ decode .command 0x0000000E = .ok .boldOff ∧
    decode .command 0x0000000F = .ok .doubleWidthOn ∧ decode .command 0x00000010 = .ok .doubleWidthOff ∧
    decode .command 0x00000011 = .ok .updownOn ∧ decode .command 0x00000012 = .ok .updownOff ∧
    decode .command 0x00000013 = .ok .reverseOn ∧ decode .command 0x00000014 = .ok .reverseOff ∧
    decode .command 0x00000115 = .ok (.underline 1) ∧ decode .command 0x00000016 = .ok .userCharsOn ∧
    decode .command 0x00000017 = .ok .userCharsOff ∧ decode .command 0x00000318 = .ok (.charset 3) ∧
    decode .command 0x00000119 = .ok (.codeTable 1) := by
  decide

theorem test_decode_device :
    decode .command 0x00000005 = .ok .online ∧ decode .command 0x00000006 = .ok .offline ∧
    decode .command 0x0000001A = .ok .panelKeyEnable ∧ decode .command 0x0000001B = .ok .panelKeyDisable ∧
    decode .command 0x0000001C = .ok .reset ∧ decode .command 0x0000001D = .ok .transmitStatus ∧
    decode .command 0x0000041E = .ok (.autoStatusBack 4) ∧
    decode .command 0xFAFF141F = .ok (.printSettings 0x14 0xFF 0xFA) ∧
    decode .command 0x00000520 = .ok (.sleep 5) ∧ decode .command 0x00004A21 = .ok (.density 0x4A) ∧
    decode .command 0x00000022 = .ok .testPage ∧ decode .command 0x00000023 = .ok .wake := by
  decide

theorem test_decode_string_and_init :
    decode .command 0x00000624 = .ok (.writeString 6) ∧
    decode .command 0xFFFFFF24 = .ok (.writeString 16777215) ∧
    decode .payload 0x00000048 = .ok (.data 0x48) ∧ decode .payload 0xFFFFFF23 = .ok (.data 0x23) ∧
    decode .ctrl 0x00000110 = .ok (.init 0x10) ∧ decode .ctrl 0xFFFFFF10 = .ok (.init 0x10) ∧
    decode .ctrl 0x00000010 = .error .initClear := by
  decide

/-- V1: the unused fields are ignored; the reserved codes are rejected by name. -/
theorem test_decode_ignored_and_reserved :
    decode .command 0xFFFFFF01 = .ok .lf ∧ decode .command 0xAABB0503 = .ok (.feedDots 5) ∧
    decode .command 0x00000000 = .error (.reservedCode 0x00) ∧
    decode .command 0x00000025 = .error (.reservedCode 0x25) ∧
    decode .command 0x000000FF = .error (.reservedCode 0xFF) := by
  decide

theorem test_decode_lanes :
    decodeLanes .command [0x1F, 0x14, 0xFF, 0xFA] = .ok (.printSettings 0x14 0xFF 0xFA) ∧
    decodeLanes .command [0x01] = .error .notOneWord ∧ decodeLanes .ctrl [] = .error .notOneWord := by
  decide

theorem test_encode_words :
    encode (.feedDots 5) = 0x00000503 ∧ encode (.printSettings 0x14 0xFF 0xFA) = 0xFAFF141F ∧
    encode (.writeString 6) = 0x00000624 ∧ encode (.data 0x21) = 0x00000021 ∧
    encode (.init 0x10) = 0x00000110 ∧ encode .wake = 0x00000023 := by
  decide

theorem test_decode_table_words :
    decodeTableWord 32 0x00000001 = some .lf ∧ decodeTableWord 32 0x00000100 = some (.init 0) ∧
    decodeTableWord 32 0 = some (.data 0) ∧ decodeTableWord 32 0x024 = some (.writeString 0) := by
  decide

/-! Well-formedness: for each check an ill-formed statement, which it refuses. -/

theorem test_wf_command : (Statement.command 0x0A [47]).wf = true ∧ (Statement.command 0x0A [256]).wf = false ∧
    (Statement.command 0x0A [-1]).wf = false ∧ (Statement.command 0x1F [20, 256, 250]).wf = false := by decide

theorem test_wf_lengths : (Statement.writeStringHdr 16777215).wf = true ∧
    (Statement.writeStringHdr 16777216).wf = false ∧ (Statement.writeStringHdr (-1)).wf = false := by decide

theorem test_wf_bytes : (Statement.data 256).wf = false ∧ (Statement.init 256).wf = false ∧
    (Statement.setPin (-1)).wf = false ∧ (Statement.data 255).wf = true := by decide

theorem test_wf_raw : (Statement.rawCmd 4294967295).wf = true ∧ (Statement.rawCmd 4294967296).wf = false ∧
    (Statement.rawCmd (-1)).wf = false := by decide

theorem test_wf_string : (Statement.writeString [.char 'H', .escape 0xFF]).wf = true ∧
    (Statement.writeString [.char 'é']).wf = false ∧ (Statement.writeString [.char '\n']).wf = false := by decide

theorem test_wf_pseudo : (Statement.toggle .bold 2).wf = false ∧ (Statement.setDensity 32 0).wf = false ∧
    (Statement.setDensity 0 8).wf = false ∧ (Statement.enlargeHw 16 0).wf = false ∧
    (Statement.enlargeHw 0 16).wf = false ∧ (Statement.setDensity 31 7).wf = true := by decide

/-! Steps on small states. -/

/-- READY, as the match path of INIT leaves it, with nothing observed. -/
def ready : State := makeReady State.reset

/-- STR_WAIT with `r` characters expected. -/
def waiting (r : StrLen) : State := { ready with phase := .strWait, strMode := true, strRemaining := r }

/-- What the step that takes the CMD write of `w` leaves to be emitted, and how often it has responded. -/
def loads (w : Word) (s : State) : Option (List Byte × List Response) :=
  match step (issuing (.write 0x00 4 w) s) with
  | .next t => some (bufferedBytes t, t.responses)
  | .fault _ => none
  | .refused _ => none

/-- X13. -/
theorem test_loads_feed :
    loads 0x00000001 ready = some ([0x0A], []) ∧ loads 0x00000002 ready = some ([0x09], []) ∧
    loads 0x00000503 ready = some ([0x1B, 0x4A, 0x05], []) ∧
    loads 0x00000504 ready = some ([0x1B, 0x64, 0x05], []) ∧
    loads 0x00000007 ready = some ([0x1B, 0x32], []) ∧
    loads 0x00000508 ready = some ([0x1B, 0x33, 0x05], []) ∧
    loads 0x00003109 ready = some ([0x1B, 0x61, 0x31], []) ∧
    loads 0x00002F0A ready = some ([0x1B, 0x42, 0x2F], []) := by decide

/-- X13. -/
theorem test_loads_format :
    loads 0x0000280B ready = some ([0x1B, 0x21, 0x28], []) ∧
    loads 0x0000280C ready = some ([0x1D, 0x21, 0x28], []) ∧
    loads 0x0000000D ready = some ([0x1B, 0x45, 0x01], []) ∧
    loads 0x0000000E ready = some ([0x1B, 0x45, 0x00], []) ∧
    loads 0x0000000F ready = some ([0x1B, 0x0E], []) ∧
    loads 0x00000010 ready = some ([0x1B, 0x14], []) := by decide

/-- X13. -/
theorem test_loads_format_toggles :
    loads 0x00000011 ready = some ([0x1B, 0x7B, 0x01], []) ∧
    loads 0x00000012 ready = some ([0x1B, 0x7B, 0x00], []) ∧
    loads 0x00000013 ready = some ([0x1D, 0x42, 0x01], []) ∧
    loads 0x00000014 ready = some ([0x1D, 0x42, 0x00], []) := by decide

/-- X13. -/
theorem test_loads_format_settings :
    loads 0x00000115 ready = some ([0x1B, 0x2D, 0x01], []) ∧
    loads 0x00000016 ready = some ([0x1B, 0x25, 0x01], []) ∧
    loads 0x00000017 ready = some ([0x1B, 0x25, 0x00], []) ∧
    loads 0x00000318 ready = some ([0x1B, 0x52, 0x03], []) ∧
    loads 0x00000119 ready = some ([0x1B, 0x74, 0x01], []) := by decide

/-- X13. -/
theorem test_loads_device :
    loads 0x00000005 ready = some ([0x1B, 0x3D, 0x01], []) ∧
    loads 0x00000006 ready = some ([0x1B, 0x3D, 0x00], []) ∧
    loads 0x0000001A ready = some ([0x1B, 0x63, 0x35, 0x00], []) ∧
    loads 0x0000001B ready = some ([0x1B, 0x63, 0x35, 0x01], []) ∧
    loads 0x0000001C ready = some ([0x1B, 0x40], []) ∧
    loads 0x0000001D ready = some ([0x1B, 0x76, 0x00], []) ∧
    loads 0x0000041E ready = some ([0x1D, 0x61, 0x04], []) ∧
    loads 0xFAFF141F ready = some ([0x1B, 0x37, 0x14, 0xFF, 0xFA], []) := by decide

/-- X13. -/
theorem test_loads_device_power :
    loads 0x00000520 ready = some ([0x1B, 0x38, 0x05], []) ∧
    loads 0x00004A21 ready = some ([0x12, 0x23, 0x4A], []) ∧
    loads 0x00000022 ready = some ([0x12, 0x54], []) ∧ loads 0x00000023 ready = some ([0xFF], []) := by decide

/-- X5, V10: the header, a character, the last character, and a string of length 0. -/
theorem test_loads_string :
    loads 0x00000624 ready = some ([], [.okay]) ∧ loads 0x00000024 ready = some ([0x0A], []) ∧
    loads 0x00000048 (waiting 6) = some ([0x48], []) ∧
    loads 0x00000021 (waiting 1) = some ([0x21, 0x0A], []) ∧
    loads 0xFFFFFF23 (waiting 2) = some ([0x23], []) := by decide

/-- X1, X2, X3: a failed check loads nothing and the write completes at once. -/
theorem test_rejected_sends_nothing :
    loads 0x00003309 ready = some ([], [.okay]) ∧ loads 0x0000300A ready = some ([], [.okay]) ∧
    loads 0x00000315 ready = some ([], [.okay]) ∧ loads 0xFA02141F ready = some ([], [.okay]) ∧
    loads 0xFA03141F ready = some ([0x1B, 0x37, 0x14, 0x03, 0xFA], []) := by decide

/-- The value of a register after the accesses `as`, each taking one cycle. -/
def readAfter (r : RegName) (as : List HostAction) (s : State) : Option Word :=
  match cycles as.length { s with host := as } with
  | .next t => some (regValue r t)
  | .fault _ => none
  | .refused _ => none

/-- V2, V3: STATUS after a command before INIT, after reserved codes, and after writes that clear. -/
theorem test_status_flags :
    readAfter .status [.write 0x00 4 0x01] State.reset = some 0x00000200 ∧
    readAfter .status [.write 0x00 4 0xFF] State.reset = some 0x00000200 ∧
    readAfter .status [.write 0x00 4 0x99] ready = some 0x00000101 ∧
    readAfter .status [.write 0x00 4 0x00, .write 0x08 4 0x100] ready = some 0x00000001 := by decide

/-- Section 2.9 of the vectors. -/
theorem test_register_window :
    readAfter .linecfg [.write 0x0C 4 0] ready = some 0x04B00807 ∧
    readAfter .strcnt [.write 0x10 4 5] ready = some 0 ∧
    readAfter .status [.write 0x00 1 0x01] ready = some 0x00000001 ∧
    readAfter .status [.write 0x02 4 0x01] ready = some 0x00000001 ∧
    readAfter .strcnt [.write 0x00 4 0x00000624] ready = some 6 ∧
    readAfter .status [.write 0x00 4 0x00000624] ready = some 0x00000011 ∧
    readAfter .ctrl [.write 0x04 4 0x010] State.reset = some 0x00000010 := by decide

/-- Section 2.2 of the vectors: INIT with the required pin. -/
theorem test_init_match : ∃ t, exec (.init Config.requiredRxPin) State.reset = .next t ∧
    statusWord t = 0x00000001 ∧ linecfgWord t = 0x04B00807 ∧ t.wire = [] := by
  refine ⟨_, by simp only [exec, execInit, immediate, initOperation]; rfl, ?_⟩
  simp only [State.reset, if_true]
  decide

/-- Section 2.2 of the vectors: INIT with another pin. -/
theorem test_init_mismatch (pin : Byte) (h : pin ≠ Config.requiredRxPin) :
    ∃ t, exec (.init pin) State.reset = .next t ∧
      t.initState = .wiringError ∧ t.diagLog = [{ sev := 2, code := 0x01 }] ∧ t.lineConfigured = false := by
  refine ⟨_, by simp only [exec, execInit, immediate, initOperation]; rfl, ?_⟩
  simp only [State.reset, if_true, if_neg h]
  exact ⟨rfl, rfl, rfl⟩

/-- The fetch interface: a table row's word runs as the first instruction after reset. -/
theorem test_fetch_word :
    step (State.reset.withFetchWord 32 0x00000503) =
      andThen (exec (.feedDots 5) (makeReady State.reset)) endCycle ∧
    step (State.reset.withFetchWord 32 0x00000100) = andThen (exec (.init 0) State.reset) endCycle := by
  constructor <;> rfl

/-! The assembler's text form (R100 to R103, 47_facade.md). -/

theorem test_text_commands :
    assembleLine "FEED_DOTS 5 ; a comment".toList = .ok [.write 0x00 4 0x00000503] ∧
    assembleLine "print_settings 0x14, 0xFF, 0xFA".toList = .ok [.write 0x00 4 0xFAFF141F] ∧
    assembleLine "AUTO_STATUS_BACK ASB_ENABLE | ASB_RTS".toList = .ok [.write 0x00 4 0x0000241E] ∧
    assembleLine "ALIGN ALIGN_MIDDLE".toList = .ok [.write 0x00 4 0x00003109] := by decide

theorem test_text_others :
    assembleLine "DATA '!'".toList = .ok [.write 0x00 4 0x00000021] ∧
    assembleLine "INIT 16".toList = .ok [.write 0x04 4 0x00000110] ∧
    assembleLine "READ STATUS".toList = .ok [.read 0x08 4] ∧
    assembleLine "CLEAR_FLAGS".toList = .ok [.write 0x08 4 0x300] ∧
    assembleLine "INDENT 256".toList = .error .operandRefused := by decide

theorem test_text_string :
    assembleLine "WRITE_STRING \"Hi\\x1B\"".toList =
      .ok [.write 0x00 4 0x00000324, .write 0x00 4 0x48, .write 0x00 4 0x69, .write 0x00 4 0x1B] := by decide

/-- R362: a backslash that begins no `\xNN` is the printable character 0x5C. -/
theorem test_text_backslash :
    assembleLine "WRITE_STRING \"a\\b\"".toList =
      .ok [.write 0x00 4 0x00000324, .write 0x00 4 0x61, .write 0x00 4 0x5C, .write 0x00 4 0x62] ∧
    assembleLine "WRITE_STRING \"\\x1G\"".toList = .ok [.write 0x00 4 0x00000424, .write 0x00 4 0x5C,
      .write 0x00 4 0x78, .write 0x00 4 0x31, .write 0x00 4 0x47] := by decide

theorem test_text_program :
    assembleText "INIT 16\n; nothing\n\nBOLD 1\nLF ; done".toList =
      .ok [.write 0x04 4 0x00000110, .write 0x00 4 0x0000000D, .write 0x00 4 0x00000001] := by decide

/-! Witnesses: a state and operands that meet all the hypotheses of each statement. -/

/-- EMIT with the bytes `seq` loaded. -/
def emitting (seq : List Byte) (p : Post) : State := loadSequence seq p ready

/-- SETTLE in the cycle after 0xFF was accepted in cycle 0. -/
def settled : State :=
  { ready with phase := .settle, post := .settle, pending := true, settleCnt := Config.settleCycles,
               cycle := 1, wire := [{ byte := 0xFF, cycle := 0 }] }

/-- WIRING_ERROR. -/
def failed : State := { State.reset with initState := .wiringError }

/-- A state that a reset is asserted in. -/
def resetting (s : State) : State := { s with resetIn := true }

/-- A state whose Transport does not take the offered byte. -/
def stalled : State := { emitting [0x0A] .none with txReady := false }

theorem reset_inv : EngineInv State.reset := by
  constructor <;> simp [State.reset]

theorem ready_inv : EngineInv ready := by
  constructor <;> simp [ready, makeReady, bindAndConfigure, State.reset]

theorem waiting_inv : EngineInv (waiting 2) := by
  constructor <;> simp [waiting, ready, makeReady, bindAndConfigure, State.reset]

theorem emitting_inv : EngineInv (emitting [0x1B, 0x40] .none) := by
  constructor <;> simp [emitting, ready, makeReady, bindAndConfigure, State.reset, loadSequence]
  decide

theorem settled_inv : EngineInv settled := by
  constructor <;> simp [settled, ready, makeReady, bindAndConfigure, State.reset, Laws.settleCycles_pos]

theorem failed_inv : EngineInv failed := by
  constructor <;> simp [failed, State.reset]

/-- The hypotheses of `Sends`: a word that decodes to the command, in a state that takes it. -/
theorem witness_sends : CommandReady ready ∧ ready.strMode = false ∧ AlwaysReady ready ∧
    decode .command 0x00000503 = .ok (.feedDots 5) := by
  exact ⟨⟨rfl, rfl, rfl⟩, rfl, ⟨rfl, rfl, rfl⟩, by decide⟩

theorem witness_LayoutCommandsSendTheirBytes : CommandReady ready ∧ ready.strMode = false ∧ AlwaysReady ready ∧
    opField 0x01 = 0x01 ∧ opField 0x02 = 0x02 ∧ opField 0xFF03 = 0x03 ∧ opField 0xFF04 = 0x04 ∧
    opField 0x07 = 0x07 ∧ opField 0xFF08 = 0x08 ∧ decode .command 0x01 = .ok .lf := by
  exact ⟨⟨rfl, rfl, rfl⟩, rfl, ⟨rfl, rfl, rfl⟩, by decide⟩

theorem witness_AlignSendsOrSendsNothing : CommandReady ready ∧ ready.strMode = false ∧ AlwaysReady ready ∧
    opField 0x3009 = 0x09 ∧ decode .command 0x3209 = .ok (.align 0x32) ∧
    ((0x2F : Byte) ≠ 0x30 ∧ (0x2F : Byte) ≠ 0x31 ∧ (0x2F : Byte) ≠ 0x32) := by
  exact ⟨⟨rfl, rfl, rfl⟩, rfl, ⟨rfl, rfl, rfl⟩, by decide⟩

theorem witness_IndentSendsOrSendsNothing : CommandReady ready ∧ ready.strMode = false ∧ AlwaysReady ready ∧
    decode .command 0x2F0A = .ok (.indent 47) ∧ (47 : Byte).toNat ≤ 47 ∧ 47 < (48 : Byte).toNat := by
  exact ⟨⟨rfl, rfl, rfl⟩, rfl, ⟨rfl, rfl, rfl⟩, by decide⟩

theorem witness_CharacterTogglesSendTheirBytes : CommandReady ready ∧ ready.strMode = false ∧
    AlwaysReady ready ∧ opField 0xFFFFFF0D = 0x0D ∧ decode .command 0x0D = .ok .boldOn ∧
    decode .command 0x17 = .ok .userCharsOff := by
  exact ⟨⟨rfl, rfl, rfl⟩, rfl, ⟨rfl, rfl, rfl⟩, by decide⟩

theorem witness_UnvalidatedFormatSettersForward : CommandReady ready ∧ ready.strMode = false ∧
    AlwaysReady ready ∧ decode .command 0xFF0B = .ok (.printMode 0xFF) ∧
    decode .command 0xFF0C = .ok (.enlarge 0xFF) ∧ decode .command 0xFF18 = .ok (.charset 0xFF) ∧
    decode .command 0xFF19 = .ok (.codeTable 0xFF) := by
  exact ⟨⟨rfl, rfl, rfl⟩, rfl, ⟨rfl, rfl, rfl⟩, by decide⟩

theorem witness_UnderlineSendsOrSendsNothing : CommandReady ready ∧ ready.strMode = false ∧
    AlwaysReady ready ∧ decode .command 0x0215 = .ok (.underline 2) ∧
    ((0x03 : Byte) ≠ 0x00 ∧ (0x03 : Byte) ≠ 0x01 ∧ (0x03 : Byte) ≠ 0x02) := by
  exact ⟨⟨rfl, rfl, rfl⟩, rfl, ⟨rfl, rfl, rfl⟩, by decide⟩

theorem witness_FixedDeviceCommandsSendTheirBytes : CommandReady ready ∧ ready.strMode = false ∧
    AlwaysReady ready ∧ decode .command 0x05 = .ok .online ∧ decode .command 0x1B = .ok .panelKeyDisable ∧
    decode .command 0x22 = .ok .testPage := by
  exact ⟨⟨rfl, rfl, rfl⟩, rfl, ⟨rfl, rfl, rfl⟩, by decide⟩

theorem witness_UnvalidatedDeviceSettersForward : CommandReady ready ∧ ready.strMode = false ∧
    AlwaysReady ready ∧ decode .command 0xFF1E = .ok (.autoStatusBack 0xFF) ∧
    decode .command 0xFF20 = .ok (.sleep 0xFF) ∧ decode .command 0xFF21 = .ok (.density 0xFF) := by
  exact ⟨⟨rfl, rfl, rfl⟩, rfl, ⟨rfl, rfl, rfl⟩, by decide⟩

theorem witness_PrintSettingsSendsOrSendsNothing : CommandReady ready ∧ ready.strMode = false ∧
    AlwaysReady ready ∧ decode .command 0x0003001F = .ok (.printSettings 0 3 0) ∧
    3 ≤ (3 : Byte).toNat ∧ (2 : Byte).toNat < 3 := by
  exact ⟨⟨rfl, rfl, rfl⟩, rfl, ⟨rfl, rfl, rfl⟩, by decide⟩

theorem witness_WakeSendsItsByteAndSettles : CommandReady ready ∧ AlwaysReady ready ∧ ready.settleCnt = 0 ∧
    opField 0xFF000023 = 0x23 ∧ 0 < Config.settleCycles := by
  exact ⟨⟨rfl, rfl, rfl⟩, ⟨rfl, rfl, rfl⟩, rfl, by decide, Laws.settleCycles_pos⟩

theorem witness_StringHeaderStartsString : CommandReady ready ∧ (1 : StrLen) ≠ 0 ∧
    (16777215 : StrLen) ≠ 0 ∧ decode .command 0x24 = .ok (.writeString 0) := by
  exact ⟨⟨rfl, rfl, rfl⟩, by decide⟩

theorem witness_PayloadWordSendsItsCharacter :
    (PayloadReady (waiting 2) ∧ (waiting 2).strMode = true ∧ AlwaysReady (waiting 2) ∧
      (waiting 2).strRemaining ≠ 0 ∧ (waiting 2).strRemaining ≠ 1) ∧
    (PayloadReady (waiting 1) ∧ (waiting 1).strMode = true ∧ AlwaysReady (waiting 1) ∧
      (waiting 1).strRemaining = 1) := by
  exact ⟨⟨⟨rfl, rfl, rfl⟩, rfl, ⟨rfl, rfl, rfl⟩, by decide⟩, ⟨rfl, rfl, rfl⟩, rfl, ⟨rfl, rfl, rfl⟩, rfl⟩

/-- A host about to write the strings "Hi" and "". -/
def printing (chars : List Byte) : State := { ready with host := stringAccesses chars ++ [.wait] }

theorem witness_StringReachesTheWireTerminated :
    ([0x48, 0x69] : List Byte).length < 2 ^ 24 ∧ CommandReady (printing [0x48, 0x69]) ∧
    (printing [0x48, 0x69]).strMode = false ∧ AlwaysReady (printing [0x48, 0x69]) ∧
    (printing [0x48, 0x69]).host = stringAccesses [0x48, 0x69] ++ [.wait] ∧ CommandReady (printing []) := by
  exact ⟨by decide, ⟨rfl, rfl, rfl⟩, rfl, ⟨rfl, rfl, rfl⟩, rfl, ⟨rfl, rfl, rfl⟩⟩

/-- A pin other than the required one. -/
theorem other_pin : ∃ pin : Byte, pin ≠ Config.requiredRxPin :=
  ⟨Config.requiredRxPin + 1, by intro h; bv_omega⟩

theorem witness_InitBindsOrFailsOnce : initField 0x110 = true ∧
    (State.reset.pending = false ∧ State.reset.initState = .uninit) ∧
    (∃ pin : Byte, pin ≠ Config.requiredRxPin) ∧ (ready.pending = false ∧ ready.initState ≠ .uninit) := by
  exact ⟨by decide, ⟨rfl, rfl⟩, other_pin, rfl, by decide⟩

theorem witness_WiringErrorIsFatalUntilReset :
    (EngineInv State.reset ∧ State.reset.initState = .uninit ∧ ∃ pin : Byte, pin ≠ Config.requiredRxPin) ∧
    failed.initState = .wiringError ∧ failed.phase = .idle ∧ failed.pending = false ∧ NoReset failed := by
  exact ⟨⟨reset_inv, rfl, other_pin⟩, rfl, rfl, rfl, rfl, fun p h => by cases h⟩

theorem witness_PinWriteSetsOnlyRxPin : initField 0xFFFFFEFF = false ∧ State.reset.pending = false ∧
    failed.pending = false ∧ ready.pending = false := by decide

theorem witness_CmdWriteBeforeReadyIsDropped : State.reset.pending = false ∧ State.reset.initState ≠ .ready ∧
    failed.pending = false ∧ failed.initState ≠ .ready ∧ portOf .lf ≠ .ctrl := by decide

theorem witness_ReservedCodeSetsIllegalOp : CommandReady ready ∧ opField 0xFFFFFF00 = 0x00 ∧
    0x25 ≤ (opField 0x25).toNat ∧ 0x25 ≤ (opField 0xFF).toNat := by
  exact ⟨⟨rfl, rfl, rfl⟩, by decide⟩

theorem witness_CmdWriteFollowsTheDispatchOrder : ready.pending = false ∧ (waiting 2).pending = false ∧
    failed.pending = false := by decide

theorem witness_InstructionIsItsCmdWord : portOf .wake ≠ .ctrl ∧ portOf (.data 0x1B) ≠ .ctrl := by decide

theorem witness_UnusedFieldsHaveNoEffect : ready.phase ≠ .strWait ∧
    (rom (opField 0xFFFFFF01)).kind ≠ .string ∧
    assemble (.command 0x03 [5]) = .ok [.write 0x00 4 0x00000503] := by decide

theorem witness_EachAcceptedByteAdvancesTheSequence :
    bufferedBytes (emitting [0x1B, 0x40] .none) = [0x1B, 0x40] ∧
    bufferedBytes (emitting [0xFF] .settle) = [0xFF] ∧ (emitting [0xFF] .settle).post = .settle ∧
    (emitting [0x1B] .none).resetIn = false ∧ (emitting [0x1B] .none).txReady = true ∧
    bufferedBytes (loadSequence [0x48] .none (waiting 2)) = [0x48] ∧
    (loadSequence [0x48] .none (waiting 2)).strMode = true ∧
    (loadSequence [0x48] .none (waiting 2)).strRemaining ≠ 0 ∧
    (emitting [0x0A] .none).strMode = false := by decide

theorem witness_StalledTransportHoldsTheOffer : bufferedBytes stalled ≠ [] ∧ stalled.resetIn = false ∧
    stalled.txReady = false := by decide

theorem witness_TransportHangEndsOnlyByReset : bufferedBytes stalled ≠ [] ∧ stalled.txReady = false ∧
    stalled.inputs = [] ∧ stalled.resetIn = false ∧ (resetting stalled).resetIn = true ∧
    bufferedBytes (resetting stalled) ≠ [] := by decide

theorem witness_SettleWindowHoldsTheWrite :
    (bufferedBytes (emitting [0xFF] .settle) = [0xFF] ∧ (emitting [0xFF] .settle).post = .settle ∧
      (emitting [0xFF] .settle).txReady = true ∧ NoReset (emitting [0xFF] .settle)) ∧
    settled.phase = .settle ∧ NoReset settled ∧ 0 < settled.settleCnt := by
  exact ⟨⟨by decide, rfl, rfl, rfl, fun p h => by cases h⟩, rfl, ⟨rfl, fun p h => by cases h⟩,
    Laws.settleCycles_pos⟩

theorem witness_EmittedBytesIgnoreHistory : (waiting 2).pending = false ∧ (waiting 2).phase ≠ .emit ∧
    (waiting 2).initState = { waiting 2 with illegalOp := true }.initState ∧
    (waiting 2).strRemaining = { waiting 2 with illegalOp := true }.strRemaining ∧
    ready.phase ≠ .emit ∧ ready.pending = false := by decide

theorem witness_NoByteOnAnUnconfiguredLine : EngineInv (emitting [0x1B, 0x40] .none) ∧
    txValid (emitting [0x1B, 0x40] .none) = true ∧
    ∃ t, step (emitting [0x1B, 0x40] .none) = .next t ∧ t.wire ≠ (emitting [0x1B, 0x40] .none).wire := by
  exact ⟨emitting_inv, rfl, _, rfl, by decide⟩

theorem witness_RomSequencesFitTheBuffer : (rom 0x1F).valid = true ∧ (rom 0x24).valid = true ∧
    (rom 0x01).kind ≠ .string := by decide

theorem witness_ReadsHaveNoSideEffect : ready.pending = false ∧ (waiting 2).pending = false := by decide

theorem witness_StatusFieldsReadTheState : (5 : Nat) ≤ 5 ∧ (5 : Nat) ≤ 7 ∧ (10 : Nat) ≤ 31 := by decide

theorem witness_StickyBitsAreClearedByWritingOne : ready.pending = false ∧
    (∃ t, step (issuing (.write 0x08 4 0x300) { ready with illegalOp := true, notReady := true }) = .next t ∧
      t.illegalOp = false ∧ t.notReady = false) ∧
    CommandReady ready ∧ (rom (opField 0x3309)).valid = true ∧
    check (rom (opField 0x3309)).vclass (a0 0x3309) (a1 0x3309) = false := by
  exact ⟨rfl, ⟨_, rfl, by decide⟩, ⟨rfl, rfl, rfl⟩, by decide⟩

theorem witness_LinecfgReadsTheFraming : EngineInv State.reset ∧ EngineInv ready ∧ ready.pending = false := by
  exact ⟨reset_inv, ready_inv, rfl⟩

theorem witness_StrcntReadsTheCount : (waiting 2).pending = false ∧ strcntWord (waiting 2) = 2 := by decide

theorem witness_IllegalAccessFormsAreBusErrors : ready.pending = false ∧
    ((0x13 : Nat) < 0x14 ∧ (0x13 : Nat) % 4 ≠ 0) ∧ ((0x00 : Nat) < 0x14 ∧ (1 : Nat) ≠ 4) := by decide

theorem witness_AccessesBeyondTheWindowAreNotTheEngines : ready.pending = false ∧ (0x14 : Nat) ≤ 0x14 := by
  decide

theorem witness_ByteLanesAreLittleEndian : lanesOfWord 0xFAFF141F = [0x1F, 0x14, 0xFF, 0xFA] := by decide

theorem witness_HostWaitsWhileItsWriteIsPending :
    ∃ t, step (emitting [0x1B, 0x40] .none) = .next t ∧ (emitting [0x1B, 0x40] .none).pending = true ∧
      (emitting [0x1B, 0x40] .none).resetIn = false := by
  exact ⟨_, rfl, rfl, rfl⟩

theorem witness_AccessWhilePendingIsRefused : (emitting [0x0A] .none).pending = true ∧ settled.pending = true := by
  decide

theorem witness_StepRunsTheDecodedInstruction :
    (issuing (.write 0x00 4 0x503) ready).host = .write 0x00 4 0x503 :: [] ∧ ready.resetIn = false ∧
    ready.pending = false ∧ decode (cmdPort ready.phase) 0x503 = .ok (.feedDots 5) ∧
    decode (cmdPort (waiting 2).phase) 0x503 = .ok (.data 3) ∧ decode .ctrl 0x110 = .ok (.init 16) := by decide

theorem witness_InitStateChangesOnlyByInitAndReset :
    (∃ t, step (resetting ready) = .next t ∧ (resetting ready).resetIn = true) ∧
    (∃ t, step ready = .next t ∧ ready.resetIn = false ∧ ready.initState = .ready) ∧
    (∃ t, step failed = .next t ∧ failed.resetIn = false ∧ failed.initState = .wiringError) ∧
    (∃ t, step State.reset = .next t ∧ State.reset.resetIn = false ∧ State.reset.initState = .uninit) := by
  exact ⟨⟨_, rfl, rfl⟩, ⟨_, rfl, rfl, rfl⟩, ⟨_, rfl, rfl, rfl⟩, ⟨_, rfl, rfl, rfl⟩⟩

/-- The step of a wiring mismatch, and one without. -/
theorem witness_OnlyTheMismatchIsReported :
    (∃ (pin : Byte) (t : State), step (issuing (.write 0x04 4 (0x100 ||| zext pin)) State.reset) = .next t ∧ t.diagValid = true) ∧
    ∃ t, step ready = .next t ∧ t.diagValid = false := by
  refine ⟨?_, _, rfl, rfl⟩
  obtain ⟨pin, h⟩ := other_pin
  refine ⟨pin, endCycle (respond .okay (raise (.wiringMismatch pin) (setPin pin (beginCycle State.reset)))), ?_, rfl⟩
  rw [Laws.step_host (s := issuing (.write 0x04 4 (0x100 ||| zext pin)) State.reset) rfl rfl (.inl rfl) rfl]
  have hd : decode .ctrl (0x100 ||| zext pin) = .ok (.init pin) := by
    simp [decode, decodeCtrl, Laws.pinField_init, Laws.initField_init]
  show andThen (ctrlWrite _ (beginCycle State.reset)) endCycle = _
  simp only [ctrlWrite, hd, exec, execInit, Laws.immediate_next (show (beginCycle State.reset).pending = false from rfl)]
  have hi : initOperation pin (beginCycle State.reset) =
      raise (.wiringMismatch pin) (setPin pin (beginCycle State.reset)) := by
    rcases Laws.initOperation_cases pin (beginCycle State.reset) with ⟨_, hp, _⟩ | ⟨_, _, he⟩ | ⟨hi, _⟩
    · exact absurd hp h
    · exact he
    · exact absurd rfl hi
  rw [hi]
  rfl

theorem witness_StringCounterNeverWraps :
    (EngineInv ready ∧ ∃ t, step (issuing (.write 0x00 4 0x624) ready) = .next t ∧
      t.strRemaining ≠ ready.strRemaining) ∧
    EngineInv (waiting 2) ∧ ∃ t, step (issuing (.write 0x00 4 0x48) (waiting 2)) = .next t ∧
      t.strRemaining ≠ (waiting 2).strRemaining := by
  exact ⟨⟨ready_inv, _, rfl, by decide⟩, waiting_inv, _, rfl, by decide⟩

theorem witness_ResetPutsEveryElement : (resetting (emitting [0x1B, 0x40] .none)).resetIn = true ∧
    (resetting settled).resetIn = true := by decide

theorem witness_InvariantKeptByEveryStep :
    (EngineInv (emitting [0x1B, 0x40] .none) ∧ ∃ t, step (emitting [0x1B, 0x40] .none) = .next t) ∧
    (EngineInv settled ∧ ∃ t, step settled = .next t) ∧ EngineInv failed ∧ ∃ t, step failed = .next t := by
  exact ⟨⟨emitting_inv, _, rfl⟩, ⟨settled_inv, _, rfl⟩, failed_inv, _, rfl⟩

theorem witness_StepIsSafeUnderTheInvariant : EngineInv (emitting [0x1B, 0x40] .none) ∧ EngineInv settled ∧
    EngineInv (waiting 2) ∧ EngineInv ready := ⟨emitting_inv, settled_inv, waiting_inv, ready_inv⟩

theorem witness_StepKeepsThePromisedWire : EngineInv (emitting [0x1B, 0x40] .none) ∧
    (emitting [0x1B, 0x40] .none).resetIn = false ∧
    ∃ t, step (emitting [0x1B, 0x40] .none) = .next t := ⟨emitting_inv, rfl, _, rfl⟩

theorem witness_HostProgramsRunToTheirEnd : EngineInv (printing [0x48, 0x69]) ∧
    AlwaysReady (printing [0x48, 0x69]) ∧
    promisedWire (printing [0x48, 0x69]) = [0x48, 0x69, 0x0A] := by
  exact ⟨{ ready_inv with }, ⟨rfl, rfl, rfl⟩, by decide⟩

theorem witness_PseudoInstructionsExpand : ((2 : Int) ≠ 0 ∧ (2 : Int) ≠ 1) ∧ (31 < 32 ∧ 7 < 8) ∧
    (31 : Int) < 32 ∧ (7 : Int) < 8 ∧ (15 < 16) ∧ (15 : Int) < 16 := by decide

theorem witness_AssemblerRefusesAndNeverTruncates :
    (∃ n ∈ [(20 : Int), 256, 250], n < 0 ∨ 255 < n) ∧ ((-1 : Int) < 0) ∧ (16777215 : Int) < 16777216 ∧
    ((∀ n ∈ [(20 : Nat), 255, 250], n ≤ 255) ∧ (rom 0x1F).valid = true ∧ (rom 0x1F).kind ≠ .string ∧
      [(20 : Nat), 255, 250].length = (rom 0x1F).nargs) ∧ (255 : Nat) ≤ 255 ∧ 16777215 ≤ 16777215 := by decide

theorem witness_StringStatementExpands :
    [StrItem.char ' ', .char '~', .escape 0xFF].all StrItem.wf = true ∧
    [StrItem.char '~', .escape 0].length < 2 ^ 24 ∧ [StrItem.char '\n'].all StrItem.wf = false := by decide

end Sys2Proof.Tests
end

-- ==== Proofs of the statements of 00_scope.md ====
section
/-!
The settle window's length: R8 constrains `SETTLE_CYCLES` from below by a ceiling, and the model reaches every
allowed value as that ceiling plus a margin.
-/

namespace Sys2Proof.Proofs.Scope

/-- Rounding up in R8's constraint loses no time: the least allowed count already lasts `SETTLE_MS`. -/
theorem settleMs_mul_clkHz_le_minSettleCycles :
    Config.settleMs * Config.clkHz ≤ 1000 * Config.minSettleCycles := by
  unfold Config.minSettleCycles
  omega

theorem minSettleCycles_le_settleCycles : Config.minSettleCycles ≤ Config.settleCycles :=
  Nat.le_add_right _ _

/-- The window lasts at least `SETTLE_MS` at any clock. -/
theorem settleMs_mul_clkHz_le_settleCycles :
    Config.settleMs * Config.clkHz ≤ 1000 * Config.settleCycles :=
  calc Config.settleMs * Config.clkHz
    _ ≤ 1000 * Config.minSettleCycles := settleMs_mul_clkHz_le_minSettleCycles
    _ ≤ 1000 * Config.settleCycles := Nat.mul_le_mul_left _ minSettleCycles_le_settleCycles

/-- Settles O26: the ceiling of R8 covers the 50 ms and the margin only adds to it; a clock of at least 1 Hz makes
the ceiling positive. -/
theorem settleCyclesCoverFiftyMilliseconds : Obligations.SettleCyclesCoverFiftyMilliseconds :=
  ⟨settleMs_mul_clkHz_le_settleCycles, Laws.settleCycles_pos⟩

end Sys2Proof.Proofs.Scope
end

-- ==== Lemmas: what the host's moves and an accepted byte can do ====
section
/-!
Each instruction that is written to CMD is one acceptance (R121) with an effect of its own; so a CMD write, and
with it any move of the host, can do one of a few things, which `CommandEffect` and `HostEffect` list.
-/

namespace Sys2Proof.Proofs.Cycle
open Sys2Proof.Machine Sys2Proof.Laws

/-- The bytes of a valid ROM entry fit the sequence buffer (R33). -/
theorem rom_fits (op : Byte) (h : (rom op).valid = true) :
    (rom op).lead.length + (rom op).nargs ≤ Config.maxSeqLen ∧
    ((rom op).kind ≠ .string → 1 ≤ (rom op).lead.length + (rom op).nargs) := by
  revert op; decide

theorem romSequence_length (op : Byte) (w : Word) :
    (romSequence (rom op) w).length = (rom op).lead.length + (rom op).nargs := by
  have hargs : (rom op).nargs ≤ (argBytes w).length := by
    rcases rom_nargs op with h | h | h <;> simp [h, argBytes]
  simp [romSequence, Nat.min_eq_left hargs]

theorem romSequence_of_settle {op : Byte} (w : Word) (h : romPost (rom op) = .settle) :
    romSequence (rom op) w = [0xFF] := by
  have hk : (rom op).kind = .wake := by
    by_contra hne
    simp [romPost, hne] at h
  obtain ⟨-, hlead, hargs⟩ := rom_wake op hk
  simp [romSequence, hlead, hargs]

/-- What a command word can do once R120 and the first two tests of R121 let it through: load a sequence that
fits the buffer, the settle window following 0xFF alone (R125); start a string (R340); or be dropped (R123, R124). -/
inductive CommandEffect (s : State) : State → Prop
  | load (seq : List Byte) (post : Post) (hne : 1 ≤ seq.length) (hfit : seq.length ≤ 5)
      (hwake : post = .settle → seq = [0xFF]) : CommandEffect s (loadSequence seq post s)
  | header (len : StrLen) : CommandEffect s (stringStart len s)
  | reject (e : Event) (he : ∀ p, e ≠ .wiringMismatch p) : CommandEffect s (drop e s)

theorem romDispatch_effect (w : Word) (s : State) : CommandEffect s (romDispatch w s) := by
  unfold romDispatch
  dsimp only
  split
  · exact .reject _ (by simp)
  next hvalid =>
    obtain ⟨hfit, hne⟩ := rom_fits (opField w) (by simpa using hvalid)
    split
    · exact .reject _ (by simp)
    · split
      · exact .header _
      next hkind =>
        rw [← romSequence_length _ w] at hfit hne
        exact .load _ _ (hne hkind) hfit (romSequence_of_settle w)

/-- `f` is an acceptance (R121) of a word whose own effect is one of `CommandEffect`. -/
def IsAcceptance (f : State → Result) : Prop :=
  ∃ op pass go, (∀ s, CommandEffect s (go s)) ∧ f = acceptCommand op pass go

/-- The form of most commands: an acceptance whose effect is the load of fixed bytes and arguments. -/
theorem isAcceptance_load (op : Byte) (pass : Bool) {seq : List Byte} {post : Post} (hne : 1 ≤ seq.length)
    (hfit : seq.length ≤ 5) (hwake : post = .settle → seq = [0xFF]) :
    IsAcceptance (acceptCommand op pass (loadSequence seq post)) :=
  ⟨op, pass, _, fun _ => .load seq post hne hfit hwake, rfl⟩

/-- Every instruction but INIT is an acceptance. -/
theorem exec_isAcceptance (i : Instr) (h : portOf i ≠ .ctrl) : IsAcceptance (exec i) := by
  cases i with
  | init pin => exact absurd rfl h
  | writeString len => exact ⟨0x24, true, _, fun _ => .header len, rfl⟩
  | data b => exact ⟨b, true, _, romDispatch_effect (zext b), rfl⟩
  | _ => exact isAcceptance_load _ _ (by simp) (by simp) (by simp)

theorem acceptCommand_pending {op : Byte} {pass : Bool} {go : State → State} {s : State} (h : s.pending = true) :
    acceptCommand op pass go s = .refused .accessWhilePending := by
  simp [acceptCommand, h]

theorem exec_pending (i : Instr) {s : State} (h : s.pending = true) : exec i s = .refused .accessWhilePending := by
  by_cases hi : portOf i = .ctrl
  · cases i with
    | init pin => simp [exec, execInit, immediate, h]
    | _ => simp [portOf] at hi
  · obtain ⟨op, pass, go, -, hf⟩ := exec_isAcceptance i hi
    rw [hf, acceptCommand_pending h]

/-- No CMD write decodes to INIT. -/
theorem portOf_decode_cmdPort {p : Phase} {w : Word} {i : Instr} (h : decode (cmdPort p) w = .ok i) :
    portOf i ≠ .ctrl := by
  by_cases hp : p = .strWait
  · simp only [cmdPort, hp, if_true, decode, decodePayload] at h
    cases h
    simp [portOf]
  · simp only [cmdPort, hp, if_false, decode, decodeCommand] at h
    split at h <;> cases h <;> simp [portOf]

theorem cmdWrite_isAcceptance (w : Word) (s : State) : ∃ f, IsAcceptance f ∧ cmdWrite w s = f s := by
  unfold cmdWrite
  split
  next i hi => exact ⟨exec i, exec_isAcceptance i (portOf_decode_cmdPort hi), rfl⟩
  · exact ⟨_, ⟨_, _, _, fun _ => .reject _ (by simp), rfl⟩, rfl⟩

/-- What a move of the host can do while none of its writes is pending. -/
inductive HostEffect (s : State) : HostAction → State → Prop
  /-- No access. -/
  | wait : HostEffect s .wait s
  /-- A CMD write before READY, or one whose argument its check refuses (R122, R124). -/
  | dropped (w : Word) (e : Event) (he : ∀ p, e ≠ .wiringMismatch p) :
      HostEffect s (.write 0x00 4 w) (drop e s)
  /-- A CMD write in STR_WAIT (R341). -/
  | character (w : Word) (b : Byte) (hready : PayloadReady s) :
      HostEffect s (.write 0x00 4 w) (stringPayload b s)
  /-- A CMD write accepted as a command word. -/
  | command (w : Word) {u : State} (hready : s.initState = .ready) (hphase : s.phase ≠ .strWait)
      (heffect : CommandEffect s u) : HostEffect s (.write 0x00 4 w) u
  /-- A CTRL write with INIT = 1 (R160). -/
  | init (v : Word) (hinit : initField v = true) :
      HostEffect s (.write 0x04 4 v) (respond .okay (initOperation (pinField v) s))
  /-- A CTRL write with INIT = 0 (R165). -/
  | pin (v : Word) (hinit : initField v = false) :
      HostEffect s (.write 0x04 4 v) (respond .okay (setPin (pinField v) s))
  /-- A STATUS write (R26). -/
  | status (v : Word) : HostEffect s (.write 0x08 4 v) (respond .okay (clearSticky v s))
  /-- Any other access, which gets its response and changes nothing. -/
  | answered (a : HostAction) (r : Response) : HostEffect s a (respond r s)
  /-- An access of an illegal form (R62). -/
  | refused (a : HostAction) : HostEffect s a (respond .busError (raise .busError s))

/-- The legal accesses of the window (R61, R62). -/
theorem offset_of_legal {offset bytes : Nat} (h : (inWindow offset && legalForm offset bytes) = true) :
    bytes = 4 ∧ (offset = 0x00 ∨ offset = 0x04 ∨ offset = 0x08 ∨ offset = 0x0C ∨ offset = 0x10) := by
  simp [inWindow, legalForm] at h
  omega

section
variable {s : State} (hp : s.pending = false)
include hp

theorem cmdWrite_effect (w : Word) : ∃ u, cmdWrite w s = .next u ∧ HostEffect s (.write 0x00 4 w) u := by
  obtain ⟨f, ⟨op, pass, go, hgo, rfl⟩, hw⟩ := cmdWrite_isAcceptance w s
  rcases acceptCommand_cases op pass go s with
    ⟨hpend, -⟩ | ⟨-, -, h⟩ | ⟨hready, h⟩ | ⟨-, hready, hphase, -, h⟩ | ⟨-, -, -, -, h⟩
  · simp [hp] at hpend
  · exact ⟨_, hw.trans h, .dropped w .notReady (by simp)⟩
  · exact ⟨_, hw.trans h, .character w op hready⟩
  · exact ⟨_, hw.trans h, .command w hready hphase (hgo s)⟩
  · exact ⟨_, hw.trans h, .dropped w (.paramRejected op) (by simp)⟩

theorem ctrlWrite_effect (v : Word) : ∃ u, ctrlWrite v s = .next u ∧ HostEffect s (.write 0x04 4 v) u := by
  cases hv : initField v with
  | true =>
    have h : ctrlWrite v s = immediate .okay (initOperation (pinField v)) s := by
      simp [ctrlWrite, decode, decodeCtrl, hv, exec, execInit]
    exact ⟨_, h.trans (immediate_next hp), .init v hv⟩
  | false =>
    have h : ctrlWrite v s = immediate .okay (setPin (pinField v)) s := by
      simp [ctrlWrite, decode, decodeCtrl, hv]
    exact ⟨_, h.trans (immediate_next hp), .pin v hv⟩

theorem refusedAccess_effect (offset : Nat) (a : HostAction) :
    ∃ u, refusedAccess offset s = .next u ∧ HostEffect s a u := by
  rcases refusedAccess_cases offset hp with ⟨-, h⟩ | ⟨-, h⟩
  · exact ⟨_, h, .refused a⟩
  · exact ⟨_, h, .answered a .platform⟩

theorem memWrite_effect (offset bytes : Nat) (v : Word) :
    ∃ u, memWrite offset bytes v s = .next u ∧ HostEffect s (.write offset bytes v) u := by
  cases hl : inWindow offset && legalForm offset bytes with
  | true =>
    obtain ⟨rfl, rfl | rfl | rfl | rfl | rfl⟩ := offset_of_legal hl
    · exact cmdWrite_effect hp v
    · exact ctrlWrite_effect hp v
    · exact ⟨_, immediate_next hp, .status v⟩
    · exact ⟨_, immediate_next hp, .answered _ .okay⟩
    · exact ⟨_, immediate_next hp, .answered _ .okay⟩
  | false =>
    have h : memWrite offset bytes v s = refusedAccess offset s := by simp [memWrite, hl]
    rw [h]
    exact refusedAccess_effect hp offset _

theorem memRead_effect (offset bytes : Nat) :
    ∃ u, memRead offset bytes s = .next u ∧ HostEffect s (.read offset bytes) u := by
  unfold memRead
  split
  · exact ⟨_, immediate_next hp, .answered _ _⟩
  · exact refusedAccess_effect hp offset _

/-- While no write is pending every move of the host has a next state, and it is one of `HostEffect`. -/
theorem hostMove_effect (a : HostAction) : ∃ u, hostMove a s = .next u ∧ HostEffect s a u := by
  cases a with
  | wait => exact ⟨s, rfl, .wait⟩
  | read offset bytes => exact memRead_effect hp offset bytes
  | write offset bytes v => exact memWrite_effect hp offset bytes v

end

/-- A cycle of waiting for the host has a next state: the state itself while a write is pending or no move is
left, and otherwise the effect of the host's next move. -/
theorem hostCycle_effect (s : State) :
    ((s.pending = true ∨ s.host = []) ∧ hostCycle s = .next s) ∨
    (s.pending = false ∧ ∃ a rest u, s.host = a :: rest ∧ hostCycle s = .next u ∧
      HostEffect { s with host := rest } a u) := by
  rcases hostCycle_cases s with h | ⟨hp, a, rest, hh, hc⟩
  · exact .inl h
  · obtain ⟨u, hu, heffect⟩ := hostMove_effect (s := { s with host := rest }) hp a
    exact .inr ⟨hp, a, rest, u, hh, hc.trans hu, heffect⟩

/-- What `EmitStep` can do (R126, R127): the byte is on the wire, and after the last one the command settles, waits
for the next character, or is done. -/
theorem emitStep_cases (b : Byte) (s : State) :
    (s.seqIdx + 1 ≠ s.seqLen ∧ emitStep b s = { emit b s with seqIdx := s.seqIdx + 1 }) ∨
    (s.post = .settle ∧ emitStep b s =
      { emit b s with seqIdx := s.seqIdx + 1, settleCnt := Config.settleCycles, phase := .settle }) ∨
    (s.post = .none ∧ s.strMode = true ∧ s.strRemaining ≠ 0 ∧ emitStep b s =
      complete { emit b s with seqIdx := s.seqIdx + 1, phase := .strWait }) ∨
    (s.post = .none ∧ (s.strMode = false ∨ s.strRemaining = 0) ∧ emitStep b s =
      complete { emit b s with seqIdx := s.seqIdx + 1, strMode := false, phase := .idle }) := by
  by_cases hlast : s.seqIdx + 1 = s.seqLen
  · have hstep : emitStep b s = finish { emit b s with seqIdx := s.seqIdx + 1 } := by simp [emitStep, hlast]
    rw [hstep]
    exact .inr (finish_cases { emit b s with seqIdx := s.seqIdx + 1 })
  · exact .inl ⟨hlast, by simp [emitStep, hlast]⟩

end Sys2Proof.Proofs.Cycle
end

-- ==== Proofs of the statements of 10_state.md: the invariants of R41 ====
section
/-!
One lemma for each kind of cycle says that it keeps `EngineInv`. Within a cycle the timer's count and the stamps of
the wire run one behind the clock, so that each lemma is about the state after `endCycle`.
-/

namespace Sys2Proof.Proofs.Invariant
open Sys2Proof.Machine Sys2Proof.Laws Sys2Proof.Proofs.Cycle

/-- `t` agrees with `s` on every field the invariants read. -/
def SameForInv (s t : State) : Prop :=
  t = { s with rxPin := t.rxPin, illegalOp := t.illegalOp, notReady := t.notReady, diagValid := t.diagValid,
               diagSev := t.diagSev, diagCode := t.diagCode, resetIn := t.resetIn, txReady := t.txReady,
               inputs := t.inputs, host := t.host, diagLog := t.diagLog, responses := t.responses,
               events := t.events }

theorem inv_congr {s t : State} (h : EngineInv s) (hst : SameForInv s t) : EngineInv t := by
  rw [hst]
  exact ⟨h.quiet, h.configured, h.bound, h.binding, h.emitting, h.waking, h.settling, h.timerIdle, h.awaiting,
    h.idle, h.counting, h.stamped⟩

theorem inv_respond {s : State} (r : Response) (h : EngineInv s) : EngineInv (respond r s) :=
  inv_congr h rfl

theorem inv_raise {s : State} {e : Event} (he : ∀ p, e ≠ .wiringMismatch p) (h : EngineInv s) :
    EngineInv (raise e s) := by
  cases e with
  | wiringMismatch p => exact absurd rfl (he p)
  | _ => exact inv_congr h rfl

/-- Outside EMIT and SETTLE no write is pending, so that a completed access changes nothing the invariants read. -/
theorem inv_drop {s : State} {e : Event} (he : ∀ p, e ≠ .wiringMismatch p) (hp : s.pending = false)
    (h : EngineInv s) : EngineInv (drop e s) := by
  have hkept : { raise e s with pending := false } = raise e s := by
    rw [← hp, ← raise_pending e s]
  unfold drop complete
  rw [hkept]
  exact inv_respond _ (inv_raise he h)

theorem inv_endCycle_of_tick {s : State} (h : EngineInv { s with cycle := s.cycle + 1 }) :
    EngineInv (endCycle s) := by
  obtain ⟨r, t, i, hend⟩ := endCycle_shape s
  rw [hend]
  exact inv_congr h rfl

theorem past_of_tick {s : State} (h : EngineInv s) : ∀ w ∈ s.wire, w.cycle < s.cycle + 1 :=
  fun w hw => Nat.lt_succ_of_lt (h.stamped.2 w hw)

/-- Outside SETTLE the passing of a cycle breaks nothing. -/
theorem inv_endCycle {s : State} (hphase : s.phase ≠ .settle) (h : EngineInv s) : EngineInv (endCycle s) :=
  inv_endCycle_of_tick
    { h with
      settling := fun hs => absurd hs hphase
      stamped := ⟨h.stamped.1, past_of_tick h⟩ }

theorem post_of_not_busy {s : State} (h : EngineInv s) (hs : s.phase ≠ .settle) (he : s.phase ≠ .emit) :
    s.post = .none := by
  cases hpost : s.post with
  | none => rfl
  | settle =>
    rcases (h.waking hpost).2 with h' | ⟨h', -⟩
    · exact absurd h' hs
    · exact absurd h' he

/-! The reset. -/

/-- Settles O50: the reset state is UNINIT and IDLE, with an empty wire. -/
theorem invariantHoldsAtReset : Obligations.InvariantHoldsAtReset := by
  unfold Obligations.InvariantHoldsAtReset
  constructor <;> simp [State.reset]

/-- A reset puts every field the invariants read but the wire and the clock, whose stamps it leaves. -/
theorem inv_resetEngine {s : State} (h : EngineInv s) : EngineInv (resetEngine s) :=
  have hreset := invariantHoldsAtReset
  ⟨hreset.quiet, hreset.configured, hreset.bound, hreset.binding, hreset.emitting, hreset.waking,
    fun hs => absurd hs (by simp [State.reset]), hreset.timerIdle, hreset.awaiting, hreset.idle, hreset.counting,
    h.stamped⟩

/-! The host's move, in IDLE or STR_WAIT. -/

theorem seqLength_val {seq : List Byte} (h : seq.length ≤ 5) : (seqLength seq).val = seq.length := by
  simp [seqLength, Nat.mod_eq_of_lt (Nat.lt_succ_of_le h)]

/-- The load of a sequence that fits and has a byte, in READY and with the timer at rest, together with a new
count of the characters expected. -/
theorem inv_loadSequence {s : State} {seq : List Byte} {post : Post} {count : StrLen} (h : EngineInv s)
    (hready : s.initState = .ready) (hphase : s.phase ≠ .settle) (hne : 1 ≤ seq.length) (hfit : seq.length ≤ 5)
    (hwake : post = .settle → seq = [0xFF] ∧ s.strMode = false) (hcount : count ≠ 0 → s.strMode = true) :
    EngineInv (loadSequence seq post { s with strRemaining := count }) where
  quiet hn := absurd hready hn
  configured := h.configured
  bound := h.bound
  binding := h.binding
  emitting _ := by
    refine ⟨Fin.lt_def.2 ?_, rfl⟩
    rw [loadSequence_seqLen, seqLength_val hfit]
    exact hne
  waking hpost := by
    obtain ⟨rfl, hstr⟩ := hwake hpost
    exact ⟨hstr, .inr ⟨rfl, rfl, rfl, rfl⟩⟩
  settling hs := by simp at hs
  timerIdle _ := h.timerIdle hphase
  awaiting hs := by simp at hs
  idle hs := by simp at hs
  counting := hcount
  stamped := h.stamped

theorem inv_stringPayload {s : State} (b : Byte) (h : EngineInv s) (hready : PayloadReady s) :
    EngineInv (stringPayload b s) := by
  obtain ⟨-, hi, hs⟩ := hready
  obtain ⟨-, hstr, -⟩ := h.awaiting hs
  obtain ⟨seq, hseq, hload⟩ := stringPayload_loads b s
  rw [hload]
  have hlength : 1 ≤ seq.length ∧ seq.length ≤ 5 := by
    rcases hseq with rfl | rfl <;> simp
  exact inv_loadSequence h hi (by simp [hs]) hlength.1 hlength.2 (by simp) (fun _ => hstr)

theorem inv_stringStart {s : State} (len : StrLen) (h : EngineInv s) (hready : s.initState = .ready)
    (hphase : s.phase = .idle) : EngineInv (stringStart len s) := by
  have hsettle : s.phase ≠ .settle := by simp [hphase]
  rcases stringStart_cases len s with ⟨-, hstart⟩ | ⟨hlen, hstart⟩
  · rw [hstart]
    exact inv_loadSequence h hready hsettle (by simp) (by simp) (by simp) h.counting
  · rw [hstart]
    exact { h with
      quiet := fun hn => absurd hready hn
      emitting := by simp
      waking := by simp [post_of_not_busy h hsettle (by simp [hphase])]
      settling := by simp
      timerIdle := fun _ => h.timerIdle hsettle
      awaiting := fun _ => ⟨rfl, rfl, hlen⟩
      idle := by simp
      counting := fun _ => rfl }

theorem inv_commandEffect {s u : State} (heffect : CommandEffect s u) (h : EngineInv s)
    (hready : s.initState = .ready) (hphase : s.phase = .idle) : EngineInv u := by
  obtain ⟨hp, hstr, -⟩ := h.idle hphase
  cases heffect with
  | load seq post hne hfit hwake =>
    exact inv_loadSequence h hready (by simp [hphase]) hne hfit (fun hpost => ⟨hwake hpost, hstr⟩) h.counting
  | header len => exact inv_stringStart len h hready hphase
  | reject e he => exact inv_drop he hp h

/-- INIT matters in UNINIT alone, where R41 (1) has the Engine quiet and the line is not configured. -/
theorem inv_initOperation {s : State} (pin : Byte) (h : EngineInv s) : EngineInv (initOperation pin s) := by
  rcases initOperation_cases pin s with ⟨hi, hpin, hop⟩ | ⟨hi, -, hop⟩ | ⟨-, hop⟩
  · rw [hop]
    exact { h with
      quiet := by simp
      configured := by simp
      bound := rfl
      binding := fun _ => ⟨hpin, rfl⟩ }
  · have hline : s.lineConfigured ≠ true := by simp [h.configured, hi]
    rw [hop]
    exact { h with
      quiet := fun _ => h.quiet (by simp [hi])
      configured := ⟨fun hc => absurd hc hline, by simp [raise, eventEffect]⟩ }
  · rw [hop]
    exact inv_congr h rfl

theorem inv_hostEffect {s u : State} {a : HostAction} (heffect : HostEffect s a u) (h : EngineInv s)
    (hp : s.pending = false) (hphase : s.phase = .idle ∨ s.phase = .strWait) : EngineInv u := by
  cases heffect with
  | wait => exact h
  | dropped w e he => exact inv_drop he hp h
  | character w b hready => exact inv_stringPayload b h hready
  | command w hready hnot heffect =>
    exact inv_commandEffect heffect h hready (hphase.resolve_right hnot)
  | init v => exact inv_respond _ (inv_initOperation _ h)
  | pin v => exact inv_respond _ (inv_congr h rfl)
  | status v => exact inv_respond _ (inv_congr h rfl)
  | answered a r => exact inv_respond r h
  | refused a => exact inv_respond _ (inv_raise (by simp) h)

theorem commandEffect_phase {s u : State} (heffect : CommandEffect s u) (hphase : s.phase ≠ .settle) :
    u.phase ≠ .settle := by
  cases heffect with
  | load seq post => simp
  | header len => rcases stringStart_cases len s with ⟨-, h⟩ | ⟨-, h⟩ <;> simp [h]
  | reject e => simpa using hphase

/-- No move of the host enters SETTLE. -/
theorem hostEffect_phase {s u : State} {a : HostAction} (heffect : HostEffect s a u) (hphase : s.phase ≠ .settle) :
    u.phase ≠ .settle := by
  cases heffect with
  | command w hready hnot heffect => exact commandEffect_phase heffect hphase
  | character w b => simp [stringPayload]
  | init v =>
    rcases initOperation_cases (pinField v) s with ⟨-, -, h⟩ | ⟨-, -, h⟩ | ⟨-, h⟩ <;> simpa [h] using hphase
  | _ => simpa using hphase

theorem inv_hostCycle {s u : State} (h : EngineInv s) (hphase : s.phase = .idle ∨ s.phase = .strWait)
    (hu : hostCycle s = .next u) : EngineInv (endCycle u) := by
  have hsettle : s.phase ≠ .settle := by rcases hphase with h' | h' <;> simp [h']
  rcases hostCycle_effect s with ⟨-, hc⟩ | ⟨hp, a, rest, v, -, hc, heffect⟩
  · cases hc.symm.trans hu
    exact inv_endCycle hsettle h
  · cases hc.symm.trans hu
    exact inv_endCycle (hostEffect_phase heffect hsettle)
      (inv_hostEffect heffect (inv_congr h rfl) hp hphase)

/-! The Engine's own cycles. -/

/-- In EMIT the byte at `seq_idx` is offered (R36, R41 (3)). -/
theorem txData_of_emit {s : State} (h : EngineInv s) (hphase : s.phase = .emit) :
    ∃ hlt : s.seqIdx.val < 5, txData s = some s.seqBuf[s.seqIdx.val] := by
  have hlt : s.seqIdx.val < s.seqLen.val := (h.emitting hphase).1
  refine ⟨by omega, ?_⟩
  simp [txData, txValid, hphase, hlt]

/-- The stamps stay in order when a byte of this cycle joins the wire. -/
theorem stamped_emit {s : State} (b : Byte) (h : EngineInv s) :
    (emit b s).wire.Pairwise (fun a b => a.cycle < b.cycle) ∧ ∀ w ∈ (emit b s).wire, w.cycle < s.cycle + 1 := by
  obtain ⟨hrise, hpast⟩ := h.stamped
  refine ⟨List.pairwise_append.2 ⟨hrise, List.pairwise_singleton _ _, by simpa using hpast⟩, fun w hw => ?_⟩
  rcases List.mem_append.1 hw with hw | hw
  · exact past_of_tick h w hw
  · simp [List.mem_singleton.1 hw]

theorem ready_of_busy {s : State} (h : EngineInv s) (hphase : s.phase ≠ .idle) : s.initState = .ready := by
  by_contra hn
  exact hphase (h.quiet hn).1

theorem strRemaining_of_strMode {s : State} (h : EngineInv s) (hstr : s.strMode = false) : s.strRemaining = 0 := by
  by_contra hne
  simp [h.counting hne] at hstr

/-- The offered byte's acceptance: the next byte of the sequence stays to be offered, or the settle window opens
after WAKE's 0xFF, or the write completes. -/
theorem inv_emitStep {s : State} {b : Byte} (h : EngineInv s) (hphase : s.phase = .emit) (hb : txData s = some b) :
    EngineInv (endCycle (emitStep b s)) := by
  obtain ⟨hlt, hpending⟩ := h.emitting hphase
  have hready := ready_of_busy h (by simp [hphase])
  have htimer := h.timerIdle (by simp [hphase])
  have hwaking : s.post = .settle → s.strMode = false ∧ s.seqIdx = 0 ∧ s.seqLen = 1 ∧ s.seqBuf[0] = 0xFF := by
    intro hpost
    obtain ⟨hstr, hs | ⟨-, hwake⟩⟩ := h.waking hpost
    · simp [hphase] at hs
    · exact ⟨hstr, hwake⟩
  refine inv_endCycle_of_tick ?_
  rcases emitStep_cases b s with ⟨hmore, he⟩ | ⟨hpost, he⟩ | ⟨hpost, hstr, hrem, he⟩ | ⟨hpost, hdone, he⟩ <;> rw [he]
  · have hnext : s.seqIdx + 1 < s.seqLen := lt_of_le_of_ne (Fin.add_one_le_of_lt hlt) hmore
    have hpost : s.post ≠ .settle := by
      intro hpost
      obtain ⟨-, hidx, hlen, -⟩ := hwaking hpost
      simp [hidx, hlen] at hnext
    exact { h with
      emitting := fun _ => ⟨hnext, hpending⟩
      waking := fun hp => absurd hp hpost
      settling := by simp [hphase]
      stamped := stamped_emit b h }
  · obtain ⟨hstr, hidx, -, hff⟩ := hwaking hpost
    have hbyte : b = 0xFF := by
      obtain ⟨_, hdata⟩ := txData_of_emit h hphase
      simp only [hdata, hidx] at hb
      cases hb
      exact hff
    exact { h with
      quiet := fun hn => absurd hready hn
      emitting := by simp
      waking := fun _ => ⟨hstr, .inl rfl⟩
      settling := fun _ => ⟨hpending, hstr, settleCycles_pos, ⟨b, s.cycle⟩, by simp, hbyte, rfl⟩
      timerIdle := by simp
      awaiting := by simp
      idle := by simp
      stamped := stamped_emit b h }
  · exact { h with
      quiet := fun hn => absurd hready hn
      emitting := by simp
      waking := by simp [hpost]
      settling := by simp
      timerIdle := fun _ => htimer
      awaiting := fun _ => ⟨rfl, hstr, hrem⟩
      idle := by simp
      stamped := stamped_emit b h }
  · have hrem : s.strRemaining = 0 := hdone.elim (strRemaining_of_strMode h) id
    exact { h with
      quiet := fun hn => absurd hready hn
      emitting := by simp
      waking := by simp [hpost]
      settling := by simp
      timerIdle := fun _ => htimer
      awaiting := by simp
      idle := fun _ => ⟨rfl, rfl, hrem⟩
      counting := fun hne => absurd hrem hne
      stamped := stamped_emit b h }

/-- In SETTLE the count goes down as the clock goes up, and at the end of it the write completes (R128). -/
theorem inv_settleCycle {s : State} (h : EngineInv s) (hphase : s.phase = .settle) :
    EngineInv (endCycle (settleCycle s)) := by
  obtain ⟨hp, hstr, -, w, hlast, hbyte, hcount⟩ := h.settling hphase
  have hrem := strRemaining_of_strMode h hstr
  have hready := ready_of_busy h (by simp [hphase])
  refine inv_endCycle_of_tick ?_
  rcases settleCycle_cases s with ⟨-, hc⟩ | ⟨hmore, hc⟩ <;> rw [hc]
  · exact { h with
      quiet := fun hn => absurd hready hn
      emitting := by simp
      waking := by simp
      settling := by simp
      timerIdle := fun _ => rfl
      awaiting := by simp
      idle := fun _ => ⟨rfl, hstr, hrem⟩
      stamped := ⟨h.stamped.1, past_of_tick h⟩ }
  · exact { h with
      settling := fun _ => ⟨hp, hstr, Nat.sub_pos_of_lt hmore, w, hlast, hbyte, by dsimp only; omega⟩
      timerIdle := fun hn => absurd hphase hn
      stamped := ⟨h.stamped.1, past_of_tick h⟩ }

/-- Settles O51: each kind of cycle keeps the invariants. -/
theorem invariantKeptByEveryStep : Obligations.InvariantKeptByEveryStep := by
  unfold Obligations.InvariantKeptByEveryStep
  intro s t h hstep
  have hbegin : EngineInv (beginCycle s) := inv_congr h rfl
  rcases step_cases hstep with ⟨-, rfl⟩ | ⟨-, hphase, b, hb, ⟨-, rfl⟩ | ⟨-, rfl⟩⟩ | ⟨-, hphase, rfl⟩ |
    ⟨-, hphase, u, hu, rfl⟩
  · exact inv_endCycle (by simp [State.reset]) (inv_resetEngine h)
  · exact inv_emitStep hbegin hphase hb
  · exact inv_endCycle (by simp [hphase]) hbegin
  · exact inv_settleCycle hbegin hphase
  · exact inv_hostCycle hbegin hphase hu

theorem emitCycle_next {s : State} (h : EngineInv s) (hphase : s.phase = .emit) : ∃ u, emitCycle s = .next u := by
  obtain ⟨_, hdata⟩ := txData_of_emit h hphase
  rw [emitCycle, hdata]
  exact ⟨_, rfl⟩

theorem hostCycle_next (s : State) : ∃ u, hostCycle s = .next u := by
  rcases hostCycle_effect s with ⟨-, hc⟩ | ⟨-, a, rest, u, -, hc, -⟩
  · exact ⟨s, hc⟩
  · exact ⟨u, hc⟩

theorem engineCycle_next {s : State} (h : EngineInv s) : ∃ u, engineCycle s = .next u := by
  unfold engineCycle
  cases hphase : s.phase with
  | emit => exact emitCycle_next h hphase
  | settle => exact ⟨_, rfl⟩
  | idle => exact hostCycle_next s
  | strWait => exact hostCycle_next s

/-- Settles O52: the fault needs EMIT with no byte left, which R41 (3) excludes, and the refusal an access made
while a write is pending, which no cycle makes. -/
theorem stepIsSafeUnderTheInvariant : Obligations.StepIsSafeUnderTheInvariant := by
  unfold Obligations.StepIsSafeUnderTheInvariant StepSafe
  intro s h
  have hbegin : EngineInv (beginCycle s) := inv_congr h rfl
  cases hr : s.resetIn with
  | true => exact ⟨endCycle (resetEngine s), by simp [step, hr]⟩
  | false =>
    have hstep : step s = andThen (engineCycle (beginCycle s)) endCycle := by simp [step, hr]
    obtain ⟨u, hu⟩ := engineCycle_next hbegin
    exact ⟨endCycle u, by rw [hstep, hu]; rfl⟩

end Sys2Proof.Proofs.Invariant
end

-- ==== Proofs of the statements of 10_state.md: the registers, the flags and the outputs ====
section
/-!
STATUS, LINECFG and STRCNT as they read and as a write leaves them; what a step does to `init_state`, to the sticky
bits and to a pending write; the stalled offer and the reset.
-/

namespace Sys2Proof.Proofs.Registers
open Sys2Proof.Machine Sys2Proof.Laws Sys2Proof.Proofs.Cycle

/-- Settles O31, read off the table. -/
theorem romSequencesFitTheBuffer : Obligations.RomSequencesFitTheBuffer :=
  rom_fits

/-- Settles O42: every instruction is an acceptance or the INIT access, and both are refused. -/
theorem accessWhilePendingIsRefused : Obligations.AccessWhilePendingIsRefused :=
  fun i _ hp => exec_pending i hp

/-! The bits of STATUS (R25). -/

theorem flagBit_getLsbD {k : Nat} (hk : k < 32) (b : Bool) (i : Nat) :
    (flagBit k b).getLsbD i = (b && decide (i = k)) := by
  have hbit : (flagBit k b).getLsbD i = true ↔ b = true ∧ i = k := by
    simp only [flagBit, zext, BitVec.getLsbD_shiftLeft, BitVec.getLsbD_setWidth, BitVec.getLsbD_ofBool,
      Bool.and_eq_true, Bool.not_eq_true', decide_eq_true_eq, decide_eq_false_iff_not]
    constructor
    · rintro ⟨⟨-, hle⟩, -, hz, hb⟩
      exact ⟨hb, by omega⟩
    · rintro ⟨hb, rfl⟩
      exact ⟨⟨hk, by omega⟩, by omega, by omega, hb⟩
  rw [Bool.eq_iff_iff, hbit, Bool.and_eq_true, decide_eq_true_eq]

theorem statusWord_getLsbD (s : State) (i : Nat) : (statusWord s).getLsbD i =
    (s.initState.code.getLsbD i || (busy s && decide (i = 2)) || (settling s && decide (i = 3)) ||
      (s.strMode && decide (i = 4)) || (s.illegalOp && decide (i = 8)) || (s.notReady && decide (i = 9))) := by
  have hcode : (zext s.initState.code).getLsbD i = s.initState.code.getLsbD i := by
    by_cases hi : i < 32
    · simp [zext, hi]
    · rw [BitVec.getLsbD_of_ge _ _ (by omega), BitVec.getLsbD_of_ge _ _ (by omega)]
  simp only [statusWord, BitVec.getLsbD_or, hcode, flagBit_getLsbD (show 2 < 32 by decide),
    flagBit_getLsbD (show 3 < 32 by decide), flagBit_getLsbD (show 4 < 32 by decide),
    flagBit_getLsbD (show 8 < 32 by decide), flagBit_getLsbD (show 9 < 32 by decide)]

theorem statusWord_state (s : State) : (statusWord s).extractLsb' 0 2 = s.initState.code := by
  apply BitVec.eq_of_getLsbD_eq
  intro i hi
  have hne : i ≠ 2 ∧ i ≠ 3 ∧ i ≠ 4 ∧ i ≠ 8 ∧ i ≠ 9 := by omega
  simp [statusWord_getLsbD, hi, hne]

/-- Above the field STATE the bits are those of the flags. -/
theorem statusWord_flag (s : State) {i : Nat} (hi : 2 ≤ i) : (statusWord s).getLsbD i =
    ((busy s && decide (i = 2)) || (settling s && decide (i = 3)) || (s.strMode && decide (i = 4)) ||
      (s.illegalOp && decide (i = 8)) || (s.notReady && decide (i = 9))) := by
  rw [statusWord_getLsbD, BitVec.getLsbD_of_ge _ _ hi, Bool.false_or]

/-- Settles O34: the field STATE lies below the flags, and each flag is a bit of its own. -/
theorem statusFieldsReadTheState : Obligations.StatusFieldsReadTheState := by
  unfold Obligations.StatusFieldsReadTheState
  intro s
  refine ⟨?_, ?_, ?_, ?_, ?_, ?_, fun k hk => ?_⟩
  · rw [statusWord_state]
    cases s.initState <;> rfl
  · rw [statusWord_flag s (by decide)]
    simp [busy]
  · rw [statusWord_flag s (by decide)]
    simp [settling]
  · rw [statusWord_flag s (by decide)]
    simp
  · rw [statusWord_flag s (by decide)]
    simp
  · rw [statusWord_flag s (by decide)]
    simp
  · have hne : k ≠ 2 ∧ k ≠ 3 ∧ k ≠ 4 ∧ k ≠ 8 ∧ k ≠ 9 := by omega
    simp [statusWord_flag s (show 2 ≤ k by omega), hne]

/-! LINECFG and STRCNT (R27, R28). -/

/-- Settles O36: the invariant makes PIN_BOUND and CONFIGURED one bit, so the register has two values. -/
theorem linecfgReadsTheFraming : Obligations.LinecfgReadsTheFraming := by
  unfold Obligations.LinecfgReadsTheFraming
  refine ⟨fun s h => ?_, fun v s hp => immediate_next hp⟩
  rw [linecfgWord, h.bound]
  cases s.lineConfigured <;> decide

/-- Settles O37: the register is the 24-bit count extended with zeros. -/
theorem strcntReadsTheCount : Obligations.StrcntReadsTheCount := by
  unfold Obligations.StrcntReadsTheCount
  refine ⟨fun s => ⟨?_, ?_⟩, fun s hp => immediate_next hp, fun v s hp => immediate_next hp⟩
  · apply BitVec.eq_of_toNat_eq
    simpa [strcntWord, zext] using s.strRemaining.isLt
  · have hlt := s.strRemaining.isLt
    apply BitVec.eq_of_toNat_eq
    simp [strcntWord, zext, Nat.shiftRight_eq_div_pow]
    omega

/-! What a step does to `init_state` and to the sticky bits (R22, R26). -/

/-- The bits and `init_state` change in a reset or by a move of the host alone. -/
theorem step_keeps_flags_or_moves {s t : State} (hstep : step s = .next t) (hr : s.resetIn = false) :
    (t.initState = s.initState ∧ t.illegalOp = s.illegalOp ∧ t.notReady = s.notReady) ∨
    ∃ a rest u, s.host = a :: rest ∧ HostEffect { beginCycle s with host := rest } a u ∧ t = endCycle u := by
  rcases step_cases hstep with ⟨hreset, -⟩ | ⟨-, -, b, -, ⟨-, rfl⟩ | ⟨-, rfl⟩⟩ | ⟨-, -, rfl⟩ | ⟨-, -, u, hu, rfl⟩
  · simp [hr] at hreset
  · left
    rcases emitStep_cases b (beginCycle s) with ⟨-, he⟩ | ⟨-, he⟩ | ⟨-, -, -, he⟩ | ⟨-, -, he⟩ <;> simp [he]
  · simp
  · left
    rcases settleCycle_cases (beginCycle s) with ⟨-, hc⟩ | ⟨-, hc⟩ <;> simp [hc]
  · rcases hostCycle_effect (beginCycle s) with ⟨-, hc⟩ | ⟨-, a, rest, v, hh, hc, heffect⟩
    · cases hc.symm.trans hu
      simp
    · cases hc.symm.trans hu
      exact .inr ⟨a, rest, u, hh, heffect, rfl⟩

theorem drop_initState {e : Event} (he : ∀ p, e ≠ .wiringMismatch p) (s : State) :
    (drop e s).initState = s.initState :=
  (drop_frame e s he).2.1

theorem commandEffect_initState {s u : State} (h : CommandEffect s u) : u.initState = s.initState := by
  cases h with
  | load seq post => rfl
  | header len => rcases stringStart_cases len s with ⟨-, h⟩ | ⟨-, h⟩ <;> simp [h]
  | reject e he => exact drop_initState he s

theorem initOperation_initState (pin : Byte) (s : State) : (initOperation pin s).initState = s.initState ∨
    s.initState = .uninit ∧
      (initOperation pin s).initState = if pin = Config.requiredRxPin then .ready else .wiringError := by
  rcases initOperation_cases pin s with ⟨hi, hpin, hop⟩ | ⟨hi, hpin, hop⟩ | ⟨-, hop⟩ <;> rw [hop]
  · exact .inr ⟨hi, by simp [hpin]⟩
  · exact .inr ⟨hi, by simp [hpin, raise, eventEffect]⟩
  · exact .inl rfl

theorem hostEffect_initState {s u : State} {a : HostAction} (h : HostEffect s a u) : u.initState = s.initState ∨
    s.initState = .uninit ∧ ∃ v, a = .write 0x04 4 v ∧ initField v = true ∧
      u.initState = if pinField v = Config.requiredRxPin then .ready else .wiringError := by
  cases h with
  | dropped w e he => exact .inl (drop_initState he s)
  | character w b => exact .inl (by simp [stringPayload])
  | command w _ _ heffect => exact .inl (commandEffect_initState heffect)
  | init v hv =>
    rcases initOperation_initState (pinField v) s with hi | ⟨hu, hi⟩
    · exact .inl hi
    · exact .inr ⟨hu, v, rfl, hv, hi⟩
  | _ => exact .inl rfl

/-- Settles O46: the one move that touches `init_state` is INIT, and INIT does so in UNINIT alone. -/
theorem initStateChangesOnlyByInitAndReset : Obligations.InitStateChangesOnlyByInitAndReset := by
  unfold Obligations.InitStateChangesOnlyByInitAndReset
  refine ⟨fun s => (statusFieldsReadTheState s).1, fun s t hstep => ?_⟩
  cases hr : s.resetIn with
  | true =>
    have ht : t = endCycle (resetEngine s) := by simpa [step, hr] using hstep.symm
    simp [ht, State.reset]
  | false =>
    have hkept : t.initState = s.initState ∨ s.initState = .uninit ∧ ∃ v rest, s.host = .write 0x04 4 v :: rest ∧
        initField v = true ∧ t.initState = if pinField v = Config.requiredRxPin then .ready else .wiringError := by
      rcases step_keeps_flags_or_moves hstep hr with ⟨hi, -⟩ | ⟨a, rest, u, hh, heffect, rfl⟩
      · exact .inl hi
      · rcases hostEffect_initState heffect with hi | ⟨hi, v, rfl, hv, hu⟩
        · exact .inl (by simpa using hi)
        · exact .inr ⟨hi, v, rest, hh, hv, by simpa using hu⟩
    rcases hkept with hi | ⟨hi, hinit⟩
    · exact ⟨by simp, fun _ h => hi.trans h, fun _ h => hi.trans h, fun _ h => .inl (hi.trans h)⟩
    · exact ⟨by simp, by simp [hi], by simp [hi], fun _ _ => .inr hinit⟩

/-- The sticky bits that are 1 in `s` are 1 in `u`. -/
def StickyKept (s u : State) : Prop :=
  (s.illegalOp = true → u.illegalOp = true) ∧ (s.notReady = true → u.notReady = true)

theorem raise_sticky (e : Event) (s : State) : StickyKept s (raise e s) := by
  cases e <;> simp [StickyKept, raise, eventEffect, setIllegalOp, setNotReady]

theorem commandEffect_sticky {s u : State} (h : CommandEffect s u) : StickyKept s u := by
  cases h with
  | load seq post => exact ⟨id, id⟩
  | header len => rcases stringStart_cases len s with ⟨-, h⟩ | ⟨-, h⟩ <;> rw [h] <;> exact ⟨id, id⟩
  | reject e => exact raise_sticky e s

theorem hostEffect_sticky {s u : State} {a : HostAction} (h : HostEffect s a u) : StickyKept s u ∨
    ∃ v, a = .write 0x08 4 v ∧ u = respond .okay (clearSticky v s) := by
  cases h with
  | dropped w e => exact .inl (raise_sticky e s)
  | command w _ _ heffect => exact .inl (commandEffect_sticky heffect)
  | init v =>
    rcases initOperation_cases (pinField v) s with ⟨-, -, h⟩ | ⟨-, -, h⟩ | ⟨-, h⟩ <;> rw [h]
    · exact .inl ⟨id, id⟩
    · exact .inl (raise_sticky (.wiringMismatch (pinField v)) (setPin (pinField v) s))
    · exact .inl ⟨id, id⟩
  | status v => exact .inr ⟨v, rfl, rfl⟩
  | _ => exact .inl ⟨id, id⟩

/-! A check that fails (R124). -/

/-- The commands with a check (R97). -/
theorem rom_checked (op : Byte) (h : (rom op).vclass ≠ .none) :
    (op = 0x09 ∧ (rom op).vclass = .align) ∨ (op = 0x0A ∧ (rom op).vclass = .indent) ∨
    (op = 0x15 ∧ (rom op).vclass = .underline) ∨ (op = 0x1F ∧ (rom op).vclass = .heat) := by
  revert op; decide

/-- The pass of a checked command's acceptance is the check of its ROM entry. -/
theorem exec_checked (w : Word) (h : (rom (opField w)).vclass ≠ .none) : ∃ i go, decode .command w = .ok i ∧
    exec i = acceptCommand (opField w) (check (rom (opField w)).vclass (a0 w) (a1 w)) go := by
  rcases rom_checked _ h with ⟨hop, hv⟩ | ⟨hop, hv⟩ | ⟨hop, hv⟩ | ⟨hop, hv⟩ <;> rw [hv]
  · exact ⟨.align (a0 w), _, by simp [decode, decodeCommand, hop], by rw [hop]; rfl⟩
  · exact ⟨.indent (a0 w), _, by simp [decode, decodeCommand, hop], by rw [hop]; rfl⟩
  · exact ⟨.underline (a0 w), _, by simp [decode, decodeCommand, hop], by rw [hop]; rfl⟩
  · exact ⟨.printSettings (a0 w) (a1 w) (a2 w), _, by simp [decode, decodeCommand, hop], by rw [hop]; rfl⟩

theorem cmdWrite_rejected {w : Word} {s : State} (h : CommandReady s)
    (hcheck : check (rom (opField w)).vclass (a0 w) (a1 w) = false) :
    cmdWrite w s = .next (drop (.paramRejected (opField w)) s) := by
  have hphase : s.phase = .idle := h.2.2
  have hclass : (rom (opField w)).vclass ≠ .none := by
    intro hnone
    simp [hnone, check] at hcheck
  obtain ⟨i, go, hi, hexec⟩ := exec_checked w hclass
  have hport : decode (cmdPort s.phase) w = .ok i := by simpa [cmdPort, hphase] using hi
  simp only [cmdWrite, hport]
  rw [hexec, hcheck]
  exact acceptCommand_rejected h

/-- Settles O35: of the moves of the host only the STATUS write lets a sticky bit fall. -/
theorem stickyBitsAreClearedByWritingOne : Obligations.StickyBitsAreClearedByWritingOne := by
  unfold Obligations.StickyBitsAreClearedByWritingOne
  refine ⟨fun v s hp => immediate_next hp, fun s t hstep hr => ?_, fun w s h _ hcheck => ?_⟩
  · rcases step_keeps_flags_or_moves hstep hr with ⟨-, hi, hn⟩ | ⟨a, rest, u, hh, heffect, rfl⟩
    · exact ⟨fun h h' => by simp [hi, h] at h', fun h h' => by simp [hn, h] at h'⟩
    · rw [endCycle_illegalOp, endCycle_notReady]
      rcases hostEffect_sticky heffect with ⟨hi, hn⟩ | ⟨v, rfl, rfl⟩
      · exact ⟨fun h h' => by simp [hi h] at h', fun h h' => by simp [hn h] at h'⟩
      · exact ⟨fun h h' => ⟨v, rest, hh, by simpa [h] using h'⟩, fun h h' => ⟨v, rest, hh, by simpa [h] using h'⟩⟩
  · exact ⟨_, cmdWrite_rejected h hcheck, rfl⟩

/-! A pending write (R34). -/

/-- An accepted byte leaves the write pending or completes it. -/
theorem emitStep_pending (b : Byte) {s : State} (hp : s.pending = true) :
    (emitStep b s).host = s.host ∧
    ((emitStep b s).pending = true ∧ (emitStep b s).responses = s.responses ∨
      (emitStep b s).pending = false ∧ (emitStep b s).responses = s.responses ++ [.okay]) := by
  rcases emitStep_cases b s with ⟨-, he⟩ | ⟨-, he⟩ | ⟨-, -, -, he⟩ | ⟨-, -, he⟩ <;> rw [he] <;> simp [hp]

theorem settleCycle_pending {s : State} (hp : s.pending = true) :
    (settleCycle s).host = s.host ∧
    ((settleCycle s).pending = true ∧ (settleCycle s).responses = s.responses ∨
      (settleCycle s).pending = false ∧ (settleCycle s).responses = s.responses ++ [.okay]) := by
  rcases settleCycle_cases s with ⟨-, hc⟩ | ⟨-, hc⟩ <;> rw [hc] <;> simp [hp]

/-- Settles O41: with a write pending no cycle takes a move of the host, and only the end of the emission or of the
settle window completes it. -/
theorem hostWaitsWhileItsWriteIsPending : Obligations.HostWaitsWhileItsWriteIsPending := by
  unfold Obligations.HostWaitsWhileItsWriteIsPending
  intro s t hstep hp hr
  have hbegin : (beginCycle s).pending = true := hp
  rcases step_cases hstep with ⟨hreset, -⟩ | ⟨-, -, b, -, ⟨-, rfl⟩ | ⟨-, rfl⟩⟩ | ⟨-, -, rfl⟩ | ⟨-, -, u, hu, rfl⟩
  · simp [hr] at hreset
  · simpa using emitStep_pending b hbegin
  · simp [hp]
  · simpa using settleCycle_pending hbegin
  · have hwait : u = beginCycle s := by simpa [hostCycle, hp] using hu.symm
    simp [hwait, hp]

/-! The stalled offer (R36) and the reset (R42). -/

/-- Settles O23: the stalled cycle is `beginCycle` and `endCycle` with nothing between them. -/
theorem stalledTransportHoldsTheOffer : Obligations.StalledTransportHoldsTheOffer := by
  unfold Obligations.StalledTransportHoldsTheOffer
  intro s hne hr ht
  obtain ⟨b, rest, hb⟩ := List.exists_cons_of_ne_nil hne
  obtain ⟨hphase, -⟩ := bufferedBytes_cons hb
  have hdata : txData s = some b := txData_of_buffered hb
  have hbegin : txData (beginCycle s) = some b := hdata
  have hstep : step s = .next (endCycle (beginCycle s)) := by
    simp [step, hr, engineCycle, hphase, emitCycle, hbegin, ht, andThen]
  have hheld : txData (endCycle (beginCycle s)) = txData s := by
    simp [txData, txValid]
  obtain ⟨r, x, i, hend⟩ := endCycle_shape (beginCycle s)
  refine ⟨_, hstep, by simp [txValid, hphase], hheld, by rw [hheld, hdata, hb]; rfl, ?_⟩
  rw [hend]
  rfl

/-- The registers of the reset state read 0. -/
theorem regValue_reset (r : RegName) : regValue r State.reset = 0 := by
  cases r <;> decide

/-- What a register reads right after a reset is what it reads in the reset state. -/
theorem regValue_endCycle_resetEngine (r : RegName) (s : State) :
    regValue r (endCycle (resetEngine s)) = 0 := by
  rw [← regValue_reset r]
  cases r <;> simp [regValue, statusWord, ctrlWord, linecfgWord, strcntWord, busy, settling]

/-- Settles O49: the step is `resetEngine` alone, and the registers are views of what it puts. -/
theorem resetPutsEveryElement : Obligations.ResetPutsEveryElement := by
  unfold Obligations.ResetPutsEveryElement
  intro s hr
  have hstatus : statusWord (endCycle (resetEngine s)) = 0 := regValue_endCycle_resetEngine .status s
  have hctrl : ctrlWord (endCycle (resetEngine s)) = 0 := regValue_endCycle_resetEngine .ctrl s
  have hlinecfg : linecfgWord (endCycle (resetEngine s)) = 0 := regValue_endCycle_resetEngine .linecfg s
  have hstrcnt : strcntWord (endCycle (resetEngine s)) = 0 := regValue_endCycle_resetEngine .strcnt s
  refine ⟨endCycle (resetEngine s), by simp [step, hr], ?_⟩
  simp [State.reset, txValid, pinBindEn, hstatus, hctrl, hlinecfg, hstrcnt]

end Sys2Proof.Proofs.Registers
end

-- ==== Proofs of the statements of 20_memory.md: the words and the register window ====
section
/-!
A word, its four byte lanes and the instruction it stands for; the accesses that reach a register and those that
reach none.
-/

namespace Sys2Proof.Proofs.Window
open Sys2Proof.Machine Sys2Proof.Laws Sys2Proof.Proofs.Cycle

/-! The byte lanes and the encoder (R63, R90 to R95). -/

/-- The lanes of a word are its four fields, so that they give the word back. -/
theorem wordOfLanes_lanesOfWord (w : Word) : wordOfLanes (lanesOfWord w) = some w :=
  congrArg some (mkWord_fields w)

theorem decodeLanes_lanesOfWord (p : Port) (w : Word) : decodeLanes p (lanesOfWord w) = decode p w := by
  simp only [decodeLanes, wordOfLanes_lanesOfWord]

/-- Settles O40. -/
theorem byteLanesAreLittleEndian : Obligations.ByteLanesAreLittleEndian := by
  unfold Obligations.ByteLanesAreLittleEndian
  refine fun w => ⟨wordOfLanes_lanesOfWord w, fun k hk => ?_⟩
  interval_cases k <;> rfl

/-- Each format has fields of its own: a header holds L above its code, a payload word and an INIT write hold one
byte, and every other instruction is a command word of four byte fields. -/
theorem decode_encode (i : Instr) : decode (portOf i) (encode i) = .ok i := by
  cases i with
  | writeString len => simp [portOf, encode, decode, decodeCommand]
  | data b => simp [portOf, encode, decode, decodePayload]
  | init pin => simp [portOf, encode, decode, decodeCtrl]
  | _ => simp [portOf, encode, decode, decodeCommand]

/-- Settles O45: the lanes of the encoded word are that word. -/
theorem decodeOfEncodeIsTheInstruction : Obligations.DecodeOfEncodeIsTheInstruction := by
  unfold Obligations.DecodeOfEncodeIsTheInstruction
  intro i
  have hword := decode_encode i
  exact ⟨hword, (decodeLanes_lanesOfWord _ _).trans hword⟩

/-! Accesses to a register and accesses that reach none (R61, R62, R66). -/

theorem regAt_offsetOf (r : RegName) : regAt (offsetOf r) = r := by
  cases r <;> rfl

/-- The offsets of the five registers are accessed in the legal form (R61, R62). -/
theorem legal_offsetOf (r : RegName) : (inWindow (offsetOf r) && legalForm (offsetOf r) 4) = true := by
  cases r <;> rfl

theorem memRead_register (r : RegName) (s : State) :
    memRead (offsetOf r) 4 s = immediate (.value (regValue r s)) id s := by
  simp [memRead, legal_offsetOf, regAt_offsetOf]

/-- The response to an access is no part of any register. -/
theorem regValue_respond (q : RegName) (r : Response) (s : State) : regValue q (respond r s) = regValue q s := by
  cases q <;> rfl

/-- Settles O33: the read is a response and nothing else. -/
theorem readsHaveNoSideEffect : Obligations.ReadsHaveNoSideEffect := by
  unfold Obligations.ReadsHaveNoSideEffect
  intro r s hp
  exact ⟨_, (memRead_register r s).trans (immediate_next hp), rfl, fun q => regValue_respond q _ s, rfl⟩

theorem memWrite_illegal {offset bytes : Nat} (h : (inWindow offset && legalForm offset bytes) = false) (v : Word)
    (s : State) : memWrite offset bytes v s = refusedAccess offset s := by
  simp [memWrite, h]

theorem memRead_illegal {offset bytes : Nat} (h : (inWindow offset && legalForm offset bytes) = false)
    (s : State) : memRead offset bytes s = refusedAccess offset s := by
  simp [memRead, h]

/-- Settles O38: the form is tested before the register, and the bus error is an event and a response alone. -/
theorem illegalAccessFormsAreBusErrors : Obligations.IllegalAccessFormsAreBusErrors := by
  unfold Obligations.IllegalAccessFormsAreBusErrors
  intro offset bytes v s hp hwindow hform
  have hillegal : (inWindow offset && legalForm offset bytes) = false := by
    rcases hform with h | h <;> simp [legalForm, h]
  rw [memWrite_illegal hillegal, memRead_illegal hillegal, and_self]
  rcases refusedAccess_cases offset hp with ⟨-, h⟩ | ⟨hbeyond, -⟩
  · exact h
  · omega

/-- Settles O39: beyond the window the access is the platform's response alone. -/
theorem accessesBeyondTheWindowAreNotTheEngines : Obligations.AccessesBeyondTheWindowAreNotTheEngines := by
  unfold Obligations.AccessesBeyondTheWindowAreNotTheEngines
  intro offset bytes v s hp hbeyond
  have hillegal : (inWindow offset && legalForm offset bytes) = false := by
    simp [inWindow, hbeyond]
  rw [memWrite_illegal hillegal, memRead_illegal hillegal, and_self]
  rcases refusedAccess_cases offset hp with ⟨hwindow, -⟩ | ⟨-, h⟩
  · omega
  · exact h

end Sys2Proof.Proofs.Window
end

-- ==== Lemmas: a CMD write follows the dispatch over the opcode ROM ====
section
/-!
The 36 command meanings are the rows of the opcode ROM: what a CMD write does in each state, said once (R121).
-/

namespace Sys2Proof.Proofs.Dispatch
open Sys2Proof.Machine Sys2Proof.Laws Sys2Proof.Proofs.Cycle

/-- A command word without an instruction has a reserved code (R98). -/
theorem rom_invalid_of_decode_error {w : Word} {e : DecodeError} (h : decode .command w = .error e) :
    (rom (opField w)).valid = false := by
  rw [← Bool.not_eq_true, rom_valid_iff]
  rintro ⟨hfirst, hlast⟩
  simp only [decode, decodeCommand] at h
  interval_cases (opField w).toNat <;> cases h

section
variable {s : State} (hp : s.pending = false)
include hp

/-- Before READY (R122). -/
theorem cmdWrite_notReady (w : Word) (hi : s.initState ≠ .ready) : cmdWrite w s = .next (drop .notReady s) := by
  obtain ⟨f, ⟨op, pass, go, -, rfl⟩, hw⟩ := cmdWrite_isAcceptance w s
  exact hw.trans (acceptCommand_notReady hp hi)

/-- An acceptance that R120 and the first two tests of R121 let through, with the check still to be made (R124). -/
theorem acceptCommand_check (op : Byte) (pass : Bool) (go : State → State) (hi : s.initState = .ready)
    (hphase : s.phase ≠ .strWait) :
    acceptCommand op pass go s = .next (if pass = false then drop (.paramRejected op) s else go s) := by
  cases pass <;> simp [acceptCommand, hp, hi, hphase]

/-- Outside STR_WAIT the meaning of each command is its row of the ROM. -/
theorem exec_eq_romDispatch {w : Word} {i : Instr} (hi : s.initState = .ready) (hphase : s.phase ≠ .strWait)
    (hdecode : decode .command w = .ok i) : exec i s = .next (romDispatch w s) := by
  have haccept := fun op pass go => acceptCommand_check hp op pass go hi hphase
  have hop : ∀ k : Nat, (opField w).toNat = k → opField w = BitVec.ofNat 8 k := by
    rintro k rfl
    simp
  simp only [decode, decodeCommand] at hdecode
  split at hdecode <;> cases hdecode
  all_goals
    next hk =>
    refine (haccept _ _ _).trans ?_
    simp only [romDispatch, hop _ hk]
    rfl

/-- A CMD write as a command word (R123, R124). -/
theorem cmdWrite_command (w : Word) (hi : s.initState = .ready) (hphase : s.phase ≠ .strWait) :
    cmdWrite w s = .next (romDispatch w s) := by
  have hport : cmdPort s.phase = .command := by simp [cmdPort, hphase]
  unfold cmdWrite
  rw [hport]
  split
  next i hdecode => exact exec_eq_romDispatch hp hi hphase hdecode
  next e hdecode =>
    rw [acceptCommand_check hp _ _ _ hi hphase]
    simp [romDispatch, rom_invalid_of_decode_error hdecode]

end

/-- A CMD write as a payload word (R341). -/
theorem cmdWrite_payload {s : State} (w : Word) (h : PayloadReady s) :
    cmdWrite w s = .next (stringPayload (dataField w) s) := by
  have hport : decode (cmdPort s.phase) w = .ok (.data (dataField w)) := by
    simp [cmdPort, h.2.2, decode, decodePayload]
  simp only [cmdWrite, hport]
  exact acceptCommand_payload h

end Sys2Proof.Proofs.Dispatch
end

-- ==== Proofs of the statements of 20_memory.md: the promised wire ====
section
/-!
The bytes the host's moves to come stand for, case by case; then one lemma for each kind of cycle says that what it
puts on the wire or into the buffer is what it takes from the promise (R70, R130).
-/

namespace Sys2Proof.Proofs.Promise
open Sys2Proof.Machine Sys2Proof.Laws Sys2Proof.Proofs.Cycle Sys2Proof.Proofs.Invariant
  Sys2Proof.Proofs.Window Sys2Proof.Proofs.Dispatch

/-! What one move promises (R122, R130, R341). -/

section
variable (i : InitState) (r : StrLen) (rest : List HostAction)

theorem scriptBytes_illegal {offset bytes : Nat} (v : Word)
    (h : (inWindow offset && legalForm offset bytes) = false) :
    scriptBytes i r (.write offset bytes v :: rest) = scriptBytes i r rest := by
  simp [scriptBytes, h]

theorem scriptBytes_ctrl (v : Word) :
    scriptBytes i r (.write 0x04 4 v :: rest) = scriptBytes (initAfter i v) r rest := rfl

theorem scriptBytes_notReady (w : Word) (h : i ≠ .ready) :
    scriptBytes i r (.write 0x00 4 w :: rest) = scriptBytes i r rest := by
  simp [scriptBytes, inWindow, legalForm, regAt, h]

theorem scriptBytes_command (w : Word) : scriptBytes .ready 0 (.write 0x00 4 w :: rest) =
    commandBytes w ++ scriptBytes .ready (charactersAfter w) rest := by
  simp [scriptBytes, inWindow, legalForm, regAt]

theorem scriptBytes_character (w : Word) (h : r ≠ 0) : scriptBytes .ready r (.write 0x00 4 w :: rest) =
    (dataField w :: if r = 1 then [0x0A] else []) ++ scriptBytes .ready (r - 1) rest := by
  have hr : r ≠ 0#24 := h
  simp [scriptBytes, inWindow, legalForm, regAt, hr]

end

/-! The Engine's own cycles. -/

theorem promisedWire_endCycle (s : State) : promisedWire (endCycle s) = promisedWire s := by
  simp [promisedWire, wireBytes, bufferedBytes]

/-- Outside EMIT nothing is buffered. -/
theorem promisedWire_outside_emit {s : State} (h : s.phase ≠ .emit) :
    promisedWire s = wireBytes s ++ scriptBytes s.initState s.strRemaining s.host := by
  simp [promisedWire, bufferedBytes_outside_emit h]

/-- The offered byte is the first of those buffered. -/
theorem bufferedBytes_of_txData {s : State} {b : Byte} (h : txData s = some b) :
    ∃ rest, bufferedBytes s = b :: rest := by
  have hoffer : (s.phase = .emit ∧ s.seqIdx.val < s.seqLen.val) ∧ s.seqBuf[s.seqIdx.val]? = some b := by
    simpa [txData, txValid] using h
  obtain ⟨⟨hphase, hlt⟩, hb⟩ := hoffer
  cases hbuf : bufferedBytes s with
  | nil =>
    have := s.seqLen.isLt
    simp [bufferedBytes, hphase] at hbuf
    omega
  | cons c rest =>
    obtain ⟨-, -, hc, -⟩ := bufferedBytes_cons hbuf
    cases hc.symm.trans hb
    exact ⟨rest, rfl⟩

/-- After the last byte nothing is buffered, whatever follows (R127). -/
theorem promisedWire_finish {s : State} : promisedWire (finish s) =
    wireBytes s ++ scriptBytes s.initState s.strRemaining s.host := by
  rcases finish_cases s with ⟨-, h⟩ | ⟨-, -, -, h⟩ | ⟨-, -, h⟩ <;> rw [h, promisedWire_outside_emit (by simp)] <;> rfl

/-- An accepted byte moves from the buffer to the wire. -/
theorem promisedWire_emitStep {s : State} {b : Byte} (h : txData s = some b) :
    promisedWire (emitStep b s) = promisedWire s := by
  obtain ⟨rest, hbuf⟩ := bufferedBytes_of_txData h
  cases rest with
  | nil =>
    rw [emitStep_last hbuf, promisedWire_finish]
    simp [promisedWire, hbuf, wireBytes]
  | cons c rest =>
    obtain ⟨hstep, hrest⟩ := emitStep_more hbuf
    simp only [promisedWire, hrest, hbuf]
    simp [hstep, wireBytes]

theorem promisedWire_settleCycle {s : State} (h : s.phase = .settle) :
    promisedWire (settleCycle s) = promisedWire s := by
  rw [promisedWire_outside_emit (s := s) (by simp [h])]
  rcases settleCycle_cases s with ⟨-, hc⟩ | ⟨-, hc⟩ <;> rw [hc, promisedWire_outside_emit (by simp [h])] <;> rfl

/-! The host's moves. -/

/-- `u` is the state after a move that leaves `init_state` at `i` and the characters expected at `r` and stands for
the bytes `seq`: they are buffered, and nothing else of the promise has changed. -/
structure Owes (seq : List Byte) (i : InitState) (r : StrLen) (s u : State) : Prop where
  wire : u.wire = s.wire
  buffered : bufferedBytes u = seq
  initState : u.initState = i
  strRemaining : u.strRemaining = r
  host : u.host = s.host

theorem promisedWire_of_owes {seq : List Byte} {i : InitState} {r : StrLen} {s u : State} (h : Owes seq i r s u) :
    promisedWire u = wireBytes s ++ (seq ++ scriptBytes i r s.host) := by
  simp [promisedWire, wireBytes, h.wire, h.buffered, h.initState, h.strRemaining, h.host]

theorem owes_load {seq : List Byte} (post : Post) (s : State) (hfit : seq.length ≤ 5) :
    Owes seq s.initState s.strRemaining s (loadSequence seq post s) :=
  ⟨rfl, loadSequence_buffered seq post s hfit, rfl, rfl, rfl⟩

theorem owes_drop {s : State} {e : Event} (he : ∀ p, e ≠ .wiringMismatch p) (hphase : s.phase ≠ .emit) :
    Owes [] s.initState s.strRemaining s (drop e s) :=
  ⟨by simp, bufferedBytes_outside_emit (by simpa using hphase), (drop_frame e s he).2.1, by simp, by simp⟩

/-- While no character is expected a header leaves L of them to come, and with L = 0 the terminator (R340). -/
theorem owes_stringStart (len : StrLen) {s : State} (hrem : s.strRemaining = 0) :
    Owes (if len = 0 then [0x0A] else []) s.initState len s (stringStart len s) := by
  rcases stringStart_cases len s with ⟨hlen, h⟩ | ⟨hlen, h⟩ <;> rw [h]
  · rw [if_pos hlen, hlen, ← hrem]
    exact owes_load .none s (by simp)
  · rw [if_neg hlen]
    exact ⟨rfl, bufferedBytes_outside_emit (by simp), rfl, rfl, rfl⟩

/-- A command word buffers the bytes the ROM gives for it (R121, R125). -/
theorem owes_romDispatch (w : Word) {s : State} (hphase : s.phase ≠ .emit) (hrem : s.strRemaining = 0) :
    Owes (commandBytes w) s.initState (charactersAfter w) s (romDispatch w s) := by
  unfold romDispatch commandBytes charactersAfter
  cases hvalid : (rom (opField w)).valid with
  | false => simpa [hvalid, hrem] using owes_drop (e := .illegalOp (opField w)) (by simp) hphase
  | true =>
    cases hcheck : check (rom (opField w)).vclass (a0 w) (a1 w) with
    | false =>
      have hkind : (rom (opField w)).kind ≠ .string := by
        intro hk
        obtain ⟨-, -, hclass⟩ := rom_string _ hk
        simp [hclass, check] at hcheck
      simpa [hvalid, hcheck, hkind, hrem] using owes_drop (e := .paramRejected (opField w)) (by simp) hphase
    | true =>
      by_cases hkind : (rom (opField w)).kind = .string
      · simpa [hvalid, hcheck, hkind] using owes_stringStart (lenField w) hrem
      · have hfit : (romSequence (rom (opField w)) w).length ≤ 5 := by
          rw [romSequence_length]
          exact (rom_fits _ hvalid).1
        simpa [hvalid, hcheck, hkind, hrem] using owes_load (romPost (rom (opField w))) s hfit

theorem stringPayload_eq (b : Byte) (s : State) : stringPayload b s =
    loadSequence (b :: if s.strRemaining = 1 then [0x0A] else []) .none
      { s with strRemaining := s.strRemaining - 1 } := by
  have hlast : s.strRemaining - 1 = 0 ↔ s.strRemaining = 1 := sub_eq_zero
  simp only [stringPayload, hlast]
  split <;> rfl

/-- A character is buffered, with the terminator after the last one (R341). -/
theorem owes_stringPayload (b : Byte) (s : State) :
    Owes (b :: if s.strRemaining = 1 then [0x0A] else []) s.initState (s.strRemaining - 1) s (stringPayload b s) := by
  rw [stringPayload_eq]
  exact ⟨rfl, loadSequence_buffered _ _ _ (by split <;> simp), rfl, rfl, rfl⟩

/-- An access that completes in its own step and changes nothing of the promise. -/
theorem owes_immediate {r : Response} {go : State → State} {s u : State} (hp : s.pending = false)
    (hphase : s.phase ≠ .emit) (hu : immediate r go s = .next u)
    (hgo : go s = { s with rxPin := (go s).rxPin, illegalOp := (go s).illegalOp, notReady := (go s).notReady,
                           events := (go s).events }) :
    Owes [] s.initState s.strRemaining s u := by
  cases (immediate_next hp).symm.trans hu
  rw [hgo]
  exact ⟨rfl, bufferedBytes_outside_emit hphase, rfl, rfl, rfl⟩

theorem owes_refusedAccess {offset : Nat} {s u : State} (hp : s.pending = false) (hphase : s.phase ≠ .emit)
    (hu : refusedAccess offset s = .next u) : Owes [] s.initState s.strRemaining s u := by
  unfold refusedAccess at hu
  split at hu
  · exact owes_immediate hp hphase hu rfl
  · exact owes_immediate hp hphase hu rfl

theorem owes_memRead {offset bytes : Nat} {s u : State} (hp : s.pending = false) (hphase : s.phase ≠ .emit)
    (hu : memRead offset bytes s = .next u) : Owes [] s.initState s.strRemaining s u := by
  unfold memRead at hu
  split at hu
  · exact owes_immediate hp hphase hu rfl
  · exact owes_refusedAccess hp hphase hu

theorem initOperation_frame (pin : Byte) (s : State) :
    (initOperation pin s).wire = s.wire ∧ (initOperation pin s).phase = s.phase ∧
    (initOperation pin s).strRemaining = s.strRemaining ∧ (initOperation pin s).host = s.host := by
  rcases initOperation_cases pin s with ⟨-, -, h⟩ | ⟨-, -, h⟩ | ⟨-, h⟩ <;> rw [h] <;> simp [setPin]

theorem initOperation_initState_eq (v : Word) (s : State) (hinit : initField v = true) :
    (initOperation (pinField v) s).initState = initAfter s.initState v := by
  rcases initOperation_cases (pinField v) s with ⟨hi, hpin, h⟩ | ⟨hi, hpin, h⟩ | ⟨hi, h⟩ <;> rw [h]
  · simp [initAfter, hinit, hi, hpin]
  · simp [initAfter, hinit, hi, hpin, raise, eventEffect]
  · simp [initAfter, hi, setPin]

/-- A write to CTRL buffers nothing (R160 to R165). -/
theorem owes_ctrlWrite (v : Word) {s u : State} (hp : s.pending = false) (hphase : s.phase ≠ .emit)
    (hu : ctrlWrite v s = .next u) : Owes [] (initAfter s.initState v) s.strRemaining s u := by
  cases hinit : initField v with
  | false =>
    have hwrite : ctrlWrite v s = immediate .okay (setPin (pinField v)) s := by
      simp [ctrlWrite, decode, decodeCtrl, hinit]
    simpa [initAfter, hinit] using owes_immediate hp hphase (hwrite.symm.trans hu) rfl
  | true =>
    have hwrite : ctrlWrite v s = immediate .okay (initOperation (pinField v)) s := by
      simp [ctrlWrite, decode, decodeCtrl, hinit, exec, execInit]
    cases (hwrite.trans (immediate_next hp)).symm.trans hu
    have hinitState := initOperation_initState_eq v s hinit
    obtain ⟨hwire, hkept, hrem, hhost⟩ := initOperation_frame (pinField v) s
    exact ⟨hwire, bufferedBytes_outside_emit (by simpa [hkept] using hphase), hinitState, hrem, hhost⟩

/-- `u` is the state after the host's move `a` in `s` if what `u` promises is what `s` did with `a` still to come. -/
def KeepsPromise (a : HostAction) (s u : State) : Prop :=
  promisedWire u = wireBytes s ++ scriptBytes s.initState s.strRemaining (a :: s.host)

theorem keepsPromise_of_owes {seq : List Byte} {i : InitState} {r : StrLen} {a : HostAction} {s u : State}
    (h : Owes seq i r s u)
    (hscript : scriptBytes s.initState s.strRemaining (a :: s.host) = seq ++ scriptBytes i r s.host) :
    KeepsPromise a s u := by
  rw [KeepsPromise, promisedWire_of_owes h, hscript]

section
variable {s u : State} (hinv : EngineInv s) (hp : s.pending = false) (hphase : s.phase = .idle ∨ s.phase = .strWait)
include hinv hp hphase

/-- The spec's reading of a CMD write by the phase (R96) is the promise's reading by the characters expected. -/
theorem keepsPromise_cmdWrite (w : Word) (hu : cmdWrite w s = .next u) : KeepsPromise (.write 0x00 4 w) s u := by
  by_cases hi : s.initState = .ready
  · rcases hphase with hidle | hwait
    · obtain ⟨-, -, hrem⟩ := hinv.idle hidle
      cases (cmdWrite_command hp w hi (by simp [hidle])).symm.trans hu
      refine keepsPromise_of_owes (owes_romDispatch w (by simp [hidle]) hrem) ?_
      rw [hi, hrem]
      exact scriptBytes_command _ w
    · obtain ⟨-, -, hrem⟩ := hinv.awaiting hwait
      cases (cmdWrite_payload w ⟨hp, hi, hwait⟩).symm.trans hu
      refine keepsPromise_of_owes (owes_stringPayload (dataField w) s) ?_
      rw [hi]
      exact scriptBytes_character _ _ w hrem
  · obtain ⟨hidle, -, -⟩ := hinv.quiet hi
    cases (cmdWrite_notReady hp w hi).symm.trans hu
    exact keepsPromise_of_owes (owes_drop (by simp) (by simp [hidle])) (scriptBytes_notReady _ _ _ w hi)

theorem keepsPromise_hostMove (a : HostAction) (hu : hostMove a s = .next u) : KeepsPromise a s u := by
  have hemit : s.phase ≠ .emit := by rcases hphase with h | h <;> simp [h]
  cases a with
  | wait =>
    cases hu
    exact promisedWire_outside_emit hemit
  | read offset bytes => exact keepsPromise_of_owes (owes_memRead hp hemit hu) rfl
  | write offset bytes v =>
    cases hl : inWindow offset && legalForm offset bytes with
    | false =>
      have hrefused := (memWrite_illegal hl v s).symm.trans hu
      exact keepsPromise_of_owes (owes_refusedAccess hp hemit hrefused) (scriptBytes_illegal _ _ _ v hl)
    | true =>
      obtain ⟨rfl, rfl | rfl | rfl | rfl | rfl⟩ := offset_of_legal hl
      · exact keepsPromise_cmdWrite hinv hp hphase v hu
      · exact keepsPromise_of_owes (owes_ctrlWrite v hp hemit hu) (scriptBytes_ctrl _ _ _ v)
      · exact keepsPromise_of_owes (owes_immediate hp hemit (go := clearSticky v) hu rfl) rfl
      · exact keepsPromise_of_owes (owes_immediate hp hemit (go := id) hu rfl) rfl
      · exact keepsPromise_of_owes (owes_immediate hp hemit (go := id) hu rfl) rfl

end

theorem promisedWire_hostCycle {s u : State} (hinv : EngineInv s) (hphase : s.phase = .idle ∨ s.phase = .strWait)
    (hu : hostCycle s = .next u) : promisedWire u = promisedWire s := by
  rcases hostCycle_cases s with ⟨-, hc⟩ | ⟨hp, a, rest, hh, hc⟩
  · cases hc.symm.trans hu
    rfl
  · have htaken : EngineInv { s with host := rest } := inv_congr hinv rfl
    have hemit : s.phase ≠ .emit := by rcases hphase with h | h <;> simp [h]
    rw [promisedWire_outside_emit hemit, hh]
    exact keepsPromise_hostMove htaken hp hphase a (hc.symm.trans hu)

/-- Settles O53: an accepted byte moves from the buffer to the wire, a move of the host takes from the script what it
buffers, and no other cycle touches the promise. -/
theorem stepKeepsThePromisedWire : Obligations.StepKeepsThePromisedWire := by
  unfold Obligations.StepKeepsThePromisedWire
  intro s t hinv hr hstep
  have hbegin : EngineInv (beginCycle s) := inv_congr hinv rfl
  rcases step_cases hstep with ⟨hreset, -⟩ | ⟨-, -, b, hb, ⟨-, rfl⟩ | ⟨-, rfl⟩⟩ | ⟨-, hphase, rfl⟩ |
    ⟨-, hphase, u, hu, rfl⟩
  · simp [hr] at hreset
  · exact (promisedWire_endCycle _).trans (promisedWire_emitStep (s := beginCycle s) hb)
  · exact promisedWire_endCycle _
  · exact (promisedWire_endCycle _).trans (promisedWire_settleCycle (s := beginCycle s) hphase)
  · exact (promisedWire_endCycle _).trans (promisedWire_hostCycle (s := beginCycle s) hbegin hphase hu)

end Sys2Proof.Proofs.Promise
end

-- ==== Proofs of the statements of 20_memory.md: every host program ends ====
section
/-!
A measure of the cycles still to come: what the command in progress can take, and the longest a command can take for
each move of the host. With a Transport that takes each byte as it is offered every cycle lowers it, until nothing
is left to do (R69, R130).
-/

namespace Sys2Proof.Proofs.Progress
open Sys2Proof.Machine Sys2Proof.Laws Sys2Proof.Proofs.Cycle Sys2Proof.Proofs.Invariant Sys2Proof.Proofs.Promise

/-- The cycles the command in progress can still take: one for each byte and the settle window in EMIT, the timer's
count in SETTLE. -/
def busyBound (s : State) : Nat :=
  match s.phase with
  | .emit => (bufferedBytes s).length + Config.settleCycles
  | .settle => s.settleCnt
  | .idle => 0
  | .strWait => 0

/-- The cycles until nothing is left to do, at most: a move takes one cycle, and its command five bytes and the
settle window. -/
def cyclesBound (s : State) : Nat := busyBound s + s.host.length * (Config.settleCycles + 6)

/-! The agents around the Engine, which only the host's move and the end of the cycle change. -/

/-- The input pins and the host's moves of `u` are those of `s`. -/
def SameAgents (s u : State) : Prop :=
  u.resetIn = s.resetIn ∧ u.txReady = s.txReady ∧ u.inputs = s.inputs ∧ u.host = s.host

theorem sameAgents_commandEffect {s u : State} (h : CommandEffect s u) : SameAgents s u := by
  cases h with
  | load seq post => exact ⟨rfl, rfl, rfl, rfl⟩
  | header len => rcases stringStart_cases len s with ⟨-, h⟩ | ⟨-, h⟩ <;> rw [h] <;> exact ⟨rfl, rfl, rfl, rfl⟩
  | reject e => simp [SameAgents]

theorem sameAgents_hostEffect {s u : State} {a : HostAction} (h : HostEffect s a u) : SameAgents s u := by
  cases h with
  | dropped w e => simp [SameAgents]
  | character w b => rw [stringPayload_eq]; exact ⟨rfl, rfl, rfl, rfl⟩
  | command w _ _ heffect => exact sameAgents_commandEffect heffect
  | init v =>
    rcases initOperation_cases (pinField v) s with ⟨-, -, h⟩ | ⟨-, -, h⟩ | ⟨-, h⟩ <;> rw [h] <;>
      exact ⟨rfl, rfl, rfl, rfl⟩
  | _ => exact ⟨rfl, rfl, rfl, rfl⟩

theorem sameAgents_emitStep (b : Byte) (s : State) : SameAgents s (emitStep b s) := by
  rcases emitStep_cases b s with ⟨-, he⟩ | ⟨-, he⟩ | ⟨-, -, -, he⟩ | ⟨-, -, he⟩ <;> rw [he] <;>
    exact ⟨rfl, rfl, rfl, rfl⟩

theorem sameAgents_settleCycle (s : State) : SameAgents s (settleCycle s) := by
  rcases settleCycle_cases s with ⟨-, hc⟩ | ⟨-, hc⟩ <;> rw [hc] <;> exact ⟨rfl, rfl, rfl, rfl⟩

/-- With no input scheduled the pins keep their levels. -/
theorem alwaysReady_endCycle {s u : State} (h : AlwaysReady s) (hu : SameAgents s u) : AlwaysReady (endCycle u) := by
  obtain ⟨hr, ht, hi⟩ := h
  obtain ⟨hur, hut, hui, -⟩ := hu
  rw [endCycle_steady (hui.trans hi)]
  exact ⟨hur.trans hr, hut.trans ht, hui.trans hi⟩

/-! The measure falls. -/

theorem cyclesBound_endCycle (s : State) : cyclesBound (endCycle s) = cyclesBound s := by
  simp [cyclesBound, busyBound, bufferedBytes]

theorem bufferedBytes_length_le (s : State) : (bufferedBytes s).length ≤ 5 := by
  unfold bufferedBytes
  split <;> simp

/-- A command that is not settling yet. -/
theorem busyBound_le_of_not_settle {s : State} (h : s.phase ≠ .settle) : busyBound s ≤ 5 + Config.settleCycles := by
  have hlength := bufferedBytes_length_le s
  unfold busyBound
  split
  · omega
  next hsettle => exact absurd hsettle h
  · omega
  · omega

/-- The timer runs down from `SETTLE_CYCLES` (R128). -/
theorem settleCnt_le {s : State} (h : EngineInv s) (hphase : s.phase = .settle) :
    s.settleCnt ≤ Config.settleCycles := by
  obtain ⟨-, -, -, w, hlast, -, hcount⟩ := h.settling hphase
  have hpast := h.stamped.2 w (List.mem_of_getLast? hlast)
  omega

theorem busyBound_le {s : State} (h : EngineInv s) : busyBound s ≤ 5 + Config.settleCycles := by
  by_cases hphase : s.phase = .settle
  · have hle := settleCnt_le h hphase
    simp only [busyBound, hphase]
    omega
  · exact busyBound_le_of_not_settle hphase

/-- The last byte leaves the settle window at most (R127). -/
theorem busyBound_finish (s : State) : busyBound (finish s) ≤ Config.settleCycles := by
  rcases finish_cases s with ⟨-, h⟩ | ⟨-, -, -, h⟩ | ⟨-, -, h⟩ <;> rw [h] <;> simp [busyBound]

theorem busyBound_emitStep {s : State} {b : Byte} (h : txData s = some b) :
    busyBound (emitStep b s) < busyBound s := by
  obtain ⟨rest, hbuf⟩ := bufferedBytes_of_txData h
  have hphase : s.phase = .emit := (bufferedBytes_cons hbuf).1
  have hbefore : busyBound s = rest.length + 1 + Config.settleCycles := by simp [busyBound, hphase, hbuf]
  rw [hbefore]
  cases rest with
  | nil =>
    have hafter := busyBound_finish { emit b s with seqIdx := s.seqLen }
    rw [emitStep_last hbuf, List.length_nil]
    omega
  | cons c rest =>
    obtain ⟨hstep, hrest⟩ := emitStep_more hbuf
    have hafter : (emitStep b s).phase = .emit := by simp [hstep, hphase]
    simp [busyBound, hafter, hrest]

theorem busyBound_settleCycle {s : State} (h : EngineInv s) (hphase : s.phase = .settle) :
    busyBound (settleCycle s) < busyBound s := by
  obtain ⟨-, -, hpos, -⟩ := h.settling hphase
  rcases settleCycle_cases s with ⟨-, hc⟩ | ⟨-, hc⟩ <;> simp [hc, busyBound, hphase, hpos]

theorem cyclesBound_lt_of_busyBound {s u : State} (hagents : SameAgents s u) (hbusy : busyBound u < busyBound s) :
    cyclesBound u < cyclesBound s := by
  obtain ⟨-, -, -, hhost⟩ := hagents
  simpa [cyclesBound, hhost] using hbusy

/-- A move is taken out of the host's list, and its command is within the bound of one move. -/
theorem cyclesBound_hostEffect {s u : State} {a : HostAction} {rest : List HostAction}
    (heffect : HostEffect { s with host := rest } a u) (hphase : s.phase ≠ .settle) (hh : s.host = a :: rest) :
    cyclesBound u < cyclesBound s := by
  obtain ⟨-, -, -, hhost⟩ := sameAgents_hostEffect heffect
  have hbusy := busyBound_le_of_not_settle (hostEffect_phase heffect hphase)
  simp only [cyclesBound, hhost, hh, List.length_cons, Nat.add_mul]
  omega

/-- Outside EMIT and SETTLE no write is pending (R41). -/
theorem pending_of_waiting {s : State} (h : EngineInv s) (hphase : s.phase = .idle ∨ s.phase = .strWait) :
    s.pending = false := by
  rcases hphase with hidle | hwait
  · exact (h.idle hidle).1
  · exact (h.awaiting hwait).1

/-- Until nothing is left to do, each cycle with a ready Transport lowers the bound. -/
theorem step_lowers_cyclesBound {s t : State} (h : EngineInv s) (hready : AlwaysReady s) (hleft : ¬ Drained s)
    (hstep : step s = .next t) : AlwaysReady t ∧ cyclesBound t < cyclesBound s := by
  obtain ⟨hr, ht, hi⟩ := hready
  have hbegin : EngineInv (beginCycle s) := inv_congr h rfl
  have hreadyBegin : AlwaysReady (beginCycle s) := ⟨hr, ht, hi⟩
  have hown : ∀ u, SameAgents (beginCycle s) u → busyBound u < busyBound (beginCycle s) →
      AlwaysReady (endCycle u) ∧ cyclesBound (endCycle u) < cyclesBound s := by
    intro u hagents hbusy
    rw [cyclesBound_endCycle]
    exact ⟨alwaysReady_endCycle hreadyBegin hagents, cyclesBound_lt_of_busyBound (s := beginCycle s) hagents hbusy⟩
  rcases step_cases hstep with ⟨hreset, -⟩ | ⟨-, hphase, b, hb, ⟨-, rfl⟩ | ⟨hstall, -⟩⟩ | ⟨-, hphase, rfl⟩ |
    ⟨-, hphase, u, hu, rfl⟩
  · simp [hr] at hreset
  · exact hown _ (sameAgents_emitStep b _) (busyBound_emitStep hb)
  · simp [ht] at hstall
  · exact hown _ (sameAgents_settleCycle _) (busyBound_settleCycle hbegin hphase)
  · have hp := pending_of_waiting h hphase
    rcases hostCycle_effect (beginCycle s) with ⟨hdone, -⟩ | ⟨-, a, rest, v, hh, hc, heffect⟩
    · exact absurd ⟨hp, hdone.resolve_left (by simp [hp])⟩ hleft
    · cases hc.symm.trans hu
      have hsettle : (beginCycle s).phase ≠ .settle := by rcases hphase with h' | h' <;> simp [h']
      rw [cyclesBound_endCycle]
      exact ⟨alwaysReady_endCycle (s := { beginCycle s with host := rest }) hreadyBegin
        (sameAgents_hostEffect heffect), cyclesBound_hostEffect (s := beginCycle s) heffect hsettle hh⟩

/-! The run to the end. -/

theorem wireBytes_of_drained {s : State} (h : EngineInv s) (hdone : Drained s) : wireBytes s = promisedWire s := by
  obtain ⟨hp, hh⟩ := hdone
  have hemit : s.phase ≠ .emit := by
    intro hphase
    simp [(h.emitting hphase).2] at hp
  simp [promisedWire_outside_emit hemit, hh, scriptBytes]

/-- Within the bound nothing is left to do, and the promise is kept on the way. -/
theorem cycles_to_drained (s : State) (h : EngineInv s) (hready : AlwaysReady s) :
    ∃ n u, n ≤ cyclesBound s ∧ cycles n s = .next u ∧ Drained u ∧ wireBytes u = promisedWire s := by
  by_cases hdone : Drained s
  · exact ⟨0, s, Nat.zero_le _, rfl, hdone, wireBytes_of_drained h hdone⟩
  · obtain ⟨t, hstep⟩ := stepIsSafeUnderTheInvariant s h
    obtain ⟨hreadyNext, hlower⟩ := step_lowers_cyclesBound h hready hdone hstep
    obtain ⟨n, u, hn, hrun, hend, hwire⟩ :=
      cycles_to_drained t (invariantKeptByEveryStep s t h hstep) hreadyNext
    have hpromise := stepKeepsThePromisedWire s t h hready.1 hstep
    exact ⟨n + 1, u, by omega, (cycles_succ n s t hstep).trans hrun, hend, hwire.trans hpromise⟩
termination_by cyclesBound s

/-- Settles O54: the bound on the cycles still to come is at most that of the moves and one command more. -/
theorem hostProgramsRunToTheirEnd : Obligations.HostProgramsRunToTheirEnd := by
  unfold Obligations.HostProgramsRunToTheirEnd
  intro s h hready
  obtain ⟨n, u, hn, hrun⟩ := cycles_to_drained s h hready
  have hbusy := busyBound_le h
  refine ⟨n, u, hn.trans ?_, hrun⟩
  simp only [cyclesBound, Nat.add_mul]
  omega

end Sys2Proof.Proofs.Progress
end

-- ==== Proofs of the statements of 30_encoding.md ====
section
/-!
A CMD write is one acceptance (R121) with the ROM's dispatch as its effect, in every state. That equation carries the
statements about instructions and words; those about the assembler follow from the field each operand is put in.
-/

namespace Sys2Proof.Proofs.Encoding
open Sys2Proof.Machine Sys2Proof.Laws Sys2Proof.Proofs.Cycle Sys2Proof.Proofs.Window Sys2Proof.Proofs.Dispatch

/-! The CMD write as one acceptance (R96, R120, R121). -/

/-- The acceptance takes its tests in the order of R121, so that the dispatch's own check comes last. -/
theorem cmdWrite_eq_acceptCommand (w : Word) (s : State) :
    cmdWrite w s = acceptCommand (opField w) true (romDispatch w) s := by
  cases hp : s.pending with
  | true =>
    obtain ⟨f, ⟨op, pass, go, -, rfl⟩, hw⟩ := cmdWrite_isAcceptance w s
    rw [hw, acceptCommand_pending hp, acceptCommand_pending hp]
  | false =>
    by_cases hi : s.initState = .ready
    · by_cases hphase : s.phase = .strWait
      · rw [cmdWrite_payload w ⟨hp, hi, hphase⟩, acceptCommand_payload ⟨hp, hi, hphase⟩]
        rfl
      · rw [cmdWrite_command hp w hi hphase, acceptCommand_check hp _ _ _ hi hphase]
        rfl
    · rw [cmdWrite_notReady hp w hi, acceptCommand_notReady hp hi]

/-- In STR_WAIT the acceptance reads the low byte alone (R96, R341). -/
theorem acceptCommand_strWait {s : State} (h : s.phase = .strWait) (op : Byte) (pass pass' : Bool)
    (go go' : State → State) : acceptCommand op pass go s = acceptCommand op pass' go' s := by
  simp [acceptCommand, h]

theorem opField_zext (b : Byte) : opField (zext b) = b :=
  dataField_zext b

theorem opField_encode_writeString (len : StrLen) : opField (encode (.writeString len)) = 0x24 :=
  opField_header len

/-- The meaning of an instruction is the acceptance of its own word's low byte. -/
theorem exec_accepts_encode (i : Instr) (h : portOf i ≠ .ctrl) :
    ∃ pass go, exec i = acceptCommand (opField (encode i)) pass go := by
  cases i with
  | init pin => exact absurd rfl h
  | writeString len =>
    rw [opField_encode_writeString]
    exact ⟨_, _, rfl⟩
  | data b =>
    rw [encode, opField_zext]
    exact ⟨_, _, rfl⟩
  | _ =>
    rw [encode, opField_mkWord]
    exact ⟨_, _, rfl⟩

theorem cmdWrite_of_decode {w : Word} {i : Instr} {s : State} (h : decode (cmdPort s.phase) w = .ok i) :
    cmdWrite w s = exec i s := by
  simp only [cmdWrite, h]

theorem ctrlWrite_of_decode {w : Word} {i : Instr} {s : State} (h : decode .ctrl w = .ok i) :
    ctrlWrite w s = exec i s := by
  simp only [ctrlWrite, h]

/-- Settles O20: in STR_WAIT both sides are the acceptance of the same low byte; otherwise the word is a command word,
which decodes to the instruction unless that is DATA, whose meaning is the ROM's dispatch over the word. -/
theorem instructionIsItsCmdWord : Obligations.InstructionIsItsCmdWord := by
  unfold Obligations.InstructionIsItsCmdWord
  intro i s hport
  by_cases hphase : s.phase = .strWait
  · obtain ⟨pass, go, hexec⟩ := exec_accepts_encode i hport
    rw [hexec, cmdWrite_eq_acceptCommand]
    exact acceptCommand_strWait hphase _ _ _ _ _
  · have hdecode := decode_encode i
    cases i with
    | init pin => exact absurd rfl hport
    | data b =>
      rw [cmdWrite_eq_acceptCommand, encode, opField_zext]
      rfl
    | _ =>
      refine (cmdWrite_of_decode ?_).symm
      rw [cmdPort, if_neg hphase]
      exact hdecode

/-- Settles O43: the cycle takes the host's move, whose write runs the decoded instruction. -/
theorem stepRunsTheDecodedInstruction : Obligations.StepRunsTheDecodedInstruction := by
  unfold Obligations.StepRunsTheDecodedInstruction
  intro s i rest w hreset hp hphase
  refine ⟨fun hhost hdecode => ?_, fun hhost hdecode => ?_⟩ <;>
    refine (step_host hreset hp hphase hhost).trans (congrArg (andThen · endCycle) ?_)
  · exact (memWrite_cmd w _).trans (cmdWrite_of_decode hdecode)
  · exact (memWrite_ctrl w _).trans (ctrlWrite_of_decode hdecode)

/-! The decoder on words (R90 to R98). -/

/-- Every code below 0x01 or above 0x24 falls through the decoder's table (R98). -/
theorem decode_command_reserved {w : Word} (h : opField w = 0x00 ∨ 0x25 ≤ (opField w).toNat) :
    decode .command w = .error (.reservedCode (opField w)) := by
  have hcode : (opField w).toNat = 0 ∨ 0x25 ≤ (opField w).toNat := h.imp_left (congrArg BitVec.toNat)
  simp only [decode, decodeCommand]
  split
  case h_37 => rfl
  all_goals omega

/-- The 219 reserved codes from 0x25 on and the code 0x00 (R98). -/
theorem reserved_entries_count :
    ((List.range 256).filter (fun n => (rom (BitVec.ofNat 8 n)).valid = false)).length = 220 := by
  have habove : ∀ n ∈ (List.range 219).map (37 + ·), decide ((rom (BitVec.ofNat 8 n)).valid = false) = true := by
    intro n hn
    obtain ⟨k, hk, rfl⟩ := List.mem_map.mp hn
    rw [decide_eq_true_iff, ← Bool.not_eq_true, rom_valid_iff, BitVec.toNat_ofNat]
    have := List.mem_range.mp hk
    omega
  have hbelow : (List.range 37).filter (fun n => (rom (BitVec.ofNat 8 n)).valid = false) = [0] := by decide
  rw [List.range_add (n := 37) (m := 219), List.filter_append, hbelow, List.filter_eq_self.mpr habove]
  simp

/-- Settles O32: the decoder and the ROM leave out the same codes. -/
theorem reservedCodesAreExactlyThese : Obligations.ReservedCodesAreExactlyThese := by
  unfold Obligations.ReservedCodesAreExactlyThese
  refine ⟨fun w => ⟨fun h => ?_, decode_command_reserved⟩, reserved_entries_count⟩
  have hinvalid := rom_invalid_of_decode_error h
  rw [← Bool.not_eq_true, rom_valid_iff] at hinvalid
  by_cases hzero : (opField w).toNat = 0
  · exact .inl (BitVec.eq_of_toNat_eq hzero)
  · exact .inr (by omega)

/-- Settles O44: closed words, decoded by evaluation. -/
theorem wordsDecodeToTheirInstructions : Obligations.WordsDecodeToTheirInstructions := by
  unfold Obligations.WordsDecodeToTheirInstructions
  decide

/-! The argument fields a command uses (R91, R92). -/

/-- The word `w` with 0 in every argument field that its command does not use. -/
def clearUnused (w : Word) : Word :=
  mkWord (opField w)
    (if 1 ≤ (rom (opField w)).nargs then a0 w else 0)
    (if 2 ≤ (rom (opField w)).nargs then a1 w else 0)
    (if 3 ≤ (rom (opField w)).nargs then a2 w else 0)

@[simp] theorem opField_clearUnused (w : Word) : opField (clearUnused w) = opField w :=
  opField_mkWord _ _ _ _

/-- A check reads used fields only (R184). -/
theorem check_clearUnused (w : Word) :
    check (rom (opField w)).vclass (a0 (clearUnused w)) (a1 (clearUnused w)) =
      check (rom (opField w)).vclass (a0 w) (a1 w) := by
  obtain ⟨hone, htwo⟩ := rom_checked_args (opField w)
  simp only [clearUnused, a0_mkWord, a1_mkWord]
  cases hclass : (rom (opField w)).vclass with
  | none => rfl
  | heat => simp [check, htwo hclass]
  | _ => simp [check, hone (by simp [hclass])]

/-- So do the bytes of the sequence (R92). -/
theorem romSequence_clearUnused (w : Word) :
    romSequence (rom (opField w)) (clearUnused w) = romSequence (rom (opField w)) w := by
  rcases rom_nargs (opField w) with h | h | h <;> simp [romSequence, argBytes, clearUnused, h]

theorem romDispatch_clearUnused {w : Word} (h : (rom (opField w)).kind ≠ .string) :
    romDispatch (clearUnused w) = romDispatch w := by
  funext s
  simp only [romDispatch, opField_clearUnused, check_clearUnused, romSequence_clearUnused, h, if_false]

theorem cmdWrite_clearUnused {w : Word} (h : (rom (opField w)).kind ≠ .string) (s : State) :
    cmdWrite (clearUnused w) s = cmdWrite w s := by
  simp only [cmdWrite_eq_acceptCommand, opField_clearUnused, romDispatch_clearUnused h]

/-! The assembler's commands (R100, R101). -/

/-- The word of a command with the operands `args`. -/
def commandWord (op : Byte) (args : List Int) : Word :=
  mkWord op (byteOf (args.getD 0 0)) (byteOf (args.getD 1 0)) (byteOf (args.getD 2 0))

theorem assembleCommand_ok_iff {op : Byte} {args : List Int} {accesses : List HostAction} :
    assembleCommand op args = .ok accesses ↔ (rom op).valid = true ∧ (rom op).kind ≠ .string ∧
      args.length = (rom op).nargs ∧ accesses = [writeCmd (commandWord op args)] := by
  unfold assembleCommand
  by_cases hcommand : ((rom op).valid && (rom op).kind != .string) = true
  · have hcode : (rom op).valid = true ∧ (rom op).kind ≠ .string := by simpa using hcommand
    by_cases hcount : args.length = (rom op).nargs
    · simp [hcode, hcount, commandWord, @eq_comm _ accesses]
    · simp [hcode, hcount]
  · rw [if_neg hcommand]
    simp_all

theorem assemble_ok_iff_of_command {op : Byte} {args : List Int} {accesses : List HostAction} :
    assemble (.command op args) = .ok accesses ↔
      args.all fitsByte = true ∧ assembleCommand op args = .ok accesses := by
  cases hfit : args.all fitsByte <;> simp [assemble, Statement.wf, hfit]

/-- An operand that is not given is written as 0. -/
theorem byteOf_missing {args : List Int} {k : Nat} (h : args.length ≤ k) : byteOf (args.getD k 0) = 0 := by
  rw [List.getD_eq_default _ _ h]
  rfl

/-- Settles O21: the word with its unused fields cleared is accepted with the same code and dispatched alike; the
assembler gives as many operands as the command uses. -/
theorem unusedFieldsHaveNoEffect : Obligations.UnusedFieldsHaveNoEffect := by
  unfold Obligations.UnusedFieldsHaveNoEffect
  refine ⟨fun w s _ hkind => (cmdWrite_clearUnused hkind s).symm, fun op args accesses h => ?_⟩
  obtain ⟨-, hassembled⟩ := assemble_ok_iff_of_command.mp h
  obtain ⟨-, -, hcount, rfl⟩ := assembleCommand_ok_iff.mp hassembled
  refine ⟨commandWord op args, rfl, by simp [commandWord], fun hn => ?_, fun hn => ?_, fun hn => ?_⟩
  · rw [commandWord, a0_mkWord, byteOf_missing (by omega)]
  · rw [commandWord, a1_mkWord, byteOf_missing (by omega)]
  · rw [commandWord, a2_mkWord, byteOf_missing (by omega)]

/-! Operands and their fields (R101). -/

theorem fitsByte_eq_false {n : Int} (h : n < 0 ∨ 255 < n) : fitsByte n = false := by
  simp only [fitsByte, Bool.and_eq_false_iff, decide_eq_false_iff_not]
  omega

theorem fitsLength_eq_false {n : Int} (h : n < 0 ∨ 16777215 < n) : fitsLength n = false := by
  simp only [fitsLength, Bool.and_eq_false_iff, decide_eq_false_iff_not]
  omega

theorem fitsByte_ofNat {n : Nat} (h : n ≤ 255) : fitsByte (Int.ofNat n) = true := by
  simp only [fitsByte, Bool.and_eq_true, decide_eq_true_eq, Int.ofNat_eq_natCast]
  omega

theorem fitsLength_ofNat {n : Nat} (h : n ≤ 16777215) : fitsLength (Int.ofNat n) = true := by
  simp only [fitsLength, Bool.and_eq_true, decide_eq_true_eq, Int.ofNat_eq_natCast]
  omega

theorem byteOf_ofNat (n : Nat) : byteOf (Int.ofNat n) = BitVec.ofNat 8 n :=
  BitVec.ofInt_natCast 8 n

theorem assemble_refused {st : Statement} (h : st.wf = false) : assemble st = .error .operandRefused := by
  simp [assemble, h]

/-- A value that fits its field keeps it when the field is extended to a word. -/
theorem zext_ofNat {width n : Nat} (hwidth : width ≤ 32) (h : n < 2 ^ width) :
    zext (BitVec.ofNat width n) = BitVec.ofNat 32 n :=
  BitVec.setWidth_ofNat_of_le_of_lt hwidth h

theorem zext_byte_ofNat {n : Nat} (h : n ≤ 255) : zext (BitVec.ofNat 8 n) = BitVec.ofNat 32 n :=
  zext_ofNat (by decide) (by omega)

/-- Bit 8 of an INIT word lies above its pin (R95). -/
theorem encode_init_ofNat {n : Nat} (h : n ≤ 255) :
    encode (.init (BitVec.ofNat 8 n)) = BitVec.ofNat 32 (0x100 + n) := by
  have hdisjoint : 0x100 + n = 0x100 ||| n := by
    simpa using Nat.two_pow_add_eq_or_of_lt (i := 8) (show n < 2 ^ 8 by omega) 1
  rw [encode, zext_byte_ofNat h, hdisjoint]
  exact BitVec.ofNat_or.symm

/-- The length of a header lies above its code (R94). -/
theorem encode_writeString_ofNat {n : Nat} (h : n ≤ 16777215) :
    encode (.writeString (BitVec.ofNat 24 n)) = BitVec.ofNat 32 (n * 256 + 0x24) := by
  have hdisjoint : n * 256 + 0x24 = n <<< 8 ||| 0x24 := by
    rw [← Nat.shiftLeft_add_eq_or_of_lt (by decide), Nat.shiftLeft_eq]
  have hshift : BitVec.ofNat 32 n <<< 8 = BitVec.ofNat 32 (n <<< 8) := by
    apply BitVec.eq_of_toNat_eq
    simp [Nat.shiftLeft_eq]
  rw [encode, zext_ofNat (by decide) (by omega), hshift, hdisjoint]
  exact BitVec.ofNat_or.symm

/-- The operands of a command in their fields, unchanged. -/
theorem commandWord_map_ofNat (op : Byte) (args : List Nat) : commandWord op (args.map Int.ofNat) =
    mkWord op (BitVec.ofNat 8 (args.getD 0 0)) (BitVec.ofNat 8 (args.getD 1 0)) (BitVec.ofNat 8 (args.getD 2 0)) := by
  have hfield : ∀ k, byteOf ((args.map Int.ofNat).getD k 0) = BitVec.ofNat 8 (args.getD k 0) := fun k =>
    (congrArg byteOf (List.getD_map args 0 Int.ofNat)).trans (byteOf_ofNat _)
  simp only [commandWord, hfield]

/-- Settles O56: the operands are tested before anything else, and one that fits is the value of its field. -/
theorem assemblerRefusesAndNeverTruncates : Obligations.AssemblerRefusesAndNeverTruncates := by
  unfold Obligations.AssemblerRefusesAndNeverTruncates
  refine ⟨fun op args h => ?_, fun n h => ?_, fun n h => assemble_refused (fitsLength_eq_false h),
    fun op args hfit hvalid hkind hcount => ?_, fun n h => ?_, fun n h => ?_⟩
  · obtain ⟨n, hmem, hn⟩ := h
    exact assemble_refused (List.all_eq_false.mpr ⟨n, hmem, by simp [fitsByte_eq_false hn]⟩)
  · have hwf := fitsByte_eq_false h
    exact ⟨assemble_refused hwf, assemble_refused hwf, assemble_refused hwf⟩
  · rw [← commandWord_map_ofNat, assemble_ok_iff_of_command, assembleCommand_ok_iff]
    refine ⟨?_, hvalid, hkind, by simpa using hcount, rfl⟩
    simpa using fun n hn => fitsByte_ofNat (hfit n hn)
  · have hfit := fitsByte_ofNat h
    simp only [assemble, Statement.wf, hfit, if_true, byteOf_ofNat, encode_init_ofNat h, writeCtrl, writeCmd]
    simp [encode, zext_byte_ofNat h]
  · have hlen : BitVec.ofInt 24 (Int.ofNat n) = BitVec.ofNat 24 n := BitVec.ofInt_natCast 24 n
    simp only [assemble, Statement.wf, fitsLength_ofNat h, if_true, hlen, encode_writeString_ofNat h, writeCmd]

end Sys2Proof.Proofs.Encoding
end

-- ==== Proofs of the statements of 40_sequencer.md ====
section
/-!
The dispatch of a CMD write (R121 to R123), the emission of its bytes and the settle window (R126 to R128), and what
the bytes depend on (R131, R132).
-/

namespace Sys2Proof.Proofs.Sequencer
open Sys2Proof.Machine Sys2Proof.Laws Sys2Proof.Proofs.Cycle Sys2Proof.Proofs.Invariant
  Sys2Proof.Proofs.Dispatch Sys2Proof.Proofs.Progress

/-! The dispatch (R121 to R123). -/

/-- A dropped write was never pending, so that its completion is the response alone. -/
theorem drop_eq_respond {s : State} (e : Event) (hp : s.pending = false) : drop e s = respond .okay (raise e s) := by
  have hkept : { raise e s with pending := false } = raise e s := by
    rw [← hp, ← raise_pending e s]
  rw [drop, complete, hkept]

/-- Settles O17: every word and every instruction for CMD is an acceptance, whose first test drops it. -/
theorem cmdWriteBeforeReadyIsDropped : Obligations.CmdWriteBeforeReadyIsDropped := by
  unfold Obligations.CmdWriteBeforeReadyIsDropped
  intro s hp hi
  have hdrop := drop_eq_respond .notReady hp
  refine ⟨fun w => ?_, fun i hport => ?_⟩
  · rw [cmdWrite_notReady hp w hi, hdrop]
    rfl
  · obtain ⟨op, pass, go, -, hexec⟩ := exec_isAcceptance i hport
    rw [hexec, acceptCommand_notReady hp hi, hdrop]
    rfl

theorem romDispatch_reserved {w : Word} (h : (rom (opField w)).valid = false) (s : State) :
    romDispatch w s = drop (.illegalOp (opField w)) s := by
  simp [romDispatch, h]

/-- Settles O18: the code has no valid entry in the ROM, which is the first thing its dispatch tests. -/
theorem reservedCodeSetsIllegalOp : Obligations.ReservedCodeSetsIllegalOp := by
  unfold Obligations.ReservedCodeSetsIllegalOp
  rintro w s ⟨hp, hi, hidle⟩ hcode
  have hinvalid := rom_invalid_of_decode_error (Encoding.decode_command_reserved hcode)
  rw [cmdWrite_command hp w hi (by simp [hidle]), romDispatch_reserved hinvalid, drop_eq_respond _ hp]
  rfl

/-- Settles O19: the tests of R121 on `init_state` and the phase come first, and the others are the ROM's dispatch. -/
theorem cmdWriteFollowsTheDispatchOrder : Obligations.CmdWriteFollowsTheDispatchOrder := by
  unfold Obligations.CmdWriteFollowsTheDispatchOrder
  intro w s hp
  by_cases hi : s.initState = .ready
  · by_cases hphase : s.phase = .strWait
    · simpa [hi, hphase] using cmdWrite_payload w ⟨hp, hi, hphase⟩
    · simpa [hi, hphase, romDispatch, romSequence, romPost, argBytes] using cmdWrite_command hp w hi hphase
  · simpa [hi] using cmdWrite_notReady hp w hi

/-! The emission (R126, R127). -/

theorem emitStep_wire (b : Byte) (s : State) : (emitStep b s).wire = s.wire ++ [{ byte := b, cycle := s.cycle }] := by
  rcases emitStep_cases b s with ⟨-, he⟩ | ⟨-, he⟩ | ⟨-, -, -, he⟩ | ⟨-, -, he⟩ <;> rw [he] <;> rfl

theorem bufferedBytes_endCycle (s : State) : bufferedBytes (endCycle s) = bufferedBytes s := by
  simp [bufferedBytes]

/-- The acceptance of the last byte, by what `Finish` reads (R127). -/
theorem emitStep_last_cases {s : State} {b : Byte} (h : bufferedBytes s = [b]) :
    (s.post = .settle ∧ emitStep b s =
      { emit b s with seqIdx := s.seqLen, settleCnt := Config.settleCycles, phase := .settle }) ∨
    (s.post = .none ∧ s.strMode = true ∧ s.strRemaining ≠ 0 ∧ emitStep b s =
      complete { emit b s with seqIdx := s.seqLen, phase := .strWait }) ∨
    (s.post = .none ∧ (s.strMode = false ∨ s.strRemaining = 0) ∧ emitStep b s =
      complete { emit b s with seqIdx := s.seqLen, strMode := false, phase := .idle }) := by
  rw [emitStep_last h]
  exact finish_cases { emit b s with seqIdx := s.seqLen }

/-- Settles O22: a byte with others behind it moves the index alone, and the last one runs `Finish`. -/
theorem eachAcceptedByteAdvancesTheSequence : Obligations.EachAcceptedByteAdvancesTheSequence := by
  unfold Obligations.EachAcceptedByteAdvancesTheSequence
  intro s b rest hb hr ht
  have hbegin : bufferedBytes (beginCycle s) = b :: rest := hb
  refine ⟨_, step_emit hr hb ht, by simp [emitStep_wire], ?_⟩
  cases rest with
  | cons c rest =>
    obtain ⟨hstep, hrest⟩ := emitStep_more hbegin
    have hphase : s.phase = .emit := (bufferedBytes_cons hb).1
    refine ⟨fun _ => ⟨?_, (bufferedBytes_endCycle _).trans hrest, ?_, ?_⟩, by simp, by simp, by simp⟩ <;>
      simp [hstep, hphase]
  | nil =>
    rcases emitStep_last_cases hbegin with ⟨hpost, he⟩ | ⟨hpost, hstr, hrem, he⟩ | ⟨hpost, hdone, he⟩ <;>
      rw [beginCycle_post] at hpost
    · simp [he, hpost]
    · rw [beginCycle_strMode] at hstr
      have hrem : s.strRemaining ≠ 0#24 := hrem
      simp [he, hpost, hstr, hrem]
    · rw [beginCycle_strMode, beginCycle_strRemaining] at hdone
      rcases hdone with hstr | hrem
      · simp [he, hpost, hstr]
      · simp [he, hpost, hrem]

/-! The settle window (R128). -/

/-- `u` is a state `k` cycles into the rest of the settle window that `s` is in. -/
def SettlingAfter (k : Nat) (s u : State) : Prop :=
  u.phase = .settle ∧ u.pending = s.pending ∧ u.settleCnt = s.settleCnt - k ∧ u.wire = s.wire ∧ u.host = s.host ∧
    u.responses = s.responses

theorem noReset_settleCycle {s : State} (h : NoReset s) : NoReset (endCycle (settleCycle (beginCycle s))) := by
  obtain ⟨hreset, -, hinputs, -⟩ := sameAgents_settleCycle (beginCycle s)
  exact noReset_endCycle h hreset hinputs

theorem cycles_snoc {n : Nat} {s u v : State} (hrun : cycles n s = .next u) (hstep : step u = .next v) :
    cycles (n + 1) s = .next v :=
  (cycles_add n 1 s u hrun).trans (cycles_succ 0 u v hstep)

/-- Before the timer's last cycle each cycle takes one from it and nothing else happens. -/
theorem cycles_settling {s : State} (hphase : s.phase = .settle) (h : NoReset s) (k : Nat) (hk : k < s.settleCnt) :
    ∃ u, cycles k s = .next u ∧ NoReset u ∧ SettlingAfter k s u := by
  induction k with
  | zero => exact ⟨s, rfl, h, hphase, rfl, rfl, rfl, rfl, rfl⟩
  | succ k ih =>
    obtain ⟨u, hrun, hu, hsettle, hpending, hcount, hwire, hhost, hresp⟩ := ih (by omega)
    refine ⟨_, cycles_snoc hrun (step_settle hu.1 hsettle), noReset_settleCycle hu, ?_⟩
    rcases settleCycle_cases (beginCycle u) with ⟨hlast, -⟩ | ⟨-, hc⟩
    · rw [beginCycle_settleCnt] at hlast
      omega
    · simp [SettlingAfter, hc, hsettle, hpending, hcount, hwire, hhost, hresp, Nat.sub_sub]

/-- The last cycle of the window completes the write. -/
theorem cycles_settled {s : State} (hphase : s.phase = .settle) (h : NoReset s) (hpos : 0 < s.settleCnt) :
    ∃ u, cycles s.settleCnt s = .next u ∧ u.phase = .idle ∧ u.pending = false ∧ u.post = .none ∧ u.settleCnt = 0 ∧
      u.wire = s.wire ∧ u.host = s.host ∧ u.responses = s.responses ++ [.okay] := by
  obtain ⟨k, hk⟩ := Nat.exists_eq_add_of_lt hpos
  rw [Nat.zero_add] at hk
  obtain ⟨u, hrun, hu, hsettle, -, hcount, hwire, hhost, hresp⟩ := cycles_settling hphase h k (by omega)
  rw [hk]
  refine ⟨_, cycles_snoc hrun (step_settle hu.1 hsettle), ?_⟩
  rcases settleCycle_cases (beginCycle u) with ⟨-, hc⟩ | ⟨hmore, -⟩
  · simp [hc, hwire, hhost, hresp]
  · rw [beginCycle_settleCnt] at hmore
    omega

/-- Settles O25: the window opens as `Finish` says, runs down by one a cycle, and R8 bounds its length. -/
theorem settleWindowHoldsTheWrite : Obligations.SettleWindowHoldsTheWrite := by
  unfold Obligations.SettleWindowHoldsTheWrite
  refine ⟨fun s b hb hpost ht h => ?_, fun s hphase h hpos => ⟨fun k hk => ?_, cycles_settled hphase h hpos⟩,
    Scope.settleMs_mul_clkHz_le_settleCycles⟩
  · obtain ⟨t, hstep, hwire, -, hsettle, -⟩ := eachAcceptedByteAdvancesTheSequence s b [] hb h.1 ht
    obtain ⟨hphase, hcount, hpending, hresp⟩ := hsettle rfl hpost
    have hnext : NoReset t := by
      obtain ⟨hreset, -, hinputs, -⟩ := sameAgents_emitStep b (beginCycle s)
      cases (step_emit h.1 hb ht).symm.trans hstep
      exact noReset_endCycle h hreset hinputs
    exact ⟨t, hstep, hphase, hcount, hwire, hpending, hresp, hnext⟩
  · obtain ⟨u, hrun, -, hsettling⟩ := cycles_settling hphase h k hk
    exact ⟨u, hrun, hsettling⟩

/-! What the emitted bytes depend on (R131). -/

/-- The two states offer the same bytes, and agree on what the reading of the next word depends on. -/
def SameOffer (s t : State) : Prop :=
  bufferedBytes s = bufferedBytes t ∧ s.phase = t.phase ∧ s.strRemaining = t.strRemaining

theorem sameOffer_load {seq : List Byte} {s t : State} (post : Post) (hfit : seq.length ≤ 5)
    (hrem : s.strRemaining = t.strRemaining) : SameOffer (loadSequence seq post s) (loadSequence seq post t) :=
  ⟨by rw [loadSequence_buffered _ _ _ hfit, loadSequence_buffered _ _ _ hfit], rfl, hrem⟩

theorem sameOffer_stringPayload (b : Byte) {s t : State} (hrem : s.strRemaining = t.strRemaining) :
    SameOffer (stringPayload b s) (stringPayload b t) := by
  unfold stringPayload
  rw [hrem]
  exact sameOffer_load .none (by split <;> simp) rfl

section
variable {s t : State} (hemit : s.phase ≠ .emit) (hphase : s.phase = t.phase) (hrem : s.strRemaining = t.strRemaining)
include hemit hphase hrem

theorem sameOffer_drop (e : Event) : SameOffer (drop e s) (drop e t) := by
  have hemit' : t.phase ≠ .emit := hphase ▸ hemit
  refine ⟨?_, by simpa using hphase, by simpa using hrem⟩
  rw [bufferedBytes_outside_emit (by simpa using hemit), bufferedBytes_outside_emit (by simpa using hemit')]

omit hemit hphase in
theorem sameOffer_stringStart (len : StrLen) : SameOffer (stringStart len s) (stringStart len t) := by
  unfold stringStart
  split_ifs
  · exact sameOffer_load .none (by simp) hrem
  · refine ⟨?_, rfl, rfl⟩
    rw [bufferedBytes_outside_emit (by simp), bufferedBytes_outside_emit (by simp)]

/-- The ROM's dispatch takes its branches by the word alone. -/
theorem sameOffer_romDispatch (w : Word) : SameOffer (romDispatch w s) (romDispatch w t) := by
  unfold romDispatch
  dsimp only
  split_ifs with hinvalid
  · exact sameOffer_drop hemit hphase hrem _
  · exact sameOffer_drop hemit hphase hrem _
  · exact sameOffer_stringStart hrem _
  · refine sameOffer_load _ ?_ hrem
    rw [romSequence_length]
    exact (rom_fits _ (by simpa using hinvalid)).1

end

/-- Settles O27: the two states take the same branch of R121, and each branch gives them the same offer. -/
theorem emittedBytesIgnoreHistory : Obligations.EmittedBytesIgnoreHistory := by
  unfold Obligations.EmittedBytesIgnoreHistory
  intro w s t hps hpt hemit hinit hphase hrem
  by_cases hi : s.initState = .ready
  · have hi' : t.initState = .ready := hinit ▸ hi
    by_cases hwait : s.phase = .strWait
    · have hwait' : t.phase = .strWait := hphase ▸ hwait
      exact ⟨_, _, cmdWrite_payload w ⟨hps, hi, hwait⟩, cmdWrite_payload w ⟨hpt, hi', hwait'⟩,
        sameOffer_stringPayload _ hrem⟩
    · have hwait' : t.phase ≠ .strWait := hphase ▸ hwait
      exact ⟨_, _, cmdWrite_command hps w hi hwait, cmdWrite_command hpt w hi' hwait',
        sameOffer_romDispatch hemit hphase hrem w⟩
  · have hi' : t.initState ≠ .ready := hinit ▸ hi
    exact ⟨_, _, cmdWrite_notReady hps w hi, cmdWrite_notReady hpt w hi',
      sameOffer_drop hemit hphase hrem _⟩

/-! The bytes and the line (R132). -/

theorem commandEffect_wire {s u : State} (h : CommandEffect s u) : u.wire = s.wire := by
  cases h with
  | load seq post => rfl
  | header len => rcases stringStart_cases len s with ⟨-, h⟩ | ⟨-, h⟩ <;> rw [h] <;> rfl
  | reject e => exact drop_wire e s

/-- No move of the host puts a byte on the wire. -/
theorem hostEffect_wire {s u : State} {a : HostAction} (h : HostEffect s a u) : u.wire = s.wire := by
  cases h with
  | dropped w e => exact drop_wire e s
  | command w _ _ heffect => exact commandEffect_wire heffect
  | init v => exact (Promise.initOperation_frame (pinField v) s).1
  | _ => rfl

theorem hostCycle_wire {s u : State} (hu : hostCycle s = .next u) : u.wire = s.wire := by
  rcases hostCycle_effect s with ⟨-, hc⟩ | ⟨-, a, rest, v, -, hc, heffect⟩ <;> cases hc.symm.trans hu
  · rfl
  · exact hostEffect_wire (s := { s with host := rest }) heffect

/-- The Transport accepts a byte in EMIT alone (R36). -/
theorem emit_of_step_wire_ne {s t : State} (hstep : step s = .next t) (hwire : t.wire ≠ s.wire) : s.phase = .emit := by
  rcases step_cases hstep with ⟨-, rfl⟩ | ⟨-, hphase, -⟩ | ⟨-, -, rfl⟩ | ⟨-, -, u, hu, rfl⟩
  · simp at hwire
  · exact hphase
  · rcases settleCycle_cases (beginCycle s) with ⟨-, hc⟩ | ⟨-, hc⟩ <;> simp [hc] at hwire
  · simp [hostCycle_wire hu] at hwire

/-- Settles O28: a byte is offered or accepted in EMIT alone, where the CFE is READY, and READY has the line. -/
theorem noByteOnAnUnconfiguredLine : Obligations.NoByteOnAnUnconfiguredLine := by
  unfold Obligations.NoByteOnAnUnconfiguredLine
  intro s h
  have hline : s.phase = .emit → s.lineConfigured = true ∧ s.initState = .ready := by
    intro hphase
    have hready := ready_of_busy h (by simp [hphase])
    exact ⟨h.configured.2 hready, hready⟩
  exact ⟨fun hvalid => (hline (by simpa [txValid] using hvalid)).1,
    fun t hstep hwire => hline (emit_of_step_wire_ne hstep hwire)⟩

end Sys2Proof.Proofs.Sequencer
end

-- ==== Proofs of the statements of 41_init.md ====
section
/-!
INIT, the plain pin write and the read of CTRL (R160 to R165); what the diagnostic outputs show after a step (R164);
and WIRING_ERROR, which nothing but a reset ends (R162).
-/

namespace Sys2Proof.Proofs.Init
open Sys2Proof.Machine Sys2Proof.Laws Sys2Proof.Proofs.Cycle

/-! The accesses to CTRL. -/

theorem decode_ctrl_of_init {v : Word} (h : initField v = true) : decode .ctrl v = .ok (.init (pinField v)) := by
  simp [decode, decodeCtrl, h]

theorem ctrlWrite_of_initClear {v : Word} (s : State) (h : initField v = false) :
    ctrlWrite v s = immediate .okay (setPin (pinField v)) s := by
  simp [ctrlWrite, decode, decodeCtrl, h]

/-- Settles O16: the write is the immediate access that sets the pin, and the read is the response alone. -/
theorem pinWriteSetsOnlyRxPin : Obligations.PinWriteSetsOnlyRxPin := by
  unfold Obligations.PinWriteSetsOnlyRxPin
  refine ⟨fun v s hinit hp => ?_, fun s hp => ?_⟩
  · rw [memWrite_ctrl, ctrlWrite_of_initClear s hinit, immediate_next hp]
    rfl
  · exact (Window.memRead_register .ctrl s).trans (immediate_next hp)

/-- INIT completes in its step (R160). -/
theorem exec_init (pin : Byte) {s : State} (hp : s.pending = false) :
    exec (.init pin) s = .next (respond .okay (initOperation pin s)) :=
  immediate_next hp

theorem initOperation_matching {pin : Byte} {s : State} (hi : s.initState = .uninit)
    (hpin : pin = Config.requiredRxPin) : initOperation pin s = bindAndConfigure pin (setPin pin s) := by
  simp [initOperation, hi, hpin]

theorem initOperation_mismatch {pin : Byte} {s : State} (hi : s.initState = .uninit)
    (hpin : pin ≠ Config.requiredRxPin) : initOperation pin s = raise (.wiringMismatch pin) (setPin pin s) := by
  simp [initOperation, hi, hpin]

theorem initOperation_afterFirst (pin : Byte) {s : State} (hi : s.initState ≠ .uninit) :
    initOperation pin s = setPin pin s := by
  simp [initOperation, hi]

/-- Settles O14: the INIT operation takes one of three ways, by `init_state` and the pin of the same write. -/
theorem initBindsOrFailsOnce : Obligations.InitBindsOrFailsOnce := by
  unfold Obligations.InitBindsOrFailsOnce
  refine ⟨fun v => decode_ctrl_of_init, fun pin s hp => ⟨fun hi hpin => ?_, fun hi hpin => ?_, fun hi => ?_⟩⟩ <;>
    rw [exec_init pin hp]
  · rw [initOperation_matching hi hpin]
    exact ⟨_, rfl, rfl, rfl, rfl⟩
  · rw [initOperation_mismatch hi hpin]
    rfl
  · rw [initOperation_afterFirst pin hi]
    rfl

/-! The diagnostic outputs (R164). -/

/-- Between `s` and `u` nothing was reported, and the CFE did not fall from UNINIT into WIRING_ERROR. -/
def Unreported (s u : State) : Prop :=
  u.diagValid = s.diagValid ∧ u.diagLog = s.diagLog ∧ ¬ (s.initState = .uninit ∧ u.initState = .wiringError)

/-- The CFE fell from UNINIT into WIRING_ERROR, and that was reported once. -/
def Reported (s u : State) : Prop :=
  (s.initState = .uninit ∧ u.initState = .wiringError) ∧ u.diagValid = true ∧
    diagOut u = some { sev := 2, code := 0x01 } ∧ u.diagLog = s.diagLog ++ [{ sev := 2, code := 0x01 }]

/-- Where `init_state` is kept only the outputs are left to look at. -/
theorem unreported_of_kept {s u : State} (hi : u.initState = s.initState) (hvalid : u.diagValid = s.diagValid)
    (hlog : u.diagLog = s.diagLog) : Unreported s u := by
  refine ⟨hvalid, hlog, ?_⟩
  rintro ⟨huninit, herror⟩
  simp [hi, huninit] at herror

/-- Events other than the wiring mismatch are silent. -/
theorem unreported_drop {e : Event} (he : ∀ p, e ≠ .wiringMismatch p) (s : State) : Unreported s (drop e s) := by
  cases e with
  | wiringMismatch p => exact absurd rfl (he p)
  | _ => exact unreported_of_kept rfl rfl rfl

theorem unreported_commandEffect {s u : State} (h : CommandEffect s u) : Unreported s u := by
  cases h with
  | load seq post => exact unreported_of_kept rfl rfl rfl
  | header len =>
    rcases stringStart_cases len s with ⟨-, h⟩ | ⟨-, h⟩ <;> rw [h] <;> exact unreported_of_kept rfl rfl rfl
  | reject e he => exact unreported_drop he s

theorem unreported_emitStep (b : Byte) (s : State) : Unreported s (emitStep b s) := by
  rcases emitStep_cases b s with ⟨-, he⟩ | ⟨-, he⟩ | ⟨-, -, -, he⟩ | ⟨-, -, he⟩ <;> rw [he] <;>
    exact unreported_of_kept rfl rfl rfl

theorem unreported_settleCycle (s : State) : Unreported s (settleCycle s) := by
  rcases settleCycle_cases s with ⟨-, hc⟩ | ⟨-, hc⟩ <;> rw [hc] <;> exact unreported_of_kept rfl rfl rfl

theorem reported_or_unreported_init (pin : Byte) (s : State) :
    Reported s (respond .okay (initOperation pin s)) ∨ Unreported s (respond .okay (initOperation pin s)) := by
  rcases initOperation_cases pin s with ⟨-, -, h⟩ | ⟨hi, -, h⟩ | ⟨-, h⟩ <;> rw [h]
  · exact .inr ⟨rfl, rfl, by simp⟩
  · exact .inl ⟨⟨hi, rfl⟩, rfl, rfl, rfl⟩
  · exact .inr (unreported_of_kept rfl rfl rfl)

/-- Of the moves of the host INIT alone can report. -/
theorem reported_or_unreported_hostEffect {s u : State} {a : HostAction} (h : HostEffect s a u) :
    Reported s u ∨ Unreported s u := by
  cases h with
  | init v => exact reported_or_unreported_init (pinField v) s
  | dropped w e he => exact .inr (unreported_drop he s)
  | command w _ _ heffect => exact .inr (unreported_commandEffect heffect)
  | _ => exact .inr (unreported_of_kept rfl rfl rfl)

theorem unreported_endCycle {s u : State} (h : Unreported s u) : Unreported s (endCycle u) := by
  simpa [Unreported] using h

theorem reported_endCycle {s u : State} (h : Reported s u) : Reported s (endCycle u) := by
  simpa [Reported, diagOut] using h

/-- Seen from the cycle's start, where `diag_valid` is 0, a cycle without reset reports the mismatch or nothing. -/
theorem reported_or_unreported_step {s t : State} (hr : s.resetIn = false) (hstep : step s = .next t) :
    Reported (beginCycle s) t ∨ Unreported (beginCycle s) t := by
  rcases step_cases hstep with ⟨hreset, -⟩ | ⟨-, -, b, -, ⟨-, rfl⟩ | ⟨-, rfl⟩⟩ | ⟨-, -, rfl⟩ | ⟨-, -, u, hu, rfl⟩
  · simp [hr] at hreset
  · exact .inr (unreported_endCycle (unreported_emitStep b _))
  · exact .inr (unreported_endCycle (unreported_of_kept rfl rfl rfl))
  · exact .inr (unreported_endCycle (unreported_settleCycle _))
  · rcases hostCycle_effect (beginCycle s) with ⟨-, hc⟩ | ⟨-, a, rest, v, -, hc, heffect⟩ <;>
      cases hc.symm.trans hu
    · exact .inr (unreported_endCycle (unreported_of_kept rfl rfl rfl))
    · exact (reported_or_unreported_hostEffect heffect).imp reported_endCycle unreported_endCycle

/-- Settles O47: a reset shows no event, and a cycle without one shows the mismatch it took or nothing. -/
theorem onlyTheMismatchIsReported : Obligations.OnlyTheMismatchIsReported := by
  unfold Obligations.OnlyTheMismatchIsReported
  intro s t hstep
  cases hr : s.resetIn with
  | true =>
    have ht : t = endCycle (resetEngine s) := by simpa [step, hr] using hstep.symm
    simp [ht, State.reset, diagOut]
  | false =>
    rcases reported_or_unreported_step hr hstep with ⟨hfell, hvalid, hout, hlog⟩ | ⟨hvalid, hlog, hnot⟩
    · exact ⟨iff_of_true hvalid ⟨rfl, hfell⟩, fun _ => ⟨hout, hlog⟩, by simp [hvalid]⟩
    · have hlow : t.diagValid = false := hvalid
      have hout : diagOut t = none := by simp [diagOut, hlow]
      exact ⟨iff_of_false (by simp [hlow]) fun h => hnot h.2, by simp [hlow], fun _ => ⟨hout, hlog⟩⟩

/-! WIRING_ERROR (R162). -/

/-- The fields that R162 holds fixed in WIRING_ERROR, and those that keep the Engine waiting for the host. -/
structure Frozen (s u : State) : Prop where
  initState : u.initState = s.initState
  phase : u.phase = s.phase
  pending : u.pending = s.pending
  wire : u.wire = s.wire
  pinBound : u.pinBound = s.pinBound
  lineConfigured : u.lineConfigured = s.lineConfigured

theorem Frozen.trans {s t u : State} (hst : Frozen s t) (htu : Frozen t u) : Frozen s u :=
  ⟨htu.initState.trans hst.initState, htu.phase.trans hst.phase, htu.pending.trans hst.pending,
    htu.wire.trans hst.wire, htu.pinBound.trans hst.pinBound, htu.lineConfigured.trans hst.lineConfigured⟩

theorem frozen_endCycle {s u : State} (h : Frozen s u) : Frozen s (endCycle u) :=
  h.trans (by constructor <;> simp)

/-- WIRING_ERROR, with the Engine waiting for the host and no reset to come. -/
structure Failed (s : State) : Prop where
  initState : s.initState = .wiringError
  phase : s.phase = .idle
  pending : s.pending = false
  noReset : NoReset s

/-- In WIRING_ERROR no move of the host is a command or a character, and INIT sets RX_PIN alone (R163). -/
theorem frozen_hostEffect {s u : State} {a : HostAction} (heffect : HostEffect s a u)
    (hi : s.initState = .wiringError) (hp : s.pending = false) : Frozen s u := by
  cases heffect with
  | dropped w e he =>
    obtain ⟨hphase, hinit, hwire, -⟩ := drop_frame e s he
    exact ⟨hinit, hphase, by simp [hp], hwire, by simp, by simp⟩
  | character w b hready => simp [PayloadReady, hi] at hready
  | command w hready => simp [hi] at hready
  | init v =>
    rw [initOperation_afterFirst _ (by simp [hi])]
    exact ⟨rfl, rfl, rfl, rfl, rfl, rfl⟩
  | _ => exact ⟨rfl, rfl, rfl, rfl, rfl, rfl⟩

theorem failed_of_frozen {s u : State} (h : Failed s) (hfrozen : Frozen s u) (hr : NoReset u) : Failed u :=
  ⟨hfrozen.initState.trans h.initState, hfrozen.phase.trans h.phase, hfrozen.pending.trans h.pending, hr⟩

theorem step_failed {s : State} (h : Failed s) : ∃ t, step s = .next t ∧ Failed t ∧ Frozen s t := by
  have ⟨hi, hphase, hp, hr⟩ := h
  cases hh : s.host with
  | nil =>
    have hfrozen : Frozen s (endCycle (beginCycle s)) := frozen_endCycle ⟨rfl, rfl, rfl, rfl, rfl, rfl⟩
    exact ⟨_, step_done hr.1 (.inl hphase) (.inr hh), failed_of_frozen h hfrozen (noReset_endCycle hr rfl rfl),
      hfrozen⟩
  | cons a rest =>
    obtain ⟨u, hu, heffect⟩ := hostMove_effect (s := { s with diagValid := false, host := rest }) hp a
    obtain ⟨hreset, -, hinputs, -⟩ := Progress.sameAgents_hostEffect heffect
    have htaken : Frozen s { s with diagValid := false, host := rest } := ⟨rfl, rfl, rfl, rfl, rfl, rfl⟩
    have hfrozen : Frozen s (endCycle u) := frozen_endCycle (htaken.trans (frozen_hostEffect heffect hi hp))
    have hstep : step s = .next (endCycle u) := by
      rw [step_host hr.1 hp (.inl hphase) hh, hu]
      rfl
    exact ⟨_, hstep, failed_of_frozen h hfrozen (noReset_endCycle hr hreset hinputs), hfrozen⟩

theorem cycles_failed (n : Nat) : ∀ s, Failed s → ∃ u, cycles n s = .next u ∧ Failed u ∧ Frozen s u := by
  induction n with
  | zero => exact fun s h => ⟨s, rfl, h, ⟨rfl, rfl, rfl, rfl, rfl, rfl⟩⟩
  | succ n ih =>
    intro s h
    obtain ⟨t, hstep, ht, hst⟩ := step_failed h
    obtain ⟨u, hrun, hu, htu⟩ := ih t ht
    exact ⟨u, (cycles_succ n s t hstep).trans hrun, hu, hst.trans htu⟩

/-- Before READY the line is not configured and the pin is not bound (R35). -/
theorem unconfigured_of_not_ready {s : State} (h : EngineInv s) (hi : s.initState ≠ .ready) :
    s.pinBound = false ∧ s.lineConfigured = false := by
  have hline : s.lineConfigured = false := by simpa [← h.configured] using hi
  exact ⟨h.bound.trans hline, hline⟩

/-- Settles O15: the mismatch is the second case of `initBindsOrFailsOnce`, a CMD write meets R122, and each cycle
leaves WIRING_ERROR frozen. -/
theorem wiringErrorIsFatalUntilReset : Obligations.WiringErrorIsFatalUntilReset := by
  unfold Obligations.WiringErrorIsFatalUntilReset
  refine ⟨fun pin s h hi hpin => ?_, fun w s hp hi => ?_, fun n s hi hphase hp hr => ?_⟩
  · have hready : s.initState ≠ .ready := by simp [hi]
    obtain ⟨-, hp, -⟩ := h.quiet hready
    obtain ⟨hbound, hline⟩ := unconfigured_of_not_ready h hready
    obtain ⟨-, hmismatch, -⟩ := initBindsOrFailsOnce.2 pin s hp
    exact ⟨_, hmismatch hi hpin, rfl, rfl, hbound, hline, rfl⟩
  · exact ⟨_, Dispatch.cmdWrite_notReady hp w (by simp [hi]), rfl, rfl, rfl, rfl⟩
  · obtain ⟨u, hrun, hu, hfrozen⟩ := cycles_failed n s ⟨hi, hphase, hp, hr⟩
    exact ⟨u, hrun, hu.initState, hu.phase, hfrozen.wire, hfrozen.pinBound, hfrozen.lineConfigured⟩

end Sys2Proof.Proofs.Init
end

