-- ==== Sys2Proof/Proofs/Validator.lean ====
section
/-!
The validator (42_validator.md). Each bit form tests a field of high bits and the pair of bits below it: the field
is a quotient of the byte's value, and the pair is a quarter of the block that the field selects.
-/

namespace Sys2Proof.Proofs.Validator
open Sys2Proof.Machine

/-! The two parts of a bit form as arithmetic on the byte's value. -/

/-- The bits of a byte from bit `k` up. -/
theorem highField_eq_iff (v : Byte) {k m : Nat} (hk : k + m = 8) (c : BitVec m) :
    v.extractLsb' k m = c ↔ v.toNat / 2 ^ k = c.toNat := by
  have hlt : v.toNat / 2 ^ k < 2 ^ m := Nat.div_lt_of_lt_mul (by rw [← pow_add, hk]; exact v.isLt)
  rw [← BitVec.toNat_inj, BitVec.extractLsb'_toNat, Nat.shiftRight_eq_div_pow, Nat.mod_eq_of_lt hlt]

/-- Two neighbouring bits are both set in the last quarter of a block of `2 ^ (k + 2)` values. -/
theorem bothBits_iff (v : Byte) (k : Nat) :
    (v.getLsbD (k + 1) && v.getLsbD k) = true ↔ v.toNat / 2 ^ k % 4 = 3 := by
  have hnext : v.toNat / 2 ^ (k + 1) = v.toNat / 2 ^ k / 2 := by rw [pow_succ, Nat.div_div_eq_div_mul]
  rw [Bool.and_eq_true, BitVec.getLsbD, BitVec.getLsbD, Nat.testBit_eq_decide_div_mod_eq,
    Nat.testBit_eq_decide_div_mod_eq, decide_eq_true_iff, decide_eq_true_iff, hnext]
  omega

/-- The form of R180 to R182: the field selects a block of values, and the last quarter of it is excluded. -/
theorem blockForm_iff (v : Byte) (k : Nat) {m : Nat} (hk : k + 2 + m = 8) (c : BitVec m) :
    (v.extractLsb' (k + 2) m == c && !(v.getLsbD (k + 1) && v.getLsbD k)) = true ↔
      v.toNat / 2 ^ (k + 2) = c.toNat ∧ v.toNat / 2 ^ k % 4 ≠ 3 := by
  rw [Bool.and_eq_true, beq_iff_eq, highField_eq_iff v hk, Bool.not_eq_true', ← Bool.not_eq_true, bothBits_iff]

/-! The four checks (R180 to R183). -/

theorem validAlignment_iff (v : Byte) : validAlignment v = true ↔ v = 0x30 ∨ v = 0x31 ∨ v = 0x32 := by
  rw [validAlignment, blockForm_iff v 0 rfl]
  bv_omega

theorem validUnderline_iff (v : Byte) : validUnderline v = true ↔ v = 0x00 ∨ v = 0x01 ∨ v = 0x02 := by
  rw [validUnderline, blockForm_iff v 0 rfl]
  bv_omega

theorem validIndent_iff (n : Byte) : validIndent n = true ↔ n.toNat ≤ 47 := by
  rw [validIndent, blockForm_iff n 4 rfl]
  bv_omega

/-- The heat check is the underline's bit form negated (R181, R183). -/
theorem validHeatingTime_eq (t : Byte) : validHeatingTime t = !validUnderline t := by
  simp [validHeatingTime, validUnderline, bne]

theorem validHeatingTime_iff (t : Byte) : validHeatingTime t = true ↔ 3 ≤ t.toNat := by
  rw [validHeatingTime_eq, Bool.not_eq_true', ← Bool.not_eq_true, validUnderline_iff]
  bv_omega

/-- Settles O29: each bit form is a block of values without its last quarter, or the complement of one. -/
theorem validatorFormsAgree : Obligations.ValidatorFormsAgree :=
  fun v => ⟨validAlignment_iff v, validUnderline_iff v, validIndent_iff v, validHeatingTime_iff v⟩

/-! The check that a code selects (R184). -/

/-- The column `vclass` of the ROM (R97, R184); the reserved codes have NONE (log entry 26). -/
theorem rom_vclass (op : Byte) : (rom op).vclass =
    if op = 0x09 then .align
    else if op = 0x0A then .indent
    else if op = 0x15 then .underline
    else if op = 0x1F then .heat
    else .none := by
  revert op; decide

/-- Settles O30: the code selects a class, and the class its check of A0 or A1. -/
theorem onlyFourCommandsAreChecked : Obligations.OnlyFourCommandsAreChecked := by
  unfold Obligations.OnlyFourCommandsAreChecked
  intro op x y
  rw [rom_vclass]
  split_ifs <;> rfl

end Sys2Proof.Proofs.Validator
end

-- ==== Lemmas: what an accepted and a rejected command do ====
section
/-!
A command whose meaning is an acceptance (R121) of fixed and argument bytes: it sends them when its check passes, and
nothing when it fails. The statements about single commands need no more than the acceptance that each meaning is.
-/

namespace Sys2Proof.Proofs.Commands
open Sys2Proof.Machine Sys2Proof.Laws

theorem loaded_loadSequence {seq : List Byte} (post : Post) (s : State) (hfit : seq.length ≤ 5) :
    Loaded seq post s (loadSequence seq post s) :=
  ⟨loadSequence_buffered seq post s hfit, rfl⟩

/-- The cycle that accepts a command word runs its instruction. -/
theorem step_issuing_command {w : Word} {i : Instr} {s : State} (hdecode : decode .command w = .ok i)
    (hready : CommandReady s) (hreset : s.resetIn = false) :
    step (issuing (.write 0x00 4 w) s) = andThen (exec i (beginCycle s)) endCycle := by
  obtain ⟨hp, -, hphase⟩ := hready
  refine (Encoding.stepRunsTheDecodedInstruction (issuing (.write 0x00 4 w) s) i s.host w hreset hp (.inl hphase)).1
    rfl ?_
  rwa [cmdPort, if_neg (by simp [issuing, hphase])]

/-- With a Transport that is always ready the accepted command has loaded its bytes one cycle later. -/
theorem step_issuing_load {w : Word} {i : Instr} {seq : List Byte} {post : Post} {s : State}
    (hexec : ∀ s, CommandReady s → exec i s = .next (loadSequence seq post s))
    (hdecode : decode .command w = .ok i) (hready : CommandReady s) (hsteady : AlwaysReady s) :
    step (issuing (.write 0x00 4 w) s) =
      .next (loadSequence seq post { s with diagValid := false, cycle := s.cycle + 1 }) := by
  obtain ⟨hreset, -, hinputs⟩ := hsteady
  rw [step_issuing_command hdecode hready hreset, hexec (beginCycle s) hready]
  exact congrArg Host.Outcome.next (endCycle_steady (s := loadSequence seq post (beginCycle s)) hinputs)

/-- A command that loads `seq` puts it on the wire: one cycle accepts the word, and one more takes each byte. -/
theorem sends_of_load {i : Instr} {seq : List Byte} (hne : seq ≠ []) (hfit : seq.length ≤ 5)
    (hexec : ∀ s, CommandReady s → exec i s = .next (loadSequence seq .none s)) : Sends i seq := by
  refine ⟨fun s hready => ⟨_, hexec s hready, loaded_loadSequence .none s hfit⟩,
    fun w s hdecode hready hstr hsteady => ?_⟩
  have hstep := step_issuing_load hexec hdecode hready hsteady
  obtain ⟨u, hrun, hwire, hframe⟩ := cycles_emission seq _ hne
    (loadSequence_buffered seq .none { s with diagValid := false, cycle := s.cycle + 1 } hfit) hsteady rfl hstr
  obtain ⟨hp, -, hphase⟩ := hready
  refine ⟨seq.length + 1, u, (cycles_succ _ _ _ hstep).trans hrun, hwire, ?_⟩
  rw [hframe]
  simp [hp, hphase, loadSequence, Nat.add_assoc, Nat.add_comm 1]

section
variable {i : Instr} {op : Byte} {pass : Bool}

/-- A command whose check passes (R124, R125). -/
theorem sends_of_accepted {seq : List Byte} (hexec : exec i = acceptCommand op pass (loadSequence seq .none))
    (hpass : pass = true) (hne : seq ≠ [] := by simp) (hfit : seq.length ≤ 5 := by simp) : Sends i seq := by
  refine sends_of_load hne hfit fun s hready => ?_
  rw [hexec, hpass]
  exact acceptCommand_accepted hready

/-- A command whose check fails (R124, R133). -/
theorem rejected_of_check {go : State → State} (hexec : exec i = acceptCommand op pass go) (hpass : pass = false) :
    Rejected i op := by
  intro s hready
  rw [hexec, hpass, acceptCommand_rejected hready, Sequencer.drop_eq_respond _ hready.1]
  rfl

end

end Sys2Proof.Proofs.Commands
end

-- ==== Proofs of the statements of 43_feed_layout.md ====
section
/-!
The feed and layout commands (R200 to R207): each decodes by its code, and its meaning is one acceptance.
-/

namespace Sys2Proof.Proofs.FeedLayout
open Sys2Proof.Machine Sys2Proof.Proofs.Commands Sys2Proof.Proofs.Validator

/-- Settles O1: the six commands have no check, so that each is accepted with the bytes of its meaning. -/
theorem layoutCommandsSendTheirBytes : Obligations.LayoutCommandsSendTheirBytes := by
  unfold Obligations.LayoutCommandsSendTheirBytes
  refine ⟨⟨fun w hop => ?_, sends_of_accepted rfl rfl⟩, ⟨fun w hop => ?_, sends_of_accepted rfl rfl⟩,
    ⟨fun w hop => ?_, fun n => sends_of_accepted rfl rfl⟩, ⟨fun w hop => ?_, fun n => sends_of_accepted rfl rfl⟩,
    ⟨fun w hop => ?_, sends_of_accepted rfl rfl⟩, ⟨fun w hop => ?_, fun n => sends_of_accepted rfl rfl⟩⟩
  all_goals simp [decode, decodeCommand, hop]

/-- Settles O2: the check of R180 decides between the two ways. -/
theorem alignSendsOrSendsNothing : Obligations.AlignSendsOrSendsNothing := by
  unfold Obligations.AlignSendsOrSendsNothing
  refine ⟨fun w hop => by simp [decode, decodeCommand, hop], fun mode => ⟨fun hmode => ?_, fun hmode => ?_⟩⟩
  · exact sends_of_accepted rfl ((validAlignment_iff mode).mpr hmode)
  · have hcheck : validAlignment mode = false := by
      rw [← Bool.not_eq_true, validAlignment_iff, not_or, not_or]
      exact hmode
    exact rejected_of_check rfl hcheck

/-- Settles O3: the check of R182 decides between the two ways. -/
theorem indentSendsOrSendsNothing : Obligations.IndentSendsOrSendsNothing := by
  unfold Obligations.IndentSendsOrSendsNothing
  refine ⟨fun w hop => by simp [decode, decodeCommand, hop], fun n => ⟨fun hn => ?_, fun hn => ?_⟩⟩
  · exact sends_of_accepted rfl ((validIndent_iff n).mpr hn)
  · have hcheck : validIndent n = false := by
      rw [← Bool.not_eq_true, validIndent_iff]
      omega
    exact rejected_of_check rfl hcheck

end Sys2Proof.Proofs.FeedLayout
end

-- ==== Proofs of the statements of 44_character_format.md ====
section
/-!
The character format commands (R240 to R254): each decodes by its code, and its meaning is one acceptance. Only the
underline has a check.
-/

namespace Sys2Proof.Proofs.CharacterFormat
open Sys2Proof.Machine Sys2Proof.Proofs.Commands Sys2Proof.Proofs.Validator

/-- Settles O4: no toggle has a check, so that each is accepted with the bytes of its meaning. -/
theorem characterTogglesSendTheirBytes : Obligations.CharacterTogglesSendTheirBytes := by
  unfold Obligations.CharacterTogglesSendTheirBytes
  refine ⟨⟨fun w hop => ?boldOn, sends_of_accepted rfl rfl⟩, ⟨fun w hop => ?boldOff, sends_of_accepted rfl rfl⟩,
    ⟨fun w hop => ?doubleWidthOn, sends_of_accepted rfl rfl⟩,
    ⟨fun w hop => ?doubleWidthOff, sends_of_accepted rfl rfl⟩,
    ⟨fun w hop => ?updownOn, sends_of_accepted rfl rfl⟩, ⟨fun w hop => ?updownOff, sends_of_accepted rfl rfl⟩,
    ⟨fun w hop => ?reverseOn, sends_of_accepted rfl rfl⟩, ⟨fun w hop => ?reverseOff, sends_of_accepted rfl rfl⟩,
    ⟨fun w hop => ?userCharsOn, sends_of_accepted rfl rfl⟩,
    ⟨fun w hop => ?userCharsOff, sends_of_accepted rfl rfl⟩⟩
  all_goals simp [decode, decodeCommand, hop]

/-- Settles O5: no check reads the operand, so that the acceptance forwards it for every value. -/
theorem unvalidatedFormatSettersForward : Obligations.UnvalidatedFormatSettersForward := by
  unfold Obligations.UnvalidatedFormatSettersForward
  refine ⟨⟨fun w hop => ?printMode, fun bits => sends_of_accepted rfl rfl⟩,
    ⟨fun w hop => ?enlarge, fun bits => sends_of_accepted rfl rfl⟩,
    ⟨fun w hop => ?charset, fun cs => sends_of_accepted rfl rfl⟩,
    ⟨fun w hop => ?codeTable, fun ct => sends_of_accepted rfl rfl⟩⟩
  all_goals simp [decode, decodeCommand, hop]

/-- Settles O6: the check of R181 decides between the two ways. -/
theorem underlineSendsOrSendsNothing : Obligations.UnderlineSendsOrSendsNothing := by
  unfold Obligations.UnderlineSendsOrSendsNothing
  refine ⟨fun w hop => by simp [decode, decodeCommand, hop], fun mode => ⟨fun hmode => ?_, fun hmode => ?_⟩⟩
  · exact sends_of_accepted rfl ((validUnderline_iff mode).mpr hmode)
  · have hcheck : validUnderline mode = false := by
      rw [← Bool.not_eq_true, validUnderline_iff, not_or, not_or]
      exact hmode
    exact rejected_of_check rfl hcheck

end Sys2Proof.Proofs.CharacterFormat
end

-- ==== Proofs of the statements of 45_device_control.md ====
section
/-!
The device control commands (R290 to R301): each decodes by its code, and its meaning is one acceptance. Only
PRINT_SETTINGS has a check, and only WAKE is followed by the settle window.
-/

namespace Sys2Proof.Proofs.DeviceControl
open Sys2Proof.Machine Sys2Proof.Laws Sys2Proof.Proofs.Commands Sys2Proof.Proofs.Validator Sys2Proof.Proofs.Sequencer

/-- Settles O7: no fixed command has a check, so that each is accepted with the bytes of its meaning. -/
theorem fixedDeviceCommandsSendTheirBytes : Obligations.FixedDeviceCommandsSendTheirBytes := by
  unfold Obligations.FixedDeviceCommandsSendTheirBytes
  refine ⟨⟨fun w hop => ?online, sends_of_accepted rfl rfl⟩, ⟨fun w hop => ?offline, sends_of_accepted rfl rfl⟩,
    ⟨fun w hop => ?panelKeyEnable, sends_of_accepted rfl rfl⟩,
    ⟨fun w hop => ?panelKeyDisable, sends_of_accepted rfl rfl⟩, ⟨fun w hop => ?reset, sends_of_accepted rfl rfl⟩,
    ⟨fun w hop => ?transmitStatus, sends_of_accepted rfl rfl⟩, ⟨fun w hop => ?testPage, sends_of_accepted rfl rfl⟩⟩
  all_goals simp [decode, decodeCommand, hop]

/-- Settles O8: no check reads the operand, so that the acceptance forwards it for every value. -/
theorem unvalidatedDeviceSettersForward : Obligations.UnvalidatedDeviceSettersForward := by
  unfold Obligations.UnvalidatedDeviceSettersForward
  refine ⟨⟨fun w hop => ?autoStatusBack, fun mode => sends_of_accepted rfl rfl⟩,
    ⟨fun w hop => ?sleep, fun n => sends_of_accepted rfl rfl⟩,
    ⟨fun w hop => ?density, fun level => sends_of_accepted rfl rfl⟩⟩
  all_goals simp [decode, decodeCommand, hop]

/-- Settles O9: the check of R183 reads the heat alone and decides between the two ways. -/
theorem printSettingsSendsOrSendsNothing : Obligations.PrintSettingsSendsOrSendsNothing := by
  unfold Obligations.PrintSettingsSendsOrSendsNothing
  refine ⟨fun w hop => by simp [decode, decodeCommand, hop],
    fun dots heat interval => ⟨fun hheat => ?_, fun hheat => ?_⟩⟩
  · exact sends_of_accepted rfl ((validHeatingTime_iff heat).mpr hheat)
  · have hcheck : validHeatingTime heat = false := by
      rw [← Bool.not_eq_true, validHeatingTime_iff]
      omega
    exact rejected_of_check rfl hcheck

/-- STATUS.BUSY and STATUS.SETTLE are 1 in the settle window (R25). -/
theorem statusWord_settling {s : State} (hphase : s.phase = .settle) :
    (statusWord s).getLsbD 2 = true ∧ (statusWord s).getLsbD 3 = true := by
  obtain ⟨-, hbusy, hsettle, -⟩ := Registers.statusFieldsReadTheState s
  exact ⟨hbusy.mpr (.inr hphase), hsettle.mpr hphase⟩

/-! The settle window (R128) with a Transport that is always ready: the inputs do not change, so that each cycle's
whole next state is known. -/

/-- The acceptance of the last byte opens the window if `post` says so (R127). -/
theorem step_settleOpens_steady {s : State} {b : Byte} (hbytes : bufferedBytes s = [b]) (hpost : s.post = .settle)
    (hsteady : AlwaysReady s) :
    step s = .next { s with
      seqIdx := s.seqLen, phase := .settle, settleCnt := Config.settleCycles,
      wire := s.wire ++ [{ byte := b, cycle := s.cycle }], cycle := s.cycle + 1, diagValid := false } := by
  obtain ⟨hreset, htx, hinputs⟩ := hsteady
  rw [step_emit hreset hbytes htx]
  rcases emitStep_last_cases (s := beginCycle s) hbytes with ⟨-, hopens⟩ | ⟨hnone, -⟩ | ⟨hnone, -⟩
  · rw [hopens, endCycle_steady (by simpa using hinputs)]
    rfl
  all_goals simp [hpost] at hnone

section
variable {s : State} (hphase : s.phase = .settle) (hsteady : AlwaysReady s) (hdiag : s.diagValid = false)
include hphase hsteady hdiag

/-- Before the timer's last cycle a cycle changes the timer and the clock alone. -/
theorem step_settling_steady (hmore : 1 < s.settleCnt) :
    step s = .next { s with settleCnt := s.settleCnt - 1, cycle := s.cycle + 1 } := by
  obtain ⟨hreset, -, hinputs⟩ := hsteady
  rw [step_settle hreset hphase]
  rcases settleCycle_cases (beginCycle s) with ⟨hlast, -⟩ | ⟨-, hcycle⟩
  · exact absurd hmore (Nat.not_lt.mpr hlast)
  · rw [hcycle, endCycle_steady (by simpa using hinputs)]
    simp [beginCycle, hdiag]

/-- The timer's last cycle completes the write (R129). -/
theorem step_settled_steady (hlast : s.settleCnt = 1) :
    step s = .next (complete { s with settleCnt := 0, post := .none, phase := .idle, cycle := s.cycle + 1 }) := by
  obtain ⟨hreset, -, hinputs⟩ := hsteady
  rw [step_settle hreset hphase]
  rcases settleCycle_cases (beginCycle s) with ⟨-, hcycle⟩ | ⟨hmore, -⟩
  · rw [hcycle, endCycle_steady (by simpa using hinputs)]
    simp [beginCycle, hdiag, complete, respond]
  · exact absurd hlast (Nat.ne_of_gt hmore)

theorem cycles_settling_steady (k : Nat) (hk : k < s.settleCnt) :
    cycles k s = .next { s with settleCnt := s.settleCnt - k, cycle := s.cycle + k } := by
  induction k with
  | zero => rfl
  | succ k ih => exact cycles_snoc (ih (by omega)) (step_settling_steady hphase hsteady hdiag (by dsimp only; omega))

theorem cycles_settled_steady (hpos : 0 < s.settleCnt) :
    cycles s.settleCnt s = .next (complete { s with
      settleCnt := 0, post := .none, phase := .idle, cycle := s.cycle + s.settleCnt }) := by
  obtain ⟨k, hk⟩ := Nat.exists_eq_add_of_lt hpos
  rw [Nat.zero_add] at hk
  have hrun := cycles_settling_steady hphase hsteady hdiag k (by omega)
  rw [hk] at hrun ⊢
  exact cycles_snoc hrun (step_settled_steady hphase hsteady hdiag (by dsimp only; omega))

end

/-! WAKE (R301). -/

theorem execWake_load (s : State) (hready : CommandReady s) :
    exec .wake s = .next (loadSequence [0xFF] .settle s) :=
  acceptCommand_accepted hready

/-- `s` two cycles after a CMD write of WAKE: the byte is on the wire and the settle window begins. -/
def woken (s : State) : State :=
  { loadSequence [0xFF] .settle s with
    seqIdx := 1
    phase := .settle
    settleCnt := Config.settleCycles
    wire := s.wire ++ [{ byte := 0xFF, cycle := s.cycle + 1 }]
    cycle := s.cycle + 2
    diagValid := false }

/-- One cycle accepts the word and one more its byte. -/
theorem cycles_wake {w : Word} {s : State} (hdecode : decode .command w = .ok .wake) (hready : CommandReady s)
    (hsteady : AlwaysReady s) : cycles 2 (issuing (.write 0x00 4 w) s) = .next (woken s) :=
  cycles_snoc (n := 1) (cycles_succ 0 _ _ (step_issuing_load execWake_load hdecode hready hsteady))
    (step_settleOpens_steady (loadSequence_buffered [0xFF] .settle _ (by simp)) rfl hsteady)

/-- Settles O10: the byte is taken in the second cycle, the window's cycles change the timer and the clock alone, and
its last one completes the write. -/
theorem wakeSendsItsByteAndSettles : Obligations.WakeSendsItsByteAndSettles := by
  unfold Obligations.WakeSendsItsByteAndSettles
  have hdecode (w : Word) (hop : opField w = 0x23) : decode .command w = .ok .wake := by
    simp [decode, decodeCommand, hop]
  refine ⟨hdecode, fun s hready => ⟨_, execWake_load s hready, loaded_loadSequence .settle s (by simp)⟩,
    fun w s hop hready hsteady htimer => ⟨2, s.cycle + 1, fun k hk => ?window, ?completion⟩⟩
  all_goals
    have hwake := cycles_wake (hdecode w hop) hready hsteady
    have hwoken : AlwaysReady (woken s) := hsteady
  case window =>
    have hrun := cycles_settling_steady (s := woken s) rfl hwoken rfl k hk
    exact ⟨_, (cycles_add 2 k _ _ hwake).trans hrun, rfl, rfl, rfl, rfl, rfl, statusWord_settling rfl⟩
  case completion =>
    have hrun := cycles_settled_steady (s := woken s) rfl hwoken rfl settleCycles_pos
    obtain ⟨hp, -, hphase⟩ := hready
    refine ⟨_, (cycles_add 2 _ _ _ hwake).trans hrun, rfl, rfl, by simp [wireBytes, woken], ?_⟩
    simp [woken, loadSequence, complete, respond, hp, hphase, htimer, Nat.add_assoc]

end Sys2Proof.Proofs.DeviceControl
end

-- ==== Proofs of the statements of 46_string.md ====
section
/-!
The string header and the payload word (R340, R341), a whole string on the wire (R343), and the counter of the
characters still expected (R342).
-/

namespace Sys2Proof.Proofs.Strings
open Sys2Proof.Machine Sys2Proof.Laws Sys2Proof.Proofs.Cycle Sys2Proof.Proofs.Invariant
  Sys2Proof.Proofs.Dispatch Sys2Proof.Proofs.Promise Sys2Proof.Proofs.Commands Sys2Proof.Proofs.Sequencer

/-! The header (R340). -/

theorem decode_header {w : Word} (h : opField w = 0x24) : decode .command w = .ok (.writeString (lenField w)) := by
  simp [decode, decodeCommand, h]

/-- Without a character to come the header is a command of one byte. -/
theorem stringStart_zero : stringStart 0 = loadSequence [0x0A] .none :=
  rfl

/-- A header with characters to come was never pending, so that its completion is the response alone. -/
theorem exec_header {len : StrLen} {s : State} (hlen : len ≠ 0) (hready : CommandReady s) :
    exec (.writeString len) s = .next { s with
      strMode := true, strRemaining := len, phase := .strWait, responses := s.responses ++ [.okay] } := by
  have haccept : exec (.writeString len) s = .next (stringStart len s) := acceptCommand_accepted hready
  rcases stringStart_cases len s with ⟨hzero, -⟩ | ⟨-, hstart⟩
  · exact absurd hzero hlen
  · rw [haccept, hstart]
    obtain ⟨hp, -⟩ := hready
    simp [complete, respond, hp]

/-- Settles O11: L decides between the load of the terminator and the start of a string. -/
theorem stringHeaderStartsString : Obligations.StringHeaderStartsString :=
  ⟨fun _ => decode_header, sends_of_accepted (congrArg (acceptCommand 0x24 true) stringStart_zero) rfl,
    fun _ _ => exec_header⟩

/-! The emission of a character (R126, R127) with a Transport that is always ready, cycle by cycle: the inputs do
not change, so that each cycle's whole next state is known. -/

section
variable {s : State} {b : Byte}

/-- A byte with another one behind it. -/
theorem step_emitMore_steady {c : Byte} {rest : List Byte} (hbytes : bufferedBytes s = b :: c :: rest)
    (hsteady : AlwaysReady s) :
    ∃ t, step s = .next t ∧ bufferedBytes t = c :: rest ∧ t = { s with
      seqIdx := s.seqIdx + 1, wire := s.wire ++ [{ byte := b, cycle := s.cycle }], cycle := s.cycle + 1,
      diagValid := false } := by
  obtain ⟨hreset, htx, hinputs⟩ := hsteady
  obtain ⟨hemit, hrest⟩ := emitStep_more (s := beginCycle s) hbytes
  refine ⟨_, step_emit hreset hbytes htx, (bufferedBytes_endCycle _).trans hrest, ?_⟩
  rw [hemit, endCycle_steady (by simpa using hinputs)]
  rfl

/-- The last byte of a character with others expected after it. -/
theorem step_emitLast_expecting (hbytes : bufferedBytes s = [b]) (hsteady : AlwaysReady s) (hpost : s.post = .none)
    (hstr : s.strMode = true) (hmore : s.strRemaining ≠ 0) :
    step s = .next (complete { s with
      seqIdx := s.seqLen, phase := .strWait, wire := s.wire ++ [{ byte := b, cycle := s.cycle }],
      cycle := s.cycle + 1, diagValid := false }) := by
  obtain ⟨hreset, htx, hinputs⟩ := hsteady
  rw [step_emit hreset hbytes htx]
  rcases emitStep_last_cases (s := beginCycle s) hbytes with ⟨hsettle, -⟩ | ⟨-, -, -, hemit⟩ | ⟨-, hdone, -⟩
  · simp [hpost] at hsettle
  · rw [hemit, endCycle_steady (by simpa using hinputs)]
    rfl
  · exact absurd hdone (by simpa [hstr] using hmore)

/-- The last byte of a string. -/
theorem step_emitLast_done (hbytes : bufferedBytes s = [b]) (hsteady : AlwaysReady s) (hpost : s.post = .none)
    (hdone : s.strRemaining = 0) :
    step s = .next (complete { s with
      seqIdx := s.seqLen, strMode := false, phase := .idle, wire := s.wire ++ [{ byte := b, cycle := s.cycle }],
      cycle := s.cycle + 1, diagValid := false }) := by
  obtain ⟨hreset, htx, hinputs⟩ := hsteady
  rw [step_emit hreset hbytes htx]
  rcases emitStep_last_cases (s := beginCycle s) hbytes with ⟨hsettle, -⟩ | ⟨-, -, hmore, -⟩ | ⟨-, -, hemit⟩
  · simp [hpost] at hsettle
  · exact absurd hdone hmore
  · rw [hemit, endCycle_steady (by simpa using hinputs)]
    rfl

/-- The last character of a string and the terminator. -/
theorem cycles_emitLastTwo_done {c : Byte} (hbytes : bufferedBytes s = [b, c]) (hsteady : AlwaysReady s)
    (hpost : s.post = .none) (hdone : s.strRemaining = 0) :
    cycles 2 s = .next (complete { s with
      seqIdx := s.seqLen, strMode := false, phase := .idle,
      wire := s.wire ++ [{ byte := b, cycle := s.cycle }, { byte := c, cycle := s.cycle + 1 }],
      cycle := s.cycle + 2, diagValid := false }) := by
  obtain ⟨t, hfirst, hrest, rfl⟩ := step_emitMore_steady hbytes hsteady
  rw [cycles_succ 1 s _ hfirst, cycles_succ 0 _ _ (step_emitLast_done hrest hsteady hpost hdone)]
  simp [cycles, Nat.add_assoc]

end

/-! The payload word (R341). -/

theorem exec_data {s : State} (b : Byte) (h : PayloadReady s) : exec (.data b) s = .next (stringPayload b s) :=
  acceptCommand_payload h

theorem stringPayload_more (b : Byte) {s : State} (h : s.strRemaining ≠ 1) :
    stringPayload b s = loadSequence [b] .none { s with strRemaining := s.strRemaining - 1 } := by
  rw [stringPayload_eq, if_neg h]

theorem stringPayload_last (b : Byte) {s : State} (h : s.strRemaining = 1) :
    stringPayload b s = loadSequence [b, 0x0A] .none { s with strRemaining := 0 } := by
  rw [stringPayload_eq, if_pos h, h]
  rfl

/-- One cycle accepts the word and loads its character. -/
theorem step_issuing_payload {seq : List Byte} {count : StrLen} {s : State} {w : Word} (h : PayloadReady s)
    (hsteady : AlwaysReady s) (hload : stringPayload (dataField w) (beginCycle s) =
      loadSequence seq .none { beginCycle s with strRemaining := count }) :
    step (issuing (.write 0x00 4 w) s) = .next (loadSequence seq .none { s with
      strRemaining := count, cycle := s.cycle + 1, diagValid := false }) := by
  have ⟨hp, _, hphase⟩ := h
  obtain ⟨hreset, -, hinputs⟩ := hsteady
  have hwrite : memWrite 0x00 4 w (beginCycle s) = .next (stringPayload (dataField w) (beginCycle s)) :=
    (memWrite_cmd w _).trans (cmdWrite_payload w h)
  rw [hload] at hwrite
  rw [step_host (s := issuing _ s) hreset hp (.inr hphase) rfl]
  exact (congrArg (andThen · endCycle) hwrite).trans (congrArg Host.Outcome.next (endCycle_steady hinputs))

section
variable {s : State} (w : Word) (h : PayloadReady s) (hstr : s.strMode = true) (hsteady : AlwaysReady s)
include h hsteady

include hstr in
/-- One more cycle takes the character alone. -/
theorem sent_character (hmore : s.strRemaining ≠ 1) :
    ∃ n u, cycles n (issuing (.write 0x00 4 w) s) = .next u ∧
      Sent [dataField w] n { s with strRemaining := s.strRemaining - 1 } u := by
  have haccept := step_issuing_payload h hsteady (stringPayload_more (s := beginCycle s) (dataField w) hmore)
  refine ⟨2, _, cycles_snoc (cycles_succ 0 _ _ haccept) (step_emitLast_expecting
    (loadSequence_buffered _ _ _ (by simp)) hsteady rfl hstr (sub_ne_zero.mpr hmore)), by simp [wireBytes], ?_⟩
  obtain ⟨hp, -, hphase⟩ := h
  simp [loadSequence, complete, respond, hp, hphase, Nat.add_assoc]

/-- Two more cycles take the last character and the terminator. -/
theorem sent_lastCharacter (hlast : s.strRemaining = 1) :
    ∃ n u, cycles n (issuing (.write 0x00 4 w) s) = .next u ∧
      Sent [dataField w, 0x0A] n { s with strRemaining := 0, strMode := false, phase := .idle } u := by
  have haccept := step_issuing_payload h hsteady (stringPayload_last (s := beginCycle s) (dataField w) hlast)
  refine ⟨3, _, (cycles_succ 2 _ _ haccept).trans (cycles_emitLastTwo_done
    (loadSequence_buffered _ _ _ (by simp)) hsteady rfl rfl), by simp [wireBytes], ?_⟩
  obtain ⟨hp, -, -⟩ := h
  simp [loadSequence, complete, respond, hp, Nat.add_assoc]

end

/-- Settles O12: whether a character is the last decides what is loaded and where its emission ends. -/
theorem payloadWordSendsItsCharacter : Obligations.PayloadWordSendsItsCharacter := by
  unfold Obligations.PayloadWordSendsItsCharacter
  refine ⟨fun w => rfl, fun b s h _ hmore => ⟨_, exec_data b h, ?more⟩,
    fun b s h hlast => ⟨_, exec_data b h, ?last⟩,
    fun w s h hstr hsteady _ hmore => sent_character w h hstr hsteady hmore,
    fun w s h _ hsteady hlast => sent_lastCharacter w h hsteady hlast⟩
  case more =>
    rw [stringPayload_more b hmore]
    exact loaded_loadSequence .none _ (by simp)
  case last =>
    rw [stringPayload_last b hlast]
    exact loaded_loadSequence .none _ (by simp)

/-! A whole string (R343). -/

/-- A payload word is accepted next, and the Transport takes each byte as it is offered. -/
structure Expecting (s : State) : Prop where
  ready : PayloadReady s
  strMode : s.strMode = true
  steady : AlwaysReady s

/-- In some number of cycles `k` writes of the host put exactly `bytes` on the wire and complete, and leave the CFE
ready for a command with the moves `rest` to come. -/
def Prints (bytes : List Byte) (k : Nat) (rest : List HostAction) (s : State) : Prop :=
  ∃ n u, cycles n s = .next u ∧ wireBytes u = wireBytes s ++ bytes ∧ CommandReady u ∧ u.host = rest ∧
    u.responses = s.responses ++ List.replicate k .okay

/-- One write completes, and the others follow. -/
theorem prints_succ {first bytes : List Byte} {k n : Nat} {rest : List HostAction} {s t : State}
    (hrun : cycles n s = .next t) (hwire : wireBytes t = wireBytes s ++ first)
    (hresp : t.responses = s.responses ++ [.okay]) (h : Prints bytes k rest t) :
    Prints (first ++ bytes) (k + 1) rest s := by
  obtain ⟨m, u, hrest, hwire', hready, hhost, hresp'⟩ := h
  refine ⟨n + m, u, (cycles_add n m s t hrun).trans hrest, ?_, hready, hhost, ?_⟩
  · rw [hwire', hwire, List.append_assoc]
  · rw [hresp', hresp, List.append_assoc, List.replicate_succ]
    rfl

/-- A single write is the last one if it leaves the CFE ready for a command. -/
theorem prints_one {bytes : List Byte} {n : Nat} {rest : List HostAction} {s t u : State}
    (hrun : cycles n s = .next u) (hsent : Sent bytes n t u) (hready : CommandReady t) (hhost : t.host = rest)
    (hwire : t.wire = s.wire) (hresp : t.responses = s.responses) : Prints bytes 1 rest s := by
  obtain ⟨hbytes, hframe⟩ := hsent
  have hdone : CommandReady u := by
    rw [hframe]
    exact hready
  refine ⟨n, u, hrun, ?_, hdone, ?_, ?_⟩
  · rw [hbytes, wireBytes, hwire]
    rfl
  · rw [hframe, hhost]
  · rw [hframe, hresp]
    rfl

theorem issuing_of_host {a : HostAction} {rest : List HostAction} {s : State} (h : s.host = a :: rest) :
    issuing a { s with host := rest } = s := by
  rw [issuing, ← h]

section
variable {b : Byte} {rest : List HostAction} {s : State} (hs : Expecting s)
  (hhost : s.host = .write 0x00 4 (encode (.data b)) :: rest)
include hs hhost

theorem cycles_character (hmore : s.strRemaining ≠ 1) :
    ∃ n u, cycles n s = .next u ∧ Sent [b] n { s with host := rest, strRemaining := s.strRemaining - 1 } u := by
  obtain ⟨hready, hstr, hsteady⟩ := hs
  have hsent := sent_character (s := { s with host := rest }) (encode (.data b)) hready hstr hsteady hmore
  have hfield : dataField (encode (.data b)) = b := dataField_zext b
  rwa [issuing_of_host hhost, hfield] at hsent

theorem cycles_lastCharacter (hlast : s.strRemaining = 1) :
    ∃ n u, cycles n s = .next u ∧
      Sent [b, 0x0A] n { s with host := rest, strRemaining := 0, strMode := false, phase := .idle } u := by
  obtain ⟨hready, -, hsteady⟩ := hs
  have hsent := sent_lastCharacter (s := { s with host := rest }) (encode (.data b)) hready hsteady hlast
  have hfield : dataField (encode (.data b)) = b := dataField_zext b
  rwa [issuing_of_host hhost, hfield] at hsent

end

/-- The accesses of the payload words of `chars` (R362). -/
def payloadWrites (chars : List Byte) : List HostAction := chars.map fun b => writeCmd (encode (.data b))

theorem stringAccesses_eq (chars : List Byte) : stringAccesses chars =
    .write 0x00 4 (encode (.writeString (BitVec.ofNat 24 chars.length))) :: payloadWrites chars :=
  rfl

/-- The count (R342) while at least one more character follows the next one. -/
theorem count_of_more {k : Nat} {r : StrLen} (hlen : k + 2 < 2 ^ 24) (hr : r = BitVec.ofNat 24 (k + 2)) :
    r ≠ 1 ∧ r - 1 = BitVec.ofNat 24 (k + 1) := by
  bv_omega

/-- Each character is sent by its own word, and the last one brings the terminator. -/
theorem prints_characters (rest : List HostAction) (b : Byte) (chars : List Byte) (s : State) (hs : Expecting s)
    (hlen : chars.length + 1 < 2 ^ 24) (hcount : s.strRemaining = BitVec.ofNat 24 (chars.length + 1))
    (hhost : s.host = payloadWrites (b :: chars) ++ rest) :
    Prints (b :: (chars ++ [0x0A])) (chars.length + 1) rest s := by
  induction chars generalizing b s with
  | nil =>
    obtain ⟨n, u, hrun, hsent⟩ := cycles_lastCharacter hs hhost hcount
    obtain ⟨hp, hi, -⟩ := hs.ready
    exact prints_one hrun hsent ⟨hp, hi, rfl⟩ rfl rfl rfl
  | cons c chars ih =>
    obtain ⟨hmore, hnext⟩ := count_of_more hlen hcount
    obtain ⟨n, u, hrun, hwire, hframe⟩ := cycles_character hs hhost hmore
    have hrest : Prints (c :: (chars ++ [0x0A])) (chars.length + 1) rest u := by
      refine ih c u ?_ (Nat.lt_of_succ_lt hlen) ?_ ?_ <;> rw [hframe]
      · exact ⟨hs.ready, hs.strMode, hs.steady⟩
      · exact hnext
      · rfl
    exact prints_succ hrun hwire (by rw [hframe]) hrest

/-- The cycle that takes a header with characters to come. -/
theorem step_issuing_header {len : StrLen} {s : State} (hlen : len ≠ 0) (hready : CommandReady s)
    (hsteady : AlwaysReady s) :
    step (issuing (.write 0x00 4 (encode (.writeString len))) s) = .next { s with
      strMode := true, strRemaining := len, phase := .strWait, responses := s.responses ++ [.okay],
      cycle := s.cycle + 1, diagValid := false } := by
  obtain ⟨hreset, -, hinputs⟩ := hsteady
  rw [step_issuing_command (Window.decode_encode (.writeString len)) hready hreset,
    exec_header (s := beginCycle s) hlen hready]
  exact congrArg Host.Outcome.next (endCycle_steady hinputs)

/-- Settles O13: the empty string is its header's terminator alone, and any other its header, which sends nothing,
and then its characters. -/
theorem stringReachesTheWireTerminated : Obligations.StringReachesTheWireTerminated := by
  unfold Obligations.StringReachesTheWireTerminated
  intro chars rest s hlen hready hstr hsteady hhost
  rw [stringAccesses_eq] at hhost
  have hissue := issuing_of_host hhost
  have hprints : Prints (chars ++ [0x0A]) (chars.length + 1) rest s := by
    cases chars with
    | nil =>
      obtain ⟨-, ⟨-, hsends⟩, -⟩ := stringHeaderStartsString
      obtain ⟨n, u, hrun, hsent⟩ := hsends _ { s with host := rest } (Window.decode_encode (.writeString 0)) hready
        hstr hsteady
      exact prints_one ((congrArg (cycles n) hissue).symm.trans hrun) hsent hready rfl rfl rfl
    | cons b chars =>
      have hlength : BitVec.ofNat 24 (chars.length + 1) ≠ 0 := by
        rw [List.length_cons] at hlen
        bv_omega
      have hstep := step_issuing_header (s := { s with host := payloadWrites (b :: chars) ++ rest }) hlength hready
        hsteady
      have hheader := (congrArg step hissue).symm.trans hstep
      obtain ⟨hp, hi, -⟩ := hready
      exact prints_succ (first := []) (cycles_succ 0 s _ hheader) (List.append_nil _).symm rfl
        (prints_characters rest b chars _ ⟨⟨hp, hi, rfl⟩, rfl, hsteady⟩ hlen rfl rfl)
  obtain ⟨n, u, hrun, hwire, hdone⟩ := hprints
  exact ⟨n, u, hrun, by rw [hwire, List.append_assoc], hdone⟩

/-! The counter (R342). -/

/-- Only a CMD write touches the counter. -/
theorem strRemaining_hostEffect {s u : State} {a : HostAction} (heffect : HostEffect s a u) :
    u.strRemaining = s.strRemaining ∨ ∃ w, a = .write 0x00 4 w := by
  cases heffect with
  | dropped w => exact .inr ⟨w, rfl⟩
  | character w => exact .inr ⟨w, rfl⟩
  | command w => exact .inr ⟨w, rfl⟩
  | init v =>
    obtain ⟨-, -, hrem, -⟩ := initOperation_frame (pinField v) s
    exact .inl hrem
  | _ => exact .inl rfl

theorem strRemaining_emitStep (b : Byte) (s : State) : (emitStep b s).strRemaining = s.strRemaining := by
  rcases emitStep_cases b s with ⟨-, he⟩ | ⟨-, he⟩ | ⟨-, -, -, he⟩ | ⟨-, -, he⟩ <;> simp [he]

theorem strRemaining_settleCycle (s : State) : (settleCycle s).strRemaining = s.strRemaining := by
  rcases settleCycle_cases s with ⟨-, hc⟩ | ⟨-, hc⟩ <;> simp [hc]

/-- Characters are expected after a string header alone. -/
theorem header_of_charactersAfter {w : Word} (h : charactersAfter w ≠ 0) :
    opField w = 0x24 ∧ charactersAfter w = lenField w := by
  by_cases hentry : (rom (opField w)).valid = true ∧ (rom (opField w)).kind = .string
  · obtain ⟨hop, -⟩ := rom_string _ hentry.2
    exact ⟨hop, if_pos hentry⟩
  · exact absurd (if_neg hentry) h

/-- A CMD write leaves the counter, loads it from 0 by a header, or takes one from it in STR_WAIT. -/
theorem strRemaining_cmdWrite {s u : State} {w : Word} (hinv : EngineInv s)
    (hphase : s.phase = .idle ∨ s.phase = .strWait) (hu : cmdWrite w s = .next u)
    (hchange : u.strRemaining ≠ s.strRemaining) :
    (s.strRemaining = 0 ∧ opField w = 0x24 ∧ u.strRemaining = lenField w) ∨
    (s.phase = .strWait ∧ s.strRemaining.toNat = u.strRemaining.toNat + 1) := by
  by_cases hi : s.initState = .ready
  · rcases hphase with hidle | hwait
    · obtain ⟨hp, -, hrem⟩ := hinv.idle hidle
      cases (cmdWrite_command hp w hi (by simp [hidle])).symm.trans hu
      have hload := (owes_romDispatch w (by simp [hidle]) hrem).strRemaining
      rw [hload, hrem] at hchange
      rw [hload]
      exact .inl ⟨hrem, header_of_charactersAfter hchange⟩
    · obtain ⟨hp, -, hrem⟩ := hinv.awaiting hwait
      cases (cmdWrite_payload w ⟨hp, hi, hwait⟩).symm.trans hu
      have hdown := (owes_stringPayload (dataField w) s).strRemaining
      rw [hdown]
      exact .inr ⟨hwait, by bv_omega⟩
  · obtain ⟨hidle, hp, -⟩ := hinv.quiet hi
    cases (cmdWrite_notReady hp w hi).symm.trans hu
    simp at hchange

theorem strRemaining_hostMove {s u : State} {a : HostAction} (hinv : EngineInv s) (hp : s.pending = false)
    (hphase : s.phase = .idle ∨ s.phase = .strWait) (hu : hostMove a s = .next u)
    (hchange : u.strRemaining ≠ s.strRemaining) :
    (s.strRemaining = 0 ∧ ∃ w, a = .write 0x00 4 w ∧ opField w = 0x24 ∧ u.strRemaining = lenField w) ∨
    (s.phase = .strWait ∧ s.strRemaining.toNat = u.strRemaining.toNat + 1) := by
  obtain ⟨v, hv, heffect⟩ := hostMove_effect hp a
  cases hu.symm.trans hv
  rcases strRemaining_hostEffect heffect with hkept | ⟨w, rfl⟩
  · exact absurd hkept hchange
  · have hwrite : cmdWrite w s = .next u := hu
    rcases strRemaining_cmdWrite hinv hphase hwrite hchange with ⟨hzero, hheader⟩ | hdown
    · exact .inl ⟨hzero, w, rfl, hheader⟩
    · exact .inr hdown

/-- Settles O48: of the cycles only one that takes a CMD write touches the counter. -/
theorem stringCounterNeverWraps : Obligations.StringCounterNeverWraps := by
  unfold Obligations.StringCounterNeverWraps
  intro s t hinv hstep hr hchange
  rcases step_cases hstep with ⟨hreset, -⟩ | ⟨-, -, b, -, ⟨-, rfl⟩ | ⟨-, rfl⟩⟩ | ⟨-, -, rfl⟩ |
    ⟨-, hphase, u, hu, rfl⟩
  · simp [hr] at hreset
  · simp [strRemaining_emitStep] at hchange
  · simp at hchange
  · simp [strRemaining_settleCycle] at hchange
  · rw [endCycle_strRemaining] at hchange ⊢
    rcases hostCycle_cases (beginCycle s) with ⟨-, hc⟩ | ⟨hp, a, rest, hh, hc⟩
    · cases hc.symm.trans hu
      exact absurd rfl hchange
    · have htaken : EngineInv { beginCycle s with host := rest } := inv_congr hinv rfl
      rcases strRemaining_hostMove htaken hp hphase (hc.symm.trans hu) hchange with ⟨hzero, w, rfl, hheader⟩ | hdown
      · exact .inl ⟨hzero, w, rest, hh, hheader⟩
      · exact .inr hdown

end Sys2Proof.Proofs.Strings
end

-- ==== Proofs of the statements of 47_facade.md ====
section
/-!
The pseudo-instructions: what each refuses, and the word of each whose operands are packed into one byte.
-/

namespace Sys2Proof.Proofs.Facade
open Sys2Proof.Machine Sys2Proof.Laws Sys2Proof.Proofs.Encoding Sys2Proof.Proofs.Strings

/-! `WRITE_STRING "s"` (R362). -/

/-- The payload word of a character is the character, extended. -/
theorem payloadWrites_map_itemByte (items : List StrItem) : payloadWrites (items.map itemByte) =
    items.map (fun x => .write 0x00 4 (BitVec.setWidth 32 (itemByte x))) :=
  List.map_map

/-- A string of accepted items whose length fits the header is its header and its payload words. -/
theorem assemble_writeString {items : List StrItem} (hitems : items.all StrItem.wf = true)
    (hlen : items.length ≤ 16777215) : assemble (.writeString items) =
      .ok (.write 0x00 4 (BitVec.ofNat 32 (items.length * 256 + 0x24)) :: payloadWrites (items.map itemByte)) := by
  have hwf : (Statement.writeString items).wf = true :=
    Bool.and_eq_true_iff.mpr ⟨hitems, fitsLength_ofNat hlen⟩
  simp only [assemble, hwf, if_true, stringAccesses_eq, List.length_map, encode_writeString_ofNat hlen]

/-- Settles O57: a string's items and length are all that is tested, and its accesses follow the items in order. -/
theorem stringStatementExpands : Obligations.StringStatementExpands := by
  unfold Obligations.StringStatementExpands
  refine ⟨fun items hitems hlen => ?_, fun items hitems => ?_, ?_⟩
  · rw [← payloadWrites_map_itemByte]
    exact assemble_writeString hitems (by omega)
  · exact assemble_refused (Bool.and_eq_false_iff.mpr (.inl hitems))
  · exact assemble_writeString (by decide) (by decide)

/-! Operands packed into one byte (R364, R365). -/

/-- A number below `2 ^ k` packed under another is their sum. -/
theorem ofNat_shiftLeft_or_ofNat (width high k : Nat) {low : Nat} (h : low < 2 ^ k) :
    BitVec.ofNat width high <<< k ||| BitVec.ofNat width low = BitVec.ofNat width (high * 2 ^ k + low) := by
  have hshift : BitVec.ofNat width high <<< k = BitVec.ofNat width (high <<< k) := by
    apply BitVec.eq_of_toNat_eq
    simp [Nat.shiftLeft_eq]
  rw [hshift, ← Nat.shiftLeft_eq, Nat.shiftLeft_add_eq_or_of_lt h]
  exact BitVec.ofNat_or.symm

/-- The word of a command with one operand that fits (R90). -/
theorem mkWord_ofNat (op : Byte) {n : Nat} (h : n ≤ 255) :
    mkWord op (BitVec.ofNat 8 n) 0 0 = BitVec.ofNat 32 (n * 256 + op.toNat) := by
  have hop : zext op = BitVec.ofNat 32 op.toNat := (BitVec.ofNat_toNat 32 op).symm
  calc mkWord op (BitVec.ofNat 8 n) 0 0
    _ = zext (BitVec.ofNat 8 n) <<< 8 ||| zext op := by simp [mkWord, zext, BitVec.or_comm]
    _ = BitVec.ofNat 32 (n * 256 + op.toNat) := by
      rw [zext_byte_ofNat h, hop]
      exact ofNat_shiftLeft_or_ofNat 32 n 8 op.isLt

/-- Two operands in range, the second packed above the first, are forwarded as one byte. -/
theorem mkWord_packed (op : Byte) {high low k : Nat} (hlow : low < 2 ^ k) (hfit : high * 2 ^ k + low ≤ 255) :
    mkWord op (byteOf (Int.ofNat high) <<< k ||| byteOf (Int.ofNat low)) 0 0 =
      BitVec.ofNat 32 ((high * 2 ^ k + low) * 256 + op.toNat) := by
  rw [byteOf_ofNat, byteOf_ofNat, ofNat_shiftLeft_or_ofNat 8 high k hlow, mkWord_ofNat op hfit]

/-! The operands each form accepts (R363 to R365). -/

theorem wf_toggle_iff (t : Toggle) (x : Int) : (Statement.toggle t x).wf = true ↔ x = 0 ∨ x = 1 := by
  simp [Statement.wf, isBit]

theorem wf_setDensity_iff (level brk : Int) : (Statement.setDensity level brk).wf = true ↔
    (0 ≤ level ∧ level ≤ 31) ∧ 0 ≤ brk ∧ brk ≤ 7 := by
  simp [Statement.wf, and_assoc]

theorem wf_enlargeHw_iff (h w : Int) : (Statement.enlargeHw h w).wf = true ↔
    (0 ≤ h ∧ h ≤ 15) ∧ 0 ≤ w ∧ w ≤ 15 := by
  simp [Statement.wf, and_assoc]

theorem assemble_refused_of_not_wf {st : Statement} (h : ¬ st.wf = true) :
    assemble st = .error .operandRefused :=
  assemble_refused (by simpa using h)

/-- `SET_DENSITY` is DENSITY with the break time above the level. -/
theorem assemble_setDensity {level brk : Nat} (hlevel : level < 32) (hbrk : brk < 8) :
    assemble (.setDensity (Int.ofNat level) (Int.ofNat brk)) =
      .ok [.write 0x00 4 (BitVec.ofNat 32 ((brk * 32 + level) * 256 + 0x21))] := by
  have hwf : (Statement.setDensity (Int.ofNat level) (Int.ofNat brk)).wf = true :=
    (wf_setDensity_iff _ _).mpr (by simp only [Int.ofNat_eq_natCast]; omega)
  have hword := mkWord_packed 0x21 (high := brk) (k := 5) hlevel (by omega)
  simp only [assemble, hwf, if_true, encode, hword]
  rfl

/-- `ENLARGE_HW` is ENLARGE with the width above the height. -/
theorem assemble_enlargeHw {h w : Nat} (hh : h < 16) (hw : w < 16) :
    assemble (.enlargeHw (Int.ofNat h) (Int.ofNat w)) =
      .ok [.write 0x00 4 (BitVec.ofNat 32 ((w * 16 + h) * 256 + 0x0C))] := by
  have hwf : (Statement.enlargeHw (Int.ofNat h) (Int.ofNat w)).wf = true :=
    (wf_enlargeHw_iff _ _).mpr (by simp only [Int.ofNat_eq_natCast]; omega)
  have hword := mkWord_packed 0x0C (high := w) (k := 4) hh (by omega)
  simp only [assemble, hwf, if_true, encode, hword]
  rfl

/-- Settles O55: the fixed forms compute; the packed ones follow from their ranges. -/
theorem pseudoInstructionsExpand : Obligations.PseudoInstructionsExpand := by
  unfold Obligations.PseudoInstructionsExpand
  refine ⟨rfl, rfl, fun t => ?_, fun t x h0 h1 => ?_, fun level hlevel brk hbrk => assemble_setDensity hlevel hbrk,
    fun level brk h => ?_, fun h hh w hw => assemble_enlargeHw hh hw, fun h w hout => ?_, fun fs => rfl⟩
  · cases t <;> exact ⟨rfl, rfl⟩
  · exact assemble_refused_of_not_wf (by simp [wf_toggle_iff, h0, h1])
  · exact assemble_refused_of_not_wf (by rw [wf_setDensity_iff]; omega)
  · exact assemble_refused_of_not_wf (by rw [wf_enlargeHw_iff]; omega)

end Sys2Proof.Proofs.Facade
end

-- ==== Proofs of the statements of 60_exceptions.md ====
section
/-!
A Transport that never accepts (R410): the stalled cycle repeats itself until the reset.
-/

namespace Sys2Proof.Proofs.Hang
open Sys2Proof.Machine Sys2Proof.Laws Sys2Proof.Proofs.Sequencer Sys2Proof.Proofs.Registers

/-- A cycle in EMIT without reset, the Transport not accepting and the input pins at their last levels: only the
clock and `diag_valid` move. -/
theorem step_stalled {s : State} (hbytes : bufferedBytes s ≠ []) (hr : s.resetIn = false) (ht : s.txReady = false)
    (hinputs : s.inputs = []) : step s = .next { s with diagValid := false, cycle := s.cycle + 1 } := by
  obtain ⟨b, rest, hb⟩ := List.exists_cons_of_ne_nil hbytes
  obtain ⟨hphase, -⟩ := bufferedBytes_cons hb
  have hoffer : txData (beginCycle s) = some b := txData_of_buffered hb
  have hsteady : endCycle (beginCycle s) = { s with diagValid := false, cycle := s.cycle + 1 } :=
    endCycle_steady hinputs
  simp [step, hr, engineCycle, hphase, emitCycle, hoffer, ht, andThen, hsteady]

/-- The state after stalled cycles stalls for the same reasons, so that the hang lasts. -/
theorem cycles_stalled {s : State} (hbytes : bufferedBytes s ≠ []) (hr : s.resetIn = false) (ht : s.txReady = false)
    (hinputs : s.inputs = []) (n : Nat) :
    cycles (n + 1) s = .next { s with diagValid := false, cycle := s.cycle + (n + 1) } := by
  induction n with
  | zero => exact cycles_succ 0 _ _ (step_stalled hbytes hr ht hinputs)
  | succ n ih => exact cycles_snoc ih (step_stalled hbytes hr ht hinputs)

/-- Settles O24: the stalled cycle is repeated, and the cycle of the reset puts every element. -/
theorem transportHangEndsOnlyByReset : Obligations.TransportHangEndsOnlyByReset := by
  unfold Obligations.TransportHangEndsOnlyByReset
  refine fun s hbytes ht hinputs => ⟨fun hr n => ⟨_, cycles_stalled hbytes hr ht hinputs n, rfl⟩, fun hr => ?_⟩
  obtain ⟨t, hstep, hreset⟩ := resetPutsEveryElement s hr
  exact ⟨t, hstep, by simp [hreset]⟩

end Sys2Proof.Proofs.Hang
end
